-- ==== Sys2Proof/Word.lean ====
section
/-! DEFINITION. The plainest data of the block: bytes, line levels and the sample bound
(spec/00_scope.md rules R10 and R12). A sample number is a `Nat`: rule R10 gives it 64 bits and lets a
model use unbounded naturals, sums and differences of samples are exact (rule R12), and an admitted
capture keeps every one of them below `2 ^ 64` (rule R239, notes/assumptions/7.md). -/

namespace Sys2Proof

/-- Eight bits: the unit in which a phase code is laid out for the decoder. -/
abbrev Byte := BitVec 8

/-- The level of a line at one sample, `HIGH = 1` and `LOW = 0` (rule R12). -/
abbrev Level := Bool

/-- Rule R12: `HIGH = 1`. -/
abbrev HIGH : Level := true

/-- Rule R12: `LOW = 0`. -/
abbrev LOW : Level := false

/-- Rule R10 and rule R239: the largest horizon an admitted capture may have. -/
def maxHorizon : Nat := 2 ^ 64 - 2

end Sys2Proof
end

