-- ==== Sys2Proof/Config.lean ====
section
/-! DEFINITION. The configuration the host supplies before reset and that is constant for a session
(spec/10_state.md rule R21, spec/00_scope.md rules R7 to R9). The spec leaves no value of a step
open, so there is no free value here (notes/assumptions/18.md). -/

namespace Sys2Proof

/-- Rule R21: the four configuration inputs. -/
structure Config where
  /-- `N`, the number of bus nodes; node 0 is the master (rule R7). -/
  n : Nat
  /-- `INT_THRESHOLD` (rule R8). -/
  intThreshold : Nat
  /-- `IDLE_CHECK` (rule R9). -/
  idleCheck : Bool
  /-- The channel binding: entry `i` says which captured signal is `CLK_i` (rule R21). -/
  clkBind : List Nat
  /-- The channel binding: entry `i` says which captured signal is `DAT_i` (rule R21). -/
  datBind : List Nat
deriving DecidableEq, Repr

/-- `K = N - 1`, the ring index of the last node (rule R7). -/
def Config.lastNode (c : Config) : Nat := c.n - 1

/-- Rule R8: the value the spec fixes for `INT_THRESHOLD`. -/
def defaultIntThreshold : Nat := 2

/-- Rule R9: the default of `IDLE_CHECK`. -/
def defaultIdleCheck : Bool := true

/-- A binding for `n` nodes in the order `CLK_0, DAT_0, CLK_1, DAT_1, ...` of the captured signals,
with the spec's default parameters. -/
def Config.interleaved (n : Nat) : Config :=
  { n := n
    intThreshold := defaultIntThreshold
    idleCheck := defaultIdleCheck
    clkBind := (List.range n).map (fun i => 2 * i)
    datBind := (List.range n).map (fun i => 2 * i + 1) }

end Sys2Proof
end

