-- ==== Sys2Proof/Syntax.lean ====
section
/-! DEFINITION. The operations a step selects by the phase register, one constructor per row of
spec/opcode_table.json (spec/30_encoding.md rules R80, R81 and R103). -/

namespace Sys2Proof

/-- What a step executes. The eight phase operations and the two no-step states have one code each;
the two masked rows of reserved codes carry the code that was found in the register. -/
inductive Instr where
  /-- Phase code 0000 (rule R110). -/
  | request
  /-- Phase code 0001 (rule R130). -/
  | arbitration
  /-- Phase code 0010 (rule R140). -/
  | priority
  /-- Phase code 0011 (rule R150). -/
  | reserved
  /-- Phase code 0100 (rule R160). -/
  | address
  /-- Phase code 0101 (rule R165). -/
  | data
  /-- Phase code 0110 (rule R180). -/
  | control0
  /-- Phase code 0111 (rule R185). -/
  | control1
  /-- Phase code 1000, no step (rule R210). -/
  | halted
  /-- Phase code 1001, no step (rule R204). -/
  | fault
  /-- Reserved phase codes 1010 and 1011 (rule R81). -/
  | reservedPhase101x (code : BitVec 4)
  /-- Reserved phase codes 1100 to 1111 (rule R81). -/
  | reservedPhase11xx (code : BitVec 4)
deriving DecidableEq, Repr

end Sys2Proof
end

