-- ==== Sys2Proof/WellFormed.lean ====
section
/-! DEFINITION. What a well-formed operation and an admitted configuration are
(spec/30_encoding.md rule R103, spec/70_reset_and_hazards.md rule R232). -/

namespace Sys2Proof

/-- Rule R103: the code an operation of a masked row carries matches that row's `match` under its
`mask`. The other rows carry nothing to check. -/
def Instr.wf (i : Instr) : Bool :=
  match i with
  | .request => true
  | .arbitration => true
  | .priority => true
  | .reserved => true
  | .address => true
  | .data => true
  | .control0 => true
  | .control1 => true
  | .halted => true
  | .fault => true
  | .reservedPhase101x code => code &&& 0xE#4 == 0xA#4
  | .reservedPhase11xx code => code &&& 0xC#4 == 0xC#4

/-- Rule R232: `2 <= N <= 32`, `INT_THRESHOLD` in 1..5, and a binding for every node's two
channels. -/
def Config.wf (c : Config) : Bool :=
  decide (2 ≤ c.n) && decide (c.n ≤ 32) &&
    decide (1 ≤ c.intThreshold) && decide (c.intThreshold ≤ 5) &&
    decide (c.clkBind.length = c.n) && decide (c.datBind.length = c.n)

end Sys2Proof
end

