-- ==== Sys2Proof/Decode.lean ====
section
/-! DEFINITION. The phase codes, the decoder that reads an operation from a phase code, and the
encoder that writes its code (spec/30_encoding.md rules R80, R81 and R103). -/

namespace Sys2Proof

/-! ## The codes of rule R80 -/

def PhaseCode.request : BitVec 4 := 0b0000#4
def PhaseCode.arbitration : BitVec 4 := 0b0001#4
def PhaseCode.priority : BitVec 4 := 0b0010#4
def PhaseCode.reserved : BitVec 4 := 0b0011#4
def PhaseCode.address : BitVec 4 := 0b0100#4
def PhaseCode.data : BitVec 4 := 0b0101#4
def PhaseCode.control0 : BitVec 4 := 0b0110#4
def PhaseCode.control1 : BitVec 4 := 0b0111#4
def PhaseCode.halted : BitVec 4 := 0b1000#4
def PhaseCode.fault : BitVec 4 := 0b1001#4

/-- The operation a phase code selects. Every 4-bit value matches exactly one row (rule R103), so
nothing is rejected here: codes 1010 to 1111 select the two reserved rows of rule R81. -/
def decode (code : BitVec 4) : Instr :=
  if code = PhaseCode.request then .request
  else if code = PhaseCode.arbitration then .arbitration
  else if code = PhaseCode.priority then .priority
  else if code = PhaseCode.reserved then .reserved
  else if code = PhaseCode.address then .address
  else if code = PhaseCode.data then .data
  else if code = PhaseCode.control0 then .control0
  else if code = PhaseCode.control1 then .control1
  else if code = PhaseCode.halted then .halted
  else if code = PhaseCode.fault then .fault
  else if code &&& 0xE#4 = 0xA#4 then .reservedPhase101x code
  else .reservedPhase11xx code

/-- Why the decoder refuses a byte string. -/
inductive DecodeError where
  /-- There is no byte to read. -/
  | noByte
  /-- The byte has a bit above the four of the phase register (rule R80). -/
  | notAPhaseCode (b : Byte)
deriving DecidableEq, Repr

/-- Reads one operation from bytes: a phase code stands in the low nibble of one byte, whose high
nibble is 0. Total on any bytes. -/
def decodeBytes : List Byte → Except DecodeError (Instr × List Byte)
  | [] => .error .noByte
  | b :: rest =>
    if b.extractLsb' 4 4 = 0#4 then .ok (decode (b.extractLsb' 0 4), rest)
    else .error (.notAPhaseCode b)

/-- The phase code of an operation (rules R80 and R81). -/
def encodePhase (i : Instr) : BitVec 4 :=
  match i with
  | .request => PhaseCode.request
  | .arbitration => PhaseCode.arbitration
  | .priority => PhaseCode.priority
  | .reserved => PhaseCode.reserved
  | .address => PhaseCode.address
  | .data => PhaseCode.data
  | .control0 => PhaseCode.control0
  | .control1 => PhaseCode.control1
  | .halted => PhaseCode.halted
  | .fault => PhaseCode.fault
  | .reservedPhase101x code => code
  | .reservedPhase11xx code => code

/-- The bytes of an operation: one byte, its phase code in the low nibble. -/
def encode (i : Instr) : List Byte := [(encodePhase i).setWidth 8]

/-- `count` bytes of `w`, the least significant first. -/
def bytesOf : Nat → Nat → List Byte
  | 0, _ => []
  | count + 1, w => BitVec.ofNat 8 w :: bytesOf count (w / 256)

/-- How many bytes an instruction of `nbits` bits is laid out in: at least one. -/
def byteCount (nbits : Nat) : Nat := max 1 ((nbits + 7) / 8)

/-- The operation the decoder reads from an instruction whose bits are `w`, numbered as
spec/opcode_table.json numbers them. -/
def decodeTableWord (nbits w : Nat) : Option Instr :=
  match decodeBytes (bytesOf (byteCount nbits) w) with
  | .ok (i, _) => some i
  | .error _ => none

end Sys2Proof
end

