-- ==== Sys2Proof/Machine/State.lean ====
section
/-! DEFINITION. The state of the deserializer (spec/10_state.md rule R20), the inputs the host drives
(rules R21 and R50, spec/60_exceptions.md rule R209) and its outputs (rule R208), as plain data. -/

namespace Sys2Proof.Machine

open Sys2Proof

/-! ## The capture (spec/20_memory.md rule R51) -/

/-- One captured signal: its level at sample 0 and its transition samples. -/
structure Channel where
  /-- `init(ch)`, the level at sample 0. -/
  init : Level
  /-- `trans(ch)`, strictly increasing and each at least 1 in a well-formed capture. -/
  trans : List Nat
deriving DecidableEq, Repr

/-- The capture as a whole. `Config.clkBind` and `Config.datBind` say which signal is which
channel. -/
structure Capture where
  signals : List Channel
  /-- `H`, the last sample known so far, shared by all channels. -/
  horizon : Nat
  /-- 1 when no sample above `H` will ever be supplied. -/
  final : Bool
deriving DecidableEq, Repr

/-! ## Frames (spec/30_encoding.md rules R82 and R83) -/

/-- Rule R83: the closed enumeration of frame kinds, in the source's order. -/
inductive FrameKind where
  | request | arbitration | priorityArbitration | reservedBit | address | data | interrupt
  | controlBit0 | controlBit1
deriving DecidableEq, Repr

/-- Rule R82: a frame record of six fields. -/
structure Frame where
  kind : FrameKind
  flags : BitVec 8
  startSample : Nat
  endSample : Nat
  valuePrimary : BitVec 64
  valueSecondary : BitVec 64
deriving DecidableEq, Repr

/-! ## Registers -/

/-- Rule R202: the four codes of the 2-bit `err_code` register. -/
inductive ErrCode where
  | none | notIdle | addrInterrupt | badState
deriving DecidableEq, Repr

/-- Rule R14: the outcome of the last step attempted, an output the host reads (rule R208). -/
inductive StepOutcome where
  /-- No step has been attempted since reset (notes/assumptions/4.md). -/
  | notAttempted
  /-- (a) The step completed. -/
  | next
  /-- (b) The step needs a sample above the horizon; nothing else changed. -/
  | hold
  /-- (c) The step entered FAULT. -/
  | fault
  /-- (d) The phase is HALTED or FAULT. -/
  | noStep
deriving DecidableEq, Repr

/-- Rule R25: the two cursor positions of one node. -/
structure NodeCursors where
  clkPos : Nat
  datPos : Nat
deriving DecidableEq, Repr

/-- Rule R20, with the configuration, the capture and `stop`, which are inputs, `outcome`, which is an
output, and `atEnd`, which records that the run reached its end. -/
structure State where
  /-- Input: the configuration (rule R21). -/
  cfg : Config
  /-- Input: the capture (rule R50). -/
  capture : Capture
  /-- Input: the host's `stop` (rule R209). -/
  stop : Bool
  /-- `phase`, the program counter (rule R22). -/
  phase : BitVec 4
  /-- `clk_pos[i]` and `dat_pos[i]`, entry `i` for ring index `i` (rule R25). -/
  nodes : List NodeCursors
  /-- `tx_valid` (rule R27). -/
  txValid : Bool
  /-- `tx` (rule R27). -/
  tx : BitVec 5
  /-- `first_req` (rule R28). -/
  firstReq : Bool
  /-- `mark` (rule R29). -/
  mark : Nat
  /-- `last_latch` (rule R30). -/
  lastLatch : Nat
  /-- `int_pending` (rule R31). -/
  intPending : Bool
  /-- `int_end` (rule R31). -/
  intEnd : Nat
  /-- `cb0` (rule R32). -/
  cb0 : Level
  /-- `err_code` (rule R202). -/
  errCode : ErrCode
  /-- `err_sample` (rule R202). -/
  errSample : Nat
  /-- The frame sink, oldest frame first (rule R67). -/
  sink : List Frame
  /-- Output: the outcome of the last step attempted (rule R208). -/
  outcome : StepOutcome
  /-- Whether the last step that held did so on a final capture, which is `END` (rule R216). The model's
  own field (notes/assumptions/24.md). -/
  atEnd : Bool
deriving DecidableEq, Repr

/-! ## Why a machine can stop -/

/-- There is no constructor. Every fault the spec describes (rule R202) is an entry into the FAULT
phase, which is a next state (rule R203), and holds and no-steps leave the state in place (rule R14):
no step of this block ends the machine. Safe: nothing is stopped. -/
inductive Fault where
deriving DecidableEq, Repr

/-- Why an input is refused. A step never raises one of these; the host's own actions do. -/
inductive Refusal where
  /-- An instruction without a meaning. Raised by no arm of `exec`. Safe. -/
  | notModelled (mnemonic : String)
  /-- Raised by `hostReset`: `N`, `INT_THRESHOLD` or the binding is outside the admitted
  configurations (spec/93_implementation_defined.md I23). Safe: no rule applies to it. -/
  | configNotAdmitted
  /-- Raised by `hostReset`: the capture is malformed, its horizon exceeds `2 ^ 64 - 2`, or a binding
  names no signal of it (I24 and I26). Safe: no rule applies to it. -/
  | captureNotAdmitted
  /-- Raised by `hostExtend` and `hostSetFinal`: the change is none of those of rule R56 (I25).
  Safe: the host may not make it. -/
  | captureChangeNotAdmitted
deriving DecidableEq, Repr

/-! ## Reset -/

/-- An idle signal with no transition. -/
def Channel.idle : Channel := { init := HIGH, trans := [] }

/-- Rule R230: every register at its reset value, with the inputs of notes/assumptions/1.md to 3.md:
two nodes, the default parameters, an idle capture of which only sample 0 is known, `stop` low. -/
def State.reset : State :=
  { cfg := Config.interleaved 2
    capture :=
      { signals := [Channel.idle, Channel.idle, Channel.idle, Channel.idle]
        horizon := 0
        final := false }
    stop := false
    phase := PhaseCode.request
    nodes := [{ clkPos := 0, datPos := 0 }, { clkPos := 0, datPos := 0 }]
    txValid := false
    tx := 0#5
    firstReq := true
    mark := 0
    lastLatch := 0
    intPending := false
    intEnd := 0
    cb0 := LOW
    errCode := .none
    errSample := 0
    sink := []
    outcome := .notAttempted
    atEnd := false }

end Sys2Proof.Machine
end

