-- ==== Sys2Proof/Machine/Capture.lean ====
section
/-! DEFINITION. Reading the capture: the three primitives of spec/20_memory.md rules R52 to R54, what
a well-formed capture is (rule R51), and the host's extension of one (rule R56). `none` is the
spec's `hold` (rule R55). -/

namespace Sys2Proof.Machine

open Sys2Proof

/-! ## Levels, edges and counts -/

/-- Rule R52: the level of a channel at a sample, its initial level toggled once per transition up
to and including that sample. -/
def Channel.levelAt (ch : Channel) (s : Nat) : Level :=
  xor ch.init (ch.trans.countP (fun t => decide (t ≤ s)) % 2 == 1)

/-- Rule R52: `Level(ch, s)`, defined for `s <= H`. -/
def level (horizon : Nat) (ch : Channel) (s : Nat) : Option Level :=
  if s ≤ horizon then some (ch.levelAt s) else none

/-- Rule R53: `NextEdge(ch, p)`. The list is strictly increasing, so the first transition after `p`
is the smallest (notes/assumptions/10.md). -/
def nextEdge (horizon : Nat) (ch : Channel) (p : Nat) : Option Nat :=
  match ch.trans.find? (fun t => decide (p < t)) with
  | none => none
  | some t => if t ≤ horizon then some t else none

/-- Rule R54: the transitions in `(p, q]`, of which there are none when `q <= p`. -/
def Channel.countIn (ch : Channel) (p q : Nat) : Nat :=
  ch.trans.countP (fun t => decide (p < t) && decide (t ≤ q))

/-- Rule R54: `Count(ch, p, q)`, which needs the samples up to `q`. -/
def count (horizon : Nat) (ch : Channel) (p q : Nat) : Option Nat :=
  if q ≤ p then some 0
  else if q ≤ horizon then some (ch.countIn p q)
  else none

/-! ## Well-formed captures -/

/-- Whether a list of samples is strictly increasing and above `low`. -/
def risesFrom (low : Nat) : List Nat → Bool
  | [] => true
  | t :: rest => decide (low < t) && risesFrom t rest

/-- Rule R51: the transitions strictly increase, each at least 1 and none above the horizon. -/
def Channel.wf (horizon : Nat) (ch : Channel) : Bool :=
  risesFrom 0 ch.trans && ch.trans.all (fun t => decide (t ≤ horizon))

/-- Rules R51 and R239: every signal is well-formed and the horizon is within the sample bound. This
is the canonical form of the block's address space (notes/assumptions/11.md). -/
def Capture.wf (cap : Capture) : Bool :=
  decide (cap.horizon ≤ maxHorizon) && cap.signals.all (Channel.wf cap.horizon)

/-- Rule R232: the capture is well-formed and every channel is bound to a signal of it. -/
def Capture.admittedFor (cap : Capture) (cfg : Config) : Bool :=
  cap.wf &&
    cfg.clkBind.all (fun j => decide (j < cap.signals.length)) &&
    cfg.datBind.all (fun j => decide (j < cap.signals.length))

/-! ## Channels by ring index -/

/-- The signal at a place of the capture; a place outside it reads as an idle line
(notes/assumptions/19.md). -/
def Capture.signal (cap : Capture) (j : Nat) : Channel := cap.signals.getD j Channel.idle

/-- The signal a binding names for ring index `i` (rule R21). -/
def Capture.bound (cap : Capture) (binding : List Nat) (i : Nat) : Channel :=
  match binding[i]? with
  | some j => cap.signal j
  | none => Channel.idle

/-- `CLK_i` of a configuration and a capture (rule R50). -/
def Capture.clk (cap : Capture) (cfg : Config) (i : Nat) : Channel := cap.bound cfg.clkBind i

/-- `DAT_i` of a configuration and a capture (rule R50). -/
def Capture.dat (cap : Capture) (cfg : Config) (i : Nat) : Channel := cap.bound cfg.datBind i

/-! ## Extension by the host -/

/-- Appends `more` to the transitions of a channel. -/
def Channel.append (ch : Channel) (more : List Nat) : Channel :=
  { ch with trans := ch.trans ++ more }

/-- Rule R56: the capture with the horizon raised to `horizon'` and, to signal `j`, the transitions
of entry `j` of `more` appended. -/
def Capture.extend (cap : Capture) (horizon' : Nat) (more : List (List Nat)) : Capture :=
  { cap with
    signals := cap.signals.zipWith Channel.append more
    horizon := horizon' }

/-- Rules R56 and R239: whether the host may extend the capture so. It is not final, the horizon
rises within the sample bound, and every signal gets a strictly increasing list of transitions
above the old horizon and up to the new one. -/
def Capture.mayExtend (cap : Capture) (horizon' : Nat) (more : List (List Nat)) : Bool :=
  !cap.final && decide (cap.horizon < horizon') && decide (horizon' ≤ maxHorizon) &&
    decide (more.length = cap.signals.length) &&
    more.all (fun ts =>
      risesFrom cap.horizon ts && ts.all (fun t => decide (t ≤ horizon')))

end Sys2Proof.Machine
end

