-- ==== Sys2Proof/Machine/Operands.lean ====
section
/-! DEFINITION. The operands an operation reads and the values it computes from them: registers by
ring index, the bus tap, the level vector, the node vector of `value_primary`, the arbitration and
priority matches and the assembly of bits (spec/20_memory.md rules R64 and R65, spec/30_encoding.md
rules R87 and R91 to R93, spec/41_arbitration.md rules R131 and R141). -/

namespace Sys2Proof.Machine

open Sys2Proof

/-! ## Registers and channels of a state -/

/-- `K`, the last node (rule R7). -/
def State.lastNode (s : State) : Nat := s.cfg.lastNode

/-- `CLK_i`. -/
def State.clk (s : State) (i : Nat) : Channel := s.capture.clk s.cfg i

/-- `DAT_i`. -/
def State.dat (s : State) (i : Nat) : Channel := s.capture.dat s.cfg i

/-- `H`. -/
def State.horizon (s : State) : Nat := s.capture.horizon

/-- `clk_pos[i]`; a place outside the register file reads as 0 (notes/assumptions/19.md). -/
def State.clkPos (s : State) (i : Nat) : Nat := (s.nodes.getD i ⟨0, 0⟩).clkPos

/-- `dat_pos[i]`; a place outside the register file reads as 0. -/
def State.datPos (s : State) (i : Nat) : Nat := (s.nodes.getD i ⟨0, 0⟩).datPos

/-! ## The bus tap and the level vector -/

/-- Rule R65: `BitAt(e)`, the level of the bus tap `DAT_K` (rule R64). -/
def bitAt (s : State) (e : Nat) : Option Level := level s.horizon (s.dat s.lastNode) e

/-- The levels of `DAT_0 .. DAT_K` at a sample, node 0 first. -/
def State.datLevels (s : State) (e : Nat) : List Level :=
  (List.range s.cfg.n).map (fun i => (s.dat i).levelAt e)

/-- Rule R65: `LevelsAt(e)`, defined for `e <= H`. -/
def levelsAt (s : State) (e : Nat) : Option (List Level) :=
  if e ≤ s.horizon then some (s.datLevels e) else none

/-- The level of node `i` in a vector; a place outside it reads as HIGH. -/
def levelOf (levels : List Level) (i : Nat) : Level := levels.getD i HIGH

/-! ## The node vector (rule R87) -/

/-- Bit `32 + i` set for every node `i` of the list, all other bits 0. -/
def nodeVector : List Nat → BitVec 64
  | [] => 0#64
  | i :: rest => (1#64 <<< (32 + i)) ||| nodeVector rest

/-! ## Requesting nodes (spec/40_request.md rules R111 and R112) -/

/-- What REQUEST finds out about one node: whether it participates, and its fall sample. -/
structure Probe where
  part : Bool
  fall : Nat
deriving DecidableEq, Repr

/-- Rule R112: the master requests when it participates, a member when its fall is strictly earlier
than its predecessor's. -/
def requesting (probes : List Probe) (i : Nat) : Bool :=
  match i with
  | 0 => (probes.getD 0 ⟨false, 0⟩).part
  | j + 1 => decide ((probes.getD (j + 1) ⟨false, 0⟩).fall < (probes.getD j ⟨false, 0⟩).fall)

/-- The requesting nodes among `0..n-1`, in ring order. -/
def requesters (n : Nat) (probes : List Probe) : List Nat :=
  (List.range n).filter (requesting probes)

/-! ## Arbitration and priority (rules R131 and R141) -/

/-- Rule R131: whether member `i` is LOW while its predecessor is HIGH. -/
def arbitrationMatch (levels : List Level) (i : Nat) : Bool :=
  decide (1 ≤ i) && levelOf levels i == LOW && levelOf levels (i - 1) == HIGH

/-- Rule R131: the match set in ring order. The master wins outright when it is LOW. -/
def arbitrationMatches (n : Nat) (levels : List Level) : List Nat :=
  if levelOf levels 0 = LOW then [0]
  else (List.range n).filter (arbitrationMatch levels)

/-- Rule R12: `pred(i)` on a ring of `n` nodes. -/
def ringPred (n i : Nat) : Nat := (i + n - 1) % n

/-- Rule R141: whether node `m` is LOW while its ring predecessor is HIGH. -/
def priorityMatch (n : Nat) (levels : List Level) (m : Nat) : Bool :=
  levelOf levels m == LOW && levelOf levels (ringPred n m) == HIGH

/-- Rule R141: the nodes after transmitter `t` in scan order, `(t + 1) mod n .. (t + n - 1) mod n`. -/
def scanOrder (n t : Nat) : List Nat := (List.range (n - 1)).map (fun j => (t + (j + 1)) % n)

/-- Rule R141: the priority matches in scan order. -/
def priorityMatches (n : Nat) (levels : List Level) (t : Nat) : List Nat :=
  (scanOrder n t).filter (priorityMatch n levels)

/-- A node index as the low bits of `value_primary` (rule R86). -/
def indexField (i : Nat) : BitVec 64 := BitVec.ofNat 64 i

/-! ## Bits (rules R70, R91 to R94) -/

/-- One bit as a word of `w` bits. -/
def bitField (w : Nat) (b : Level) : BitVec w := BitVec.ofNat w b.toNat

/-- `(v << 1) | b`: the first latched bit ends as the highest (rule R70). -/
def shiftIn {w : Nat} (v : BitVec w) (b : Level) : BitVec w := (v <<< 1) ||| bitField w b

/-- Rule R91: the top nibble of the first 8 address bits is 0xF. -/
def longMarker (v : BitVec 32) : Bool := v.extractLsb' 4 4 == 0xF#4

end Sys2Proof.Machine
end

