-- ==== Sys2Proof/Machine/Flags.lean ====
section
/-! DEFINITION. The anomaly flags of a frame (spec/30_encoding.md rule R85) and every rule that sets
one. -/

namespace Sys2Proof.Machine

open Sys2Proof

/-- No flag. -/
def Flag.none : BitVec 8 := 0x00#8
/-- Bit 0. -/
def Flag.multipleWinners : BitVec 8 := 0x01#8
/-- Bit 1. -/
def Flag.noWinner : BitVec 8 := 0x02#8
/-- Bit 2. -/
def Flag.requestQuirk : BitVec 8 := 0x04#8

/-- Rule R114: every Request frame but the session's first carries the quirk flag. -/
def requestFlags (s : State) : BitVec 8 := if s.firstReq then Flag.none else Flag.requestQuirk

/-- More than one match. -/
def multipleFlag (ms : List Nat) : BitVec 8 :=
  if 1 < ms.length then Flag.multipleWinners else Flag.none

/-- Rule R132. -/
def arbitrationFlags (ms : List Nat) : BitVec 8 :=
  (if ms = [] then Flag.noWinner else Flag.none) ||| multipleFlag ms

/-- Rule R143, with a transmitter. -/
def priorityFlags (ms : List Nat) : BitVec 8 := multipleFlag ms

/-- Rule R135, `nw`: every later frame of a transaction without a transmitter carries the flag. -/
def noWinnerFlag (s : State) : BitVec 8 := if s.txValid then Flag.none else Flag.noWinner

end Sys2Proof.Machine
end

