-- ==== Sys2Proof/Machine/Frame.lean ====
section
/-! DEFINITION. The numeric codes of the outputs and the 268-bit frame word of the block's output
port (spec/30_encoding.md rules R82 to R84, spec/60_exceptions.md rule R202). -/

namespace Sys2Proof.Machine

open Sys2Proof

/-- Rule R83: the kind codes 0 to 8. -/
def FrameKind.code (k : FrameKind) : BitVec 4 :=
  match k with
  | .request => 0#4
  | .arbitration => 1#4
  | .priorityArbitration => 2#4
  | .reservedBit => 3#4
  | .address => 4#4
  | .data => 5#4
  | .interrupt => 6#4
  | .controlBit0 => 7#4
  | .controlBit1 => 8#4

/-- The kind a code stands for; codes 9 to 15 are reserved and stand for none (rule R84). -/
def FrameKind.ofCode (c : BitVec 4) : Option FrameKind :=
  if c = 0#4 then some .request
  else if c = 1#4 then some .arbitration
  else if c = 2#4 then some .priorityArbitration
  else if c = 3#4 then some .reservedBit
  else if c = 4#4 then some .address
  else if c = 5#4 then some .data
  else if c = 6#4 then some .interrupt
  else if c = 7#4 then some .controlBit0
  else if c = 8#4 then some .controlBit1
  else none

/-- Rule R202: the value of the 2-bit `err_code` register. -/
def ErrCode.code (e : ErrCode) : BitVec 2 :=
  match e with
  | .none => 0#2
  | .notIdle => 1#2
  | .addrInterrupt => 2#2
  | .badState => 3#2

/-- Rule R82: the frame as one 268-bit word, `type` in the lowest bits. -/
def Frame.word (f : Frame) : BitVec 268 :=
  f.valueSecondary ++ f.valuePrimary ++ BitVec.ofNat 64 f.endSample ++
    BitVec.ofNat 64 f.startSample ++ f.flags ++ f.kind.code

/-- The frame a word of the output port stands for, or none when its kind code is reserved
(rules R82 and R84). -/
def Frame.ofWord (w : BitVec 268) : Option Frame :=
  match FrameKind.ofCode (w.extractLsb' 0 4) with
  | none => none
  | some k =>
    some
      { kind := k
        flags := w.extractLsb' 4 8
        startSample := (w.extractLsb' 12 64).toNat
        endSample := (w.extractLsb' 76 64).toNat
        valuePrimary := w.extractLsb' 140 64
        valueSecondary := w.extractLsb' 204 64 }

end Sys2Proof.Machine
end

