-- ==== Sys2Proof/Machine/Ops.lean ====
section
/-! DEFINITION. The shared operations of a step: the cursor operations (spec/20_memory.md rules R57 to
R61), the bus-wide advance (rules R62 and R63), the frame sink (rule R67), fault entry
(spec/60_exceptions.md rule R203) with reset, the only way back (spec/70_reset_and_hazards.md rules
R230 and R231), and how a step ends (spec/00_scope.md rules R14 and R15). In `Option`, `none` is
`hold`. -/

namespace Sys2Proof.Machine

open Sys2Proof

/-! ## Cursor operations on one cursor -/

/-- Rule R57: `current_level()`. -/
def currentLevel (horizon : Nat) (ch : Channel) (pos : Nat) : Option Level :=
  level horizon ch pos

/-- Rule R58: the position after `advance_to_next_edge()`, which is also what it returns. -/
def advanceToNextEdge (horizon : Nat) (ch : Channel) (pos : Nat) : Option Nat :=
  nextEdge horizon ch pos

/-- Rule R59: `advance_to(target)`, the new position and the transitions observed. -/
def advanceTo (horizon : Nat) (ch : Channel) (pos target : Nat) : Option (Nat × Nat) :=
  if target ≤ pos then some (pos, 0)
  else if horizon < target then none
  else do
    let seen ← count horizon ch pos target
    some (target, seen)

/-- Rule R60: the peek `would_transition_within(delta)`. -/
def wouldTransitionWithin (horizon : Nat) (ch : Channel) (pos : Nat) (delta : Nat) :
    Option Bool :=
  if delta = 0 then some false
  else if horizon < pos + delta then none
  else do
    let seen ← count horizon ch pos (pos + delta)
    some (decide (0 < seen))

/-! ## The bus-wide advance -/

/-- Rule R62, the loop: both cursors of the nodes from ring index `i` on, and whether one of their
DAT cursors saw more transitions than the threshold. -/
def advanceNodes (s : State) (target : Nat) :
    Nat → List NodeCursors → Option (List NodeCursors × Bool)
  | _, [] => some ([], false)
  | i, nd :: rest => do
    let (clk, _) ← advanceTo s.horizon (s.clk i) nd.clkPos target
    let (dat, seen) ← advanceTo s.horizon (s.dat i) nd.datPos target
    let (rest', more) ← advanceNodes s target (i + 1) rest
    some ({ clkPos := clk, datPos := dat } :: rest', decide (s.cfg.intThreshold < seen) || more)

/-- The state with the cursor registers replaced. -/
def State.setNodes (s : State) (nodes : List NodeCursors) : State := { s with nodes := nodes }

/-- Rule R62: `advance_all_to(target)`, the state after it and the interruption it reports. -/
def advanceAllTo (target : Nat) (s : State) : Option (State × Bool) := do
  let (nodes, interrupted) ← advanceNodes s target 0 s.nodes
  some (s.setNodes nodes, interrupted)

/-- The next reference-clock edge after the reference cursor: an edge of the last node's CLK
(rule R63). It moves nothing. -/
def peekClkEdge (s : State) : Option Nat :=
  nextEdge s.horizon (s.clk s.lastNode) (s.clkPos s.lastNode)

/-- Rule R63: `ClkEdge()`, the edge, the interruption and the state after it. -/
def clkEdge (s : State) : Option (Nat × Bool × State) := do
  let e ← peekClkEdge s
  let (s', interrupted) ← advanceAllTo e s
  some (e, interrupted, s')

/-- A bit was latched at sample `e` (rule R30). -/
def State.latch (s : State) (e : Nat) : State := { s with lastLatch := e }

/-- An interruption found at sample `e` is left for the next DATA step (rule R31). -/
def State.setPending (s : State) (e : Nat) : State :=
  { s with intPending := true, intEnd := e }

/-! ## The frame sink -/

/-- Rule R67: `Emit`, the only write to the sink. -/
def State.emit (s : State) (f : Frame) : State := { s with sink := s.sink ++ [f] }

/-- Emits a frame that starts at `start`, and sets `mark` (rule R29). -/
def emitFrame (kind : FrameKind) (flags : BitVec 8) (start stop : Nat)
    (vp vs : BitVec 64) (mark' : Nat) (s : State) : State :=
  { s.emit
      { kind := kind
        flags := flags
        startSample := start
        endSample := stop
        valuePrimary := vp
        valueSecondary := vs } with
    mark := mark' }

/-- Sets the next phase (rule R13). -/
def State.goto (s : State) (phase : BitVec 4) : State := { s with phase := phase }

/-! ## How a step ends -/

/-- Records the outcome of the step (rules R14 and R208). -/
def State.withOutcome (s : State) (o : StepOutcome) : State := { s with outcome := o }

/-- Rule R203: `raise Fault(code, sample)`. What the step wrote before is kept, and three registers
are written; no frame is emitted. -/
def raiseFault (code : ErrCode) (sample : Nat) (s : State) : State :=
  { s with
    phase := PhaseCode.fault
    errCode := code
    errSample := sample
    outcome := .fault }

/-- Rule R14 (a): the step completed. -/
def complete (s : State) : State := s.withOutcome .next

/-- Rule R14 (b): the step held. A hold on a final capture is the end of the run (rules R55 and R216),
and one on a capture that may still be extended only waits (rule R235). -/
def State.withHold (s : State) : State := { s with outcome := .hold, atEnd := s.capture.final }

/-- Rules R14 and R15: the end of a phase operation. A held step leaves everything as it was before
the step. -/
def finishStep (before : State) (result : Option State) : Host.Outcome State Fault Refusal :=
  match result with
  | none => .next before.withHold
  | some after => .next after

/-- Rule R14 (d): HALTED and FAULT have no step. -/
def noStep (s : State) : Host.Outcome State Fault Refusal := .next (s.withOutcome .noStep)

/-! ## Fetch and stop -/

/-- The operation `phase` selects (rule R23). -/
def fetch (s : State) : Instr := decode s.phase

/-- Rule R209: whether a step that would execute `i` sees `stop` instead. HALTED and FAULT come
first (rule R206). -/
def stopTakes (s : State) (i : Instr) : Bool :=
  match i with
  | .halted => false
  | .fault => false
  | .request => s.stop
  | .arbitration => s.stop
  | .priority => s.stop
  | .reserved => s.stop
  | .address => s.stop
  | .data => s.stop
  | .control0 => s.stop
  | .control1 => s.stop
  | .reservedPhase101x _ => s.stop
  | .reservedPhase11xx _ => s.stop

/-- Rule R209: the step that sees `stop` sets HALTED and nothing else. -/
def enterHalted (s : State) : State := complete (s.goto PhaseCode.halted)

/-- Makes the very next step execute the operation whose bits are `w`: they stand in the phase
register, and `stop` does not keep the step from dispatching. -/
def placeFetchWord (s : State) (w : Nat) : State :=
  { s with phase := BitVec.ofNat 4 w, stop := false }

/-! ## Reset -/

/-- Rule R231: some bound channel is LOW at sample 0. -/
def idleCheckFails (cfg : Config) (cap : Capture) : Bool :=
  (List.range cfg.n).any (fun i =>
    (cap.clk cfg i).levelAt 0 == LOW || (cap.dat cfg i).levelAt 0 == LOW)

/-- Rule R230, the register loads, on a configuration, a capture and the `stop` input. -/
def resetRegisters (cfg : Config) (cap : Capture) (stop : Bool) : State :=
  { cfg := cfg
    capture := cap
    stop := stop
    phase := PhaseCode.request
    nodes := List.replicate cfg.n { clkPos := 0, datPos := 0 }
    txValid := false
    tx := 0#5
    firstReq := true
    mark := 0
    lastLatch := 0
    intPending := false
    intEnd := 0
    cb0 := LOW
    errCode := .none
    errSample := 0
    sink := []
    outcome := .notAttempted
    atEnd := false }

/-- Rules R230 and R231: reset. It leaves HALTED and FAULT, and enters FAULT when the idle check is on
and fails. -/
def resetWith (cfg : Config) (cap : Capture) (stop : Bool) : State :=
  let s := resetRegisters cfg cap stop
  if cfg.idleCheck && idleCheckFails cfg cap then
    { s with phase := PhaseCode.fault, errCode := .notIdle, errSample := 0 }
  else s

end Sys2Proof.Machine
end

