-- ==== Sys2Proof/Machine/Arbiter.lean ====
section
/-! DEFINITION. ARBITRATION and PRIORITY (spec/41_arbitration.md rules R130 to R145). -/

namespace Sys2Proof.Machine

open Sys2Proof

/-- One bit cell of the arbiter: the latch edge, at which every node's DAT level is read, then the
drive edge. Both interruption results are discarded (rules R136 (d) and R145 (e)). -/
def arbiterCell (s : State) : Option (Nat × List Level × State) := do
  let (e₁, _, s₁) ← clkEdge s
  let levels ← levelsAt s₁ e₁
  let (_, _, s₂) ← clkEdge (s₁.latch e₁)
  some (e₁, levels, s₂)

/-- Rule R134: the transmitter after arbitration. With no match `tx` keeps its value. -/
def setWinner (ms : List Nat) (s : State) : State :=
  match ms with
  | [] => { s with txValid := false }
  | winner :: _ => { s with txValid := true, tx := BitVec.ofNat 5 winner }

/-- Rule R133: the match set and the winner's index, 0 without one. -/
def arbitrationValue (ms : List Nat) : BitVec 64 :=
  match ms with
  | [] => nodeVector []
  | winner :: rest => nodeVector (winner :: rest) ||| indexField winner

/-- Rule R130: the phase operation. -/
def arbitrationPhase (s : State) : Option State := do
  let (e₁, levels, s₂) ← arbiterCell s
  let ms := arbitrationMatches s.cfg.n levels
  let s₃ := emitFrame .arbitration (arbitrationFlags ms) s.mark e₁ (arbitrationValue ms) 0#64
    (e₁ + 1) (setWinner ms s₂)
  some (complete (s₃.goto PhaseCode.priority))

/-- ARBITRATION (phase code 0001). -/
def execArbitration (s : State) : Host.Outcome State Fault Refusal :=
  finishStep s (arbitrationPhase s)

/-- Rule R142: the transmitter after the priority scan. -/
def replaceWinner (ms : List Nat) (s : State) : State :=
  match ms with
  | [] => s
  | winner :: _ => { s with tx := BitVec.ofNat 5 winner }

/-- Rule R140: the phase operation. Without a transmitter nothing is resolved. -/
def priorityPhase (s : State) : Option State := do
  let (e₁, levels, s₂) ← arbiterCell s
  let s₄ :=
    if s.txValid then
      let ms := priorityMatches s.cfg.n levels s.tx.toNat
      let s₃ := replaceWinner ms s₂
      emitFrame .priorityArbitration (priorityFlags ms) s.mark e₁
        (nodeVector ms ||| s₃.tx.setWidth 64) 0#64 (e₁ + 1) s₃
    else
      emitFrame .priorityArbitration Flag.noWinner s.mark e₁ 0#64 0#64 (e₁ + 1) s₂
  some (complete (s₄.goto PhaseCode.reserved))

/-- PRIORITY (phase code 0010). -/
def execPriority (s : State) : Host.Outcome State Fault Refusal := finishStep s (priorityPhase s)

end Sys2Proof.Machine
end

