-- ==== Sys2Proof/Machine/Control.lean ====
section
/-! DEFINITION. CONTROL0, CONTROL1 and the transaction outcome (spec/43_control.md rules R180 to
R188). -/

namespace Sys2Proof.Machine

open Sys2Proof

/-- One control bit cell: the bit is read from the bus tap at the latch edge, and both interruption
results are discarded (rules R180 and R185). -/
def controlCell (s : State) : Option (Nat × Level × State) := do
  let (e₁, _, s₁) ← clkEdge s
  let b ← bitAt s₁ e₁
  let (_, _, s₂) ← clkEdge (s₁.latch e₁)
  some (e₁, b, s₂)

/-- Rule R180: the phase operation. -/
def control0Phase (s : State) : Option State := do
  let (e₁, b, s₂) ← controlCell s
  let s₃ := emitFrame .controlBit0 (noWinnerFlag s) s.mark e₁ (bitField 64 b) 0#64 (e₁ + 1)
    { s₂ with cb0 := b }
  some (complete (s₃.goto PhaseCode.control1))

/-- CONTROL0 (phase code 0110). -/
def execControl0 (s : State) : Host.Outcome State Fault Refusal := finishStep s (control0Phase s)

/-- Rule R185: the phase operation. The silent edge back to idle is consumed before the frame is
emitted. -/
def control1Phase (s : State) : Option State := do
  let (e₁, b, s₂) ← controlCell s
  let (e₃, _, s₃) ← clkEdge s₂
  let s₄ := emitFrame .controlBit1 (noWinnerFlag s) s.mark e₁ (bitField 64 b) 0#64 (e₃ + 1) s₃
  some (complete (s₄.goto PhaseCode.request))

/-- CONTROL1 (phase code 0111). -/
def execControl1 (s : State) : Host.Outcome State Fault Refusal := finishStep s (control1Phase s)

/-! ## The transaction outcome -/

/-- Rule R188: the four outcomes. -/
inductive TransactionOutcome where
  | endOfMessageAck | endOfMessageNak | errorNode | errorInterrupted
deriving DecidableEq, Repr

/-- Rule R188: the outcome of the two control bits. -/
def transactionOutcome (cb0 cb1 : Level) : TransactionOutcome :=
  match cb0, cb1 with
  | true, false => .endOfMessageAck
  | true, true => .endOfMessageNak
  | false, true => .errorNode
  | false, false => .errorInterrupted

/-- Rule R188: what a consumer computes from a transaction's two control-bit frames. -/
def outcomeOfFrames (f0 f1 : Frame) : TransactionOutcome :=
  transactionOutcome (f0.valuePrimary.getLsbD 0) (f1.valuePrimary.getLsbD 0)

end Sys2Proof.Machine
end

