-- ==== Sys2Proof/Machine/Framing.lean ====
section
/-! DEFINITION. RESERVED, ADDRESS and DATA (spec/42_framing.md rules R150 to R175). -/

namespace Sys2Proof.Machine

open Sys2Proof

/-! ## RESERVED -/

/-- Rule R150: the phase operation. A `DAT_K` edge strictly between the latch and the drive edge cuts
the cell just before it (rule R151). -/
def reservedPhase (s : State) : Option State := do
  let (e₁, _, s₁) ← clkEdge s
  let s₂ := s₁.latch e₁
  let e₂ ← peekClkEdge s₂
  let tap := s₂.dat s₂.lastNode
  let pos := s₂.datPos s₂.lastNode
  let early ← count s₂.horizon tap pos (e₂ - 1)
  if 0 < early then
    let d ← nextEdge s₂.horizon tap pos
    let (s₃, _) ← advanceAllTo (d - 1) s₂
    some (complete
      ((emitFrame .reservedBit (noWinnerFlag s) s.mark (d - 1) 0#64 0#64 d s₃).goto
        PhaseCode.address))
  else
    let (_, _, s₃) ← clkEdge s₂
    some (complete
      ((emitFrame .reservedBit (noWinnerFlag s) s.mark e₁ 0#64 0#64 (e₁ + 1) s₃).goto
        PhaseCode.address))

/-- RESERVED (phase code 0011). -/
def execReserved (s : State) : Host.Outcome State Fault Refusal := finishStep s (reservedPhase s)

/-! ## ADDRESS -/

/-- Rule R163: the Address frame, ending at the last latch. -/
def commitAddress (v : BitVec 32) (s : State) : State :=
  complete
    ((emitFrame .address (noWinnerFlag s) s.mark s.lastLatch (v.setWidth 64) 1#64
      (s.lastLatch + 1) s).goto PhaseCode.data)

/-- Rule R160, the loop: `k` bits are latched in `v`, and `bits` are wanted. An interruption at the
drive edge after the last bit is left pending; any other faults (rule R161). The width is decided
after the 8th bit (rule R162). `fuel` bounds the cells; 32 never run out. -/
def addressLoop : (fuel k bits : Nat) → BitVec 32 → State → Option State
  | 0, _, _, v, s => some (commitAddress v s)
  | fuel + 1, k, bits, v, s =>
    if k < bits then do
      let (e₁, i₁, s₁) ← clkEdge s
      if i₁ then some (raiseFault .addrInterrupt e₁ s₁)
      else do
        let b ← bitAt s₁ e₁
        let v' := shiftIn v b
        let s₂ := s₁.latch e₁
        let bits' := if k + 1 = 8 ∧ longMarker v' = true then 32 else bits
        let (e₂, i₂, s₃) ← clkEdge s₂
        if i₂ then
          if k + 1 = bits' then addressLoop fuel (k + 1) bits' v' (s₃.setPending e₂)
          else some (raiseFault .addrInterrupt e₂ s₃)
        else addressLoop fuel (k + 1) bits' v' s₃
    else some (commitAddress v s)

/-- Rule R160: the phase operation. -/
def addressPhase (s : State) : Option State := addressLoop 32 0 8 0#32 s

/-- ADDRESS (phase code 0100). -/
def execAddress (s : State) : Host.Outcome State Fault Refusal := finishStep s (addressPhase s)

/-! ## DATA -/

/-- Rules R166 and R169: the Interrupt frame up to `stop`, after which the data run is over. -/
def commitInterrupt (stop : Nat) (s : State) : State :=
  complete
    ((emitFrame .interrupt (noWinnerFlag s) (s.lastLatch + 1) stop 0#64 0#64 (stop + 1) s).goto
      PhaseCode.control0)

/-- Rule R168: the Data frame of a whole byte, ending at its last latch. `phase` is not written. -/
def commitData (v : BitVec 8) (s : State) : State :=
  complete
    (emitFrame .data (noWinnerFlag s) s.mark s.lastLatch (v.setWidth 64) 1#64
      (s.lastLatch + 1) s)

/-- Rule R165, the loop over the bits of a byte of which `left` are still to be latched. -/
def dataLoop : (left : Nat) → BitVec 8 → State → Option State
  | 0, v, s => some (commitData v s)
  | left + 1, v, s => do
    let (e₁, i₁, s₁) ← clkEdge s
    if i₁ then some (commitInterrupt e₁ s₁)
    else do
      let b ← bitAt s₁ e₁
      let v' := shiftIn v b
      let s₂ := s₁.latch e₁
      let (e₂, i₂, s₃) ← clkEdge s₂
      if i₂ then
        if left = 0 then some (commitData v' (s₃.setPending e₂))
        else some (commitInterrupt e₂ s₃)
      else dataLoop left v' s₃

/-- Rule R165: the phase operation. A pending interruption is emitted without moving a cursor
(rule R167). -/
def dataPhase (s : State) : Option State :=
  if s.intPending then some { commitInterrupt s.intEnd s with intPending := false }
  else dataLoop 8 0#8 s

/-- DATA (phase code 0101). -/
def execData (s : State) : Host.Outcome State Fault Refusal := finishStep s (dataPhase s)

end Sys2Proof.Machine
end

