-- ==== Sys2Proof/Machine/Request.lean ====
section
/-! DEFINITION. REQUEST (spec/40_request.md rules R110 to R116). -/

namespace Sys2Proof.Machine

open Sys2Proof

/-- Rule R110, the probe of one node whose DAT cursor is at `pos`: a participating node's cursor goes
to its fall, another node gets the sentinel `edge + 1` (rule R111). -/
def probeNode (s : State) (edge : Nat) (i : Nat) (nd : NodeCursors) :
    Option (Probe × NodeCursors) := do
  let part ← wouldTransitionWithin s.horizon (s.dat i) nd.datPos (edge - nd.datPos)
  if part then
    let fall ← advanceToNextEdge s.horizon (s.dat i) nd.datPos
    some ({ part := true, fall := fall }, { nd with datPos := fall })
  else some ({ part := false, fall := edge + 1 }, nd)

/-- Rule R110, the loop over the nodes from ring index `i` on. -/
def probeNodes (s : State) (edge : Nat) :
    Nat → List NodeCursors → Option (List Probe × List NodeCursors)
  | _, [] => some ([], [])
  | i, nd :: rest => do
    let (p, nd') ← probeNode s edge i nd
    let (ps, rest') ← probeNodes s edge (i + 1) rest
    some (p :: ps, nd' :: rest')

/-- Moves the reference cursor `clk_pos[K]` to `edge` (rules R66 and R110). -/
def setReferenceClk (edge : Nat) (s : State) : State :=
  s.setNodes (s.nodes.modify s.lastNode (fun nd => { nd with clkPos := edge }))

/-- Rule R110: the phase operation. -/
def requestPhase (s : State) : Option State := do
  let edge ← peekClkEdge s
  let s₁ := setReferenceClk edge s
  let (probes, nodes) ← probeNodes s₁ edge 0 s₁.nodes
  let (s₂, _) ← advanceAllTo edge (s₁.setNodes nodes)
  let vp := nodeVector (requesters s.cfg.n probes)
  let s₃ := emitFrame .request (requestFlags s) s.mark edge vp 0#64 (edge + 1) s₂
  some (complete ({ s₃ with firstReq := false, txValid := false }.goto PhaseCode.arbitration))

/-- REQUEST (phase code 0000). -/
def execRequest (s : State) : Host.Outcome State Fault Refusal := finishStep s (requestPhase s)

end Sys2Proof.Machine
end

