-- ==== Sys2Proof/Machine/Terminal.lean ====
section
/-! DEFINITION. The phases that execute no phase operation: HALTED, FAULT and the reserved codes
(spec/60_exceptions.md rules R204 and R210, spec/30_encoding.md rule R81). -/

namespace Sys2Proof.Machine

open Sys2Proof

/-- HALTED (phase code 1000): no step (rule R210). -/
def execHalted (s : State) : Host.Outcome State Fault Refusal := noStep s

/-- FAULT (phase code 1001): no step (rule R204). -/
def execFault (s : State) : Host.Outcome State Fault Refusal := noStep s

/-- Rule R81: the fault of a reserved phase code. -/
def badState (s : State) : Host.Outcome State Fault Refusal :=
  .next (raiseFault .badState (s.clkPos s.lastNode) s)

/-- Phase codes 1010 and 1011 (rule R81). The fault does not record which code was found. -/
def execReservedPhase101x (_code : BitVec 4) (s : State) : Host.Outcome State Fault Refusal :=
  badState s

/-- Phase codes 1100 to 1111 (rule R81). The fault does not record which code was found. -/
def execReservedPhase11xx (_code : BitVec 4) (s : State) : Host.Outcome State Fault Refusal :=
  badState s

end Sys2Proof.Machine
end

