-- ==== Sys2Proof/Machine/Dispatch.lean ====
section
/-! DEFINITION. The dispatch of spec/10_state.md rule R23: one meaning per operation. -/

namespace Sys2Proof.Machine

open Sys2Proof

def exec (i : Instr) (s : State) : Host.Outcome State Fault Refusal :=
  match i with
  | .request => Sys2Proof.Machine.execRequest s
  | .arbitration => Sys2Proof.Machine.execArbitration s
  | .priority => Sys2Proof.Machine.execPriority s
  | .reserved => Sys2Proof.Machine.execReserved s
  | .address => Sys2Proof.Machine.execAddress s
  | .data => Sys2Proof.Machine.execData s
  | .control0 => Sys2Proof.Machine.execControl0 s
  | .control1 => Sys2Proof.Machine.execControl1 s
  | .halted => Sys2Proof.Machine.execHalted s
  | .fault => Sys2Proof.Machine.execFault s
  | .reservedPhase101x code => Sys2Proof.Machine.execReservedPhase101x code s
  | .reservedPhase11xx code => Sys2Proof.Machine.execReservedPhase11xx code s

end Sys2Proof.Machine
end

