-- ==== Sys2Proof/Machine/Step.lean ====
section
/-! DEFINITION. One step (spec/60_exceptions.md rule R209, spec/10_state.md rule R23). -/

namespace Sys2Proof.Machine

open Sys2Proof

/-- Rule R209: a step samples `stop`, then executes the operation `phase` selects. -/
def step (s : State) : Host.Outcome State Fault Refusal :=
  if stopTakes s (fetch s) then .next (enterHalted s)
  else exec (fetch s) s

/-- The state whose very next step executes the operation whose bits are `w`. -/
def State.withFetchWord (s : State) (_nbits w : Nat) : State := placeFetchWord s w

end Sys2Proof.Machine
end

