-- ==== Sys2Proof/Machine/HostPort.lean ====
section
/-! DEFINITION. What the host does between steps (spec/60_exceptions.md rule R215) and what it reads
(rule R208). An action outside the admitted inputs is refused
(spec/93_implementation_defined.md I23 to I26). -/

namespace Sys2Proof.Machine

open Sys2Proof

/-- Rules R230 to R232: reset with a new configuration and capture. `stop` belongs to the host and is
not cleared. -/
def hostReset (cfg : Config) (cap : Capture) (s : State) : Host.Outcome State Fault Refusal :=
  if cfg.wf = false then .refused .configNotAdmitted
  else if cap.admittedFor cfg = false then .refused .captureNotAdmitted
  else .next (resetWith cfg cap s.stop)

/-- Rule R56: the host extends the capture. -/
def hostExtend (horizon' : Nat) (more : List (List Nat)) (s : State) :
    Host.Outcome State Fault Refusal :=
  if s.capture.mayExtend horizon' more then
    .next { s with capture := s.capture.extend horizon' more }
  else .refused .captureChangeNotAdmitted

/-- Rule R56: the host says that no further sample will be supplied. -/
def hostSetFinal (s : State) : Host.Outcome State Fault Refusal :=
  if s.capture.final then .refused .captureChangeNotAdmitted
  else .next { s with capture := { s.capture with final := true } }

/-- Rule R209: the host drives `stop`. -/
def hostSetStop (stop : Bool) (s : State) : State := { s with stop := stop }

/-! ## Outputs -/

/-- Rule R208: what the host can read between steps. -/
structure Outputs where
  sink : List Frame
  phase : BitVec 4
  errCode : ErrCode
  errSample : Nat
  progress : Nat
  outcome : StepOutcome
deriving DecidableEq, Repr

/-- Rule R214: the progress output. -/
def State.progress (s : State) : Nat := s.clkPos s.lastNode

/-- Rule R208: the outputs of a state. -/
def State.outputs (s : State) : Outputs :=
  { sink := s.sink
    phase := s.phase
    errCode := s.errCode
    errSample := s.errSample
    progress := s.progress
    outcome := s.outcome }

/-- Rule R216: the run has ended, in FAULT, in HALTED, or by a step that held while the capture was
final. A host action never ends a run, and a hold on a capture that was not final does not. -/
def State.ended (s : State) : Bool :=
  s.phase == PhaseCode.fault || s.phase == PhaseCode.halted || s.atEnd

end Sys2Proof.Machine
end

