-- ==== Sys2Proof/Safety.lean ====
section
/-! DEFINITION. The terms the claims use: the lock-step of the cursors, the edges and cells ahead of
it, the value of a run of bits, the format and order of frames, and what a run is. -/

namespace Sys2Proof.Machine

open Sys2Proof

/-! ## Lock-step and the edges ahead -/

/-- Rule R38: every cursor of every node holds sample `p`. -/
abbrev LockStep (s : State) (p : Nat) : Prop :=
  s.nodes = List.replicate s.cfg.n { clkPos := p, datPos := p }

/-- The next reference-clock edge after sample `p` (rule R63). -/
def refEdge (s : State) (p : Nat) : Option Nat :=
  nextEdge s.horizon (s.clk s.lastNode) p

/-- Rule R96: some DAT has more transitions in `(p, e]` than the threshold. -/
def interruptedIn (s : State) (p e : Nat) : Bool :=
  (List.range s.cfg.n).any (fun i => decide (s.cfg.intThreshold < (s.dat i).countIn p e))

/-- The state `s` with every cursor at sample `p`. -/
def State.allAt (s : State) (p : Nat) : State :=
  s.setNodes (List.replicate s.cfg.n { clkPos := p, datPos := p })

/-- Rule R90: a bit cell, its latch edge and its drive edge. -/
structure BitCell where
  latch : Nat
  drive : Nat
deriving DecidableEq, Repr

/-- The next `m` bit cells after sample `p`, when the capture holds all their edges. -/
def cellsFrom (s : State) : Nat → Nat → Option (List BitCell)
  | _, 0 => some []
  | p, m + 1 => do
    let e₁ ← refEdge s p
    let e₂ ← refEdge s e₁
    let rest ← cellsFrom s e₂ m
    some ({ latch := e₁, drive := e₂ } :: rest)

/-- No advance through the cells, from sample `p` on, reports an interruption. -/
def quietCells (s : State) : Nat → List BitCell → Bool
  | _, [] => true
  | p, c :: rest =>
    !interruptedIn s p c.latch && !interruptedIn s c.latch c.drive && quietCells s c.drive rest

/-- The same but for the drive edge of the last cell, which may report one. -/
def quietButLastDrive (s : State) : Nat → List BitCell → Bool
  | _, [] => true
  | p, [c] => !interruptedIn s p c.latch
  | p, c :: rest =>
    !interruptedIn s p c.latch && !interruptedIn s c.latch c.drive &&
      quietButLastDrive s c.drive rest

/-- The drive edge of the last cell, or `p` when there is none. -/
def lastDrive (p : Nat) (cells : List BitCell) : Nat :=
  (cells.map BitCell.drive).getLastD p

/-- The latch edge of the last cell, or `l` when there is none. -/
def lastLatchOf (l : Nat) (cells : List BitCell) : Nat :=
  (cells.map BitCell.latch).getLastD l

/-- The level of the bus tap at a sample (rule R65). -/
def tapLevel (s : State) (e : Nat) : Level := (s.dat s.lastNode).levelAt e

/-- The bits the cells latch, the first one first. -/
def latchedBits (s : State) (cells : List BitCell) : List Level :=
  cells.map (fun c => tapLevel s c.latch)

/-- Rules R92 and R93: the sum of `b_k << (m - k)` over `m` bits `b_1 .. b_m`. -/
def msbValue : List Level → Nat
  | [] => 0
  | b :: rest => (b.toNat <<< rest.length) + msbValue rest

/-- Rules R91 and R162: how many bits an address has that begins with these; 32 exactly when the first
eight have top nibble 0xF. -/
def addressWidth (bits : List Level) : Nat :=
  if 8 ≤ bits.length ∧ bits.take 4 = [HIGH, HIGH, HIGH, HIGH] then 32 else 8

/-! ## Requests, in the spec's words -/

/-- Rule R111: node `i` participates in the window `(p, e]`. -/
def participates (s : State) (p e : Nat) (i : Nat) : Bool := decide (0 < (s.dat i).countIn p e)

/-- Rule R111: the fall sample of node `i`, the first transition in the window `(p, e]`, or the
sentinel `e + 1`. -/
def fallSample (s : State) (p e : Nat) (i : Nat) : Nat :=
  match (s.dat i).trans.find? (fun t => decide (p < t) && decide (t ≤ e)) with
  | some t => t
  | none => e + 1

/-- Rule R112: whether node `i` is requesting. -/
def isRequesting (s : State) (p e : Nat) (i : Nat) : Bool :=
  match i with
  | 0 => participates s p e 0
  | j + 1 => decide (fallSample s p e (j + 1) < fallSample s p e j)

/-- Rule R113: the requesting vector. -/
def requestVector (s : State) (p e : Nat) : BitVec 64 :=
  nodeVector ((List.range s.cfg.n).filter (isRequesting s p e))

/-! ## Frames -/

/-- Rules R85 to R88: what each kind's fields may hold on a bus of `n` nodes. -/
def frameFormat (n : Nat) (f : Frame) : Bool :=
  match f.kind with
  | .request =>
    (f.flags == Flag.none || f.flags == Flag.requestQuirk) &&
      f.valuePrimary.extractLsb' 0 32 == 0#32 && (f.valuePrimary >>> (32 + n)) == 0#64 &&
      f.valueSecondary == 0#64
  | .arbitration =>
    (f.flags == Flag.none || f.flags == Flag.multipleWinners || f.flags == Flag.noWinner) &&
      decide ((f.valuePrimary.extractLsb' 0 32).toNat < n) &&
      (f.valuePrimary >>> (32 + n)) == 0#64 && f.valueSecondary == 0#64
  | .priorityArbitration =>
    (f.flags == Flag.none || f.flags == Flag.multipleWinners ||
        (f.flags == Flag.noWinner && f.valuePrimary == 0#64)) &&
      decide ((f.valuePrimary.extractLsb' 0 32).toNat < n) &&
      (f.valuePrimary >>> (32 + n)) == 0#64 && f.valueSecondary == 0#64
  | .reservedBit =>
    (f.flags == Flag.none || f.flags == Flag.noWinner) && f.valuePrimary == 0#64 &&
      f.valueSecondary == 0#64
  | .address =>
    (f.flags == Flag.none || f.flags == Flag.noWinner) && (f.valuePrimary >>> 32) == 0#64 &&
      f.valueSecondary == 1#64
  | .data =>
    (f.flags == Flag.none || f.flags == Flag.noWinner) && (f.valuePrimary >>> 8) == 0#64 &&
      f.valueSecondary == 1#64
  | .interrupt =>
    (f.flags == Flag.none || f.flags == Flag.noWinner) && f.valuePrimary == 0#64 &&
      f.valueSecondary == 0#64
  | .controlBit0 =>
    (f.flags == Flag.none || f.flags == Flag.noWinner) && (f.valuePrimary >>> 1) == 0#64 &&
      f.valueSecondary == 0#64
  | .controlBit1 =>
    (f.flags == Flag.none || f.flags == Flag.noWinner) && (f.valuePrimary >>> 1) == 0#64 &&
      f.valueSecondary == 0#64

/-- Rule R69: every frame is non-empty, and each starts after the end of those before it. -/
def framesOrdered (fs : List Frame) : Prop :=
  (∀ f ∈ fs, f.startSample ≤ f.endSample) ∧
    fs.Pairwise (fun a b => a.endSample < b.startSample)

/-- Rules R24 and R89: the phase after a frame of this kind was emitted in phase `ph`; none when that
phase emits no such frame. -/
def phaseAfter (ph : BitVec 4) (k : FrameKind) : Option (BitVec 4) :=
  match k with
  | .request => if ph = PhaseCode.request then some PhaseCode.arbitration else none
  | .arbitration => if ph = PhaseCode.arbitration then some PhaseCode.priority else none
  | .priorityArbitration => if ph = PhaseCode.priority then some PhaseCode.reserved else none
  | .reservedBit => if ph = PhaseCode.reserved then some PhaseCode.address else none
  | .address => if ph = PhaseCode.address then some PhaseCode.data else none
  | .data => if ph = PhaseCode.data then some PhaseCode.data else none
  | .interrupt => if ph = PhaseCode.data then some PhaseCode.control0 else none
  | .controlBit0 => if ph = PhaseCode.control0 then some PhaseCode.control1 else none
  | .controlBit1 => if ph = PhaseCode.control1 then some PhaseCode.request else none

/-- The phase a session is in after its frames, read off the frames alone; none when they are not
those of the transaction grammar (rule R89). -/
def phaseOfFrames : BitVec 4 → List Frame → Option (BitVec 4)
  | ph, [] => some ph
  | ph, f :: rest =>
    match phaseAfter ph f.kind with
    | none => none
    | some ph' => phaseOfFrames ph' rest

/-- Rule R114: the first Request frame carries no quirk flag and every later one does. `seen` says
whether a Request frame came before the list. -/
def quirkMarked : Bool → List Frame → Bool
  | _, [] => true
  | seen, f :: rest =>
    if f.kind = .request then
      f.flags == (if seen then Flag.requestQuirk else Flag.none) && quirkMarked true rest
    else quirkMarked seen rest

/-! ## Invariants -/

/-- What every session keeps: an admitted configuration and capture, the lock-step of rule R38, a
legal phase (rules R80 and R81), the fault registers in step with `phase` (rules R202 and R204), the
places of `mark`, `last_latch` and a pending interruption behind the cursors (rules R29 to R31), and
a run ended by a hold only on a final capture (rule R216). -/
structure SessionInv (s : State) : Prop where
  config : s.cfg.wf = true
  capture : s.capture.admittedFor s.cfg = true
  lockStep : LockStep s s.progress
  inCapture : s.progress ≤ s.horizon
  legalPhase : s.phase ≤ PhaseCode.fault
  faulted : s.phase = PhaseCode.fault ↔ s.errCode ≠ .none
  noFault : s.errCode = .none → s.errSample = 0
  transmitter : s.tx.toNat < s.cfg.n
  markBehind : s.mark ≤ s.progress + 1
  latchBehind : s.lastLatch ≤ s.progress
  intEndBehind : s.intEnd ≤ s.progress
  errBehind : s.errSample ≤ s.progress
  dataMark : s.phase = PhaseCode.data → s.mark = s.lastLatch + 1
  pending : s.intPending = true →
    (s.phase = PhaseCode.data ∨ s.phase = PhaseCode.halted) ∧
      s.lastLatch < s.intEnd
  endFinal : s.atEnd = true → s.capture.final = true

/-- What the frame sink keeps (rules R69, R85 to R88, R89, R114 and R28). -/
structure SinkInv (s : State) : Prop where
  ordered : framesOrdered s.sink
  behindMark : ∀ f ∈ s.sink, f.endSample < s.mark
  formatted : ∀ f ∈ s.sink, frameFormat s.cfg.n f = true
  grammar : ∃ ph, phaseOfFrames PhaseCode.request s.sink = some ph ∧
    (s.phase = ph ∨ s.phase = PhaseCode.halted ∨ s.phase = PhaseCode.fault)
  firstRequest : s.firstReq = true ↔ ∀ f ∈ s.sink, f.kind ≠ .request
  quirk : quirkMarked false s.sink = true

/-! ## Runs -/

/-- The state after `k` steps, in which a step that answers no next state leaves the state. -/
def runSteps : Nat → State → State
  | 0, s => s
  | k + 1, s =>
    match step s with
    | .next t => runSteps k t
    | .fault _ => s
    | .refused _ => s

/-- The states a session can be in: after a reset the host may apply, and then any steps and host
actions in any order (rule R215). -/
inductive InSession : State → Prop
  | reset (cfg : Config) (cap : Capture) (before s : State) :
      hostReset cfg cap before = .next s → InSession s
  | step (s t : State) : InSession s → step s = .next t → InSession t
  | extend (horizon' : Nat) (more : List (List Nat)) (s t : State) :
      InSession s → hostExtend horizon' more s = .next t → InSession t
  | final (s t : State) : InSession s → hostSetFinal s = .next t → InSession t
  | stop (b : Bool) (s : State) : InSession s → InSession (hostSetStop b s)

/-- Rule R56, in any number of extensions: `cap'` knows more samples than `cap` and the same ones up to
`cap`'s horizon. -/
def Extends (cap cap' : Capture) : Prop :=
  ∃ more : List (List Nat),
    cap.horizon ≤ cap'.horizon ∧ more.length = cap.signals.length ∧
      (∀ ts ∈ more, ∀ t ∈ ts, cap.horizon < t) ∧
      cap'.signals = cap.signals.zipWith Channel.append more

/-- The state with another capture. -/
def State.withCapture (s : State) (cap : Capture) : State := { s with capture := cap }

end Sys2Proof.Machine
end

