-- ==== Sys2Proof/Certificates/Slice0/Obligations.lean ====
section
/-! DEFINITION. The statements for the provers. Each docstring names the rules of spec/ a statement
formalises; where a clause is the model's own choice it says so and names the log entry. An
equation `exec i s = .next t` in which `t` is written as an update of `s` says the whole frame: every
field the update does not name, the capture among them, is as before. A step that holds writes two of
the model's own fields, `outcome` (log 4) and `atEnd` (log 24), and no register. -/

open Sys2Proof Sys2Proof.Machine

/-! ## Encodings -/

/-- Rules R80, R81 and R103; the layout in a byte is the model's (log 12). The decoder accepts exactly
the byte of a well-formed operation, reads that operation, and leaves what follows. -/
def Obligations.DecoderAcceptsExactlyTheEncodings : Prop :=
  ∀ (bs rest : List Byte) (i : Instr),
    decodeBytes bs = .ok (i, rest) ↔ i.wf = true ∧ bs = encode i ++ rest

/-- Rule R80: a few codes, written out from its table, select their operations. -/
def Obligations.PhaseCodesSelectOperations : Prop :=
  decode 0b0000#4 = .request ∧ decode 0b0010#4 = .priority ∧ decode 0b0101#4 = .data ∧
    decode 0b0111#4 = .control1 ∧ decode 0b1001#4 = .fault ∧
    decode 0b1011#4 = .reservedPhase101x 0b1011#4

/-- Rules R82 to R84. Each field of a frame stands at the bits of its word that rule R82's table gives,
the kind as the code of rule R83. Reading the word back, which is the model's own inverse (log 20),
loses no field, and a word with one of the kind codes 9 to 15 stands for no frame. -/
def Obligations.FrameWordRoundTrip : Prop :=
  (∀ f : Frame, f.startSample < 2 ^ 64 → f.endSample < 2 ^ 64 →
    (f.kind, f.word.extractLsb' 0 4) ∈
        [(.request, 0#4), (.arbitration, 1#4), (.priorityArbitration, 2#4), (.reservedBit, 3#4),
          (.address, 4#4), (.data, 5#4), (.interrupt, 6#4), (.controlBit0, 7#4),
          (.controlBit1, 8#4)] ∧
      f.word.extractLsb' 4 8 = f.flags ∧
      (f.word.extractLsb' 12 64).toNat = f.startSample ∧
      (f.word.extractLsb' 76 64).toNat = f.endSample ∧
      f.word.extractLsb' 140 64 = f.valuePrimary ∧
      f.word.extractLsb' 204 64 = f.valueSecondary ∧
      Frame.ofWord f.word = some f) ∧
  ∀ w : BitVec 268, 9#4 ≤ w.extractLsb' 0 4 → Frame.ofWord w = none

/-! ## The step -/

/-- Rules R23 and R209. When the byte of the phase register decodes to an operation and `stop` does not
take the step, the step is that operation. -/
def Obligations.StepRunsTheDecodedOperation : Prop :=
  ∀ (s : State) (i : Instr),
    decodeBytes [s.phase.setWidth 8] = .ok (i, []) →
    (s.stop = false ∨ i = .halted ∨ i = .fault) →
    step s = exec i s

/-- Rule R209. HALTED and FAULT have no step; otherwise an asserted `stop` sets HALTED and changes
nothing else; otherwise the step dispatches on `phase`. That a no-step is a next state (log 6), that
the step that sees `stop` records the outcome `next` (log 13), and the `outcome` field itself (log 4,
the output of rule R208) are the model's. -/
def Obligations.StopIsSampledFirst : Prop :=
  ∀ s : State,
    (s.phase = 0b1000#4 ∨ s.phase = 0b1001#4 → step s = .next { s with outcome := .noStep }) ∧
    (s.phase ≠ 0b1000#4 → s.phase ≠ 0b1001#4 → s.stop = true →
      step s = .next { s with phase := 0b1000#4, outcome := .next }) ∧
    (s.phase ≠ 0b1000#4 → s.phase ≠ 0b1001#4 → s.stop = false →
      step s = exec (decode s.phase) s)

/-- Rules R204 and R210, the operations themselves: HALTED and FAULT execute nothing. That this is a
next state in which only the output `outcome` differs is the model's form (log 6). -/
def Obligations.HaltedAndFaultExecuteNothing : Prop :=
  ∀ s : State,
    exec .halted s = .next { s with outcome := .noStep } ∧
      exec .fault s = .next { s with outcome := .noStep }

/-- Rules R81, R202 and R203: a reserved phase code faults with `ERR_BAD_STATE` at `clk_pos[K]`, and
nothing else changes. -/
def Obligations.ReservedCodesFault : Prop :=
  ∀ (s : State) (code : BitVec 4),
    (code &&& 0b1110#4 = 0b1010#4 →
      exec (.reservedPhase101x code) s = .next
        { s with
          phase := 0b1001#4
          errCode := .badState
          errSample := s.clkPos (s.cfg.n - 1)
          outcome := .fault }) ∧
    (code &&& 0b1100#4 = 0b1100#4 →
      exec (.reservedPhase11xx code) s = .next
        { s with
          phase := 0b1001#4
          errCode := .badState
          errSample := s.clkPos (s.cfg.n - 1)
          outcome := .fault })

/-- Rule R81: a step that finds a code 10 to 15 in the register, with `stop` low, raises that
fault. -/
def Obligations.StepOnReservedCodeFaults : Prop :=
  ∀ s : State, 0b1010#4 ≤ s.phase → s.stop = false →
    step s = .next
      { s with
        phase := 0b1001#4
        errCode := .badState
        errSample := s.clkPos (s.cfg.n - 1)
        outcome := .fault }

/-- Rule R14. Every step has exactly one of the four outcomes: "no step" exactly in HALTED and FAULT, and
"fault" exactly when it enters FAULT. That each of the four is a next state of the model, told apart
by the recorded outcome, is the model's form (log 5 for a hold, log 6 for a fault and a no-step). -/
def Obligations.EveryStepHasOneOfFourOutcomes : Prop :=
  ∀ s : State, ∃ t, step s = .next t ∧ t.outcome ≠ .notAttempted ∧
    (t.outcome = .noStep ↔ s.phase = 0b1000#4 ∨ s.phase = 0b1001#4) ∧
    (t.outcome = .fault ↔ s.phase ≠ 0b1001#4 ∧ t.phase = 0b1001#4)

/-- Rules R15 and R55. A held operation changes no register, no input and no frame: the state differs in
the output `outcome` and in `atEnd`, which records whether the capture was final (logs 5 and 24). -/
def Obligations.HeldOperationChangesNothing : Prop :=
  ∀ (i : Instr) (s t : State), exec i s = .next t → t.outcome = .hold →
    t = { s with outcome := .hold, atEnd := s.capture.final }

/-- Rules R53 and R55. In lock-step, with no reference-clock edge left in the capture, every phase
operation holds, but for a DATA step that has an interruption pending. -/
def Obligations.OperationsHoldWithoutClockEdge : Prop :=
  ∀ (s : State) (p : Nat) (i : Instr),
    s.cfg.wf = true → LockStep s p → refEdge s p = none →
    (i = .request ∨ i = .arbitration ∨ i = .priority ∨ i = .reserved ∨ i = .address ∨
      (i = .data ∧ s.intPending = false) ∨ i = .control0 ∨ i = .control1) →
    exec i s = .next { s with outcome := .hold, atEnd := s.capture.final }

/-- Rules R15, R55 and R234. In lock-step, with the latch edge of a cell in the capture and its drive
edge not, an operation of one cell holds. -/
def Obligations.OperationsHoldWithoutDriveEdge : Prop :=
  ∀ (s : State) (p e : Nat) (i : Instr),
    s.cfg.wf = true → LockStep s p → refEdge s p = some e → refEdge s e = none →
    (i = .arbitration ∨ i = .priority ∨ i = .reserved ∨ i = .control0 ∨ i = .control1) →
    exec i s = .next { s with outcome := .hold, atEnd := s.capture.final }

/-- Rules R15, R55 and R164 (d). When the edges run out inside an address or a data byte with no
interruption before, the whole step holds and nothing of it is kept. -/
def Obligations.BitLoopsHoldMidway : Prop :=
  ∀ (s : State) (p : Nat) (cells : List BitCell),
    s.cfg.wf = true → LockStep s p → cellsFrom s p cells.length = some cells →
    quietCells s p cells = true →
    (refEdge s (lastDrive p cells) = none ∨
      ∃ e, refEdge s (lastDrive p cells) = some e ∧
        interruptedIn s (lastDrive p cells) e = false ∧ refEdge s e = none) →
    (cells.length < addressWidth (latchedBits s cells) →
      exec .address s = .next { s with outcome := .hold, atEnd := s.capture.final }) ∧
    (cells.length < 8 → s.intPending = false →
      exec .data s = .next { s with outcome := .hold, atEnd := s.capture.final })

/-- Rule R24. A completed step goes to the next phase of the cycle, or stays in DATA after one more
Data frame, or, when `stop` was seen (rule R209), goes to HALTED; a fault is raised only in ADDRESS or
on a reserved code (rule R202); any other step leaves `phase` (rule R14). That the step that sees
`stop` counts as a completed one is the model's reading (log 13). -/
def Obligations.PhaseFollowsTheCycle : Prop :=
  ∀ s t : State, step s = .next t →
    (t.outcome = .next →
      (s.stop = true ∧ t.phase = 0b1000#4) ∨
      (s.stop = false ∧ s.phase ≤ 0b0111#4 ∧
        (t.phase = (s.phase + 1#4) &&& 0b0111#4 ∨
          (s.phase = 0b0101#4 ∧ t.phase = s.phase ∧
            ∃ f, t.sink = s.sink ++ [f] ∧ f.kind = .data)))) ∧
    (t.outcome = .fault →
      s.stop = false ∧ (s.phase = 0b0100#4 ∨ 0b1010#4 ≤ s.phase) ∧ t.phase = 0b1001#4) ∧
    (t.outcome = .hold ∨ t.outcome = .noStep → t.phase = s.phase)

/-- Rule R203. A step that faults keeps its cursor advances and `last_latch`, writes `phase`,
`err_code` and `err_sample`, and changes nothing else; in ADDRESS the code is `ERR_ADDR_INTERRUPT`,
on a reserved code `ERR_BAD_STATE`. -/
def Obligations.FaultEntryFrame : Prop :=
  ∀ s t : State, step s = .next t → t.outcome = .fault →
    t = { s with
      nodes := t.nodes
      lastLatch := t.lastLatch
      phase := 0b1001#4
      errCode := if s.phase = 0b0100#4 then .addrInterrupt else .badState
      errSample := t.errSample
      outcome := .fault }

/-- Rules R204 and R210: FAULT and HALTED are terminal for the session. Whatever `stop` and the capture
are, any number of steps leaves every register and the sink as they were; only the output `outcome`
(log 4) records the attempts. -/
def Obligations.FaultAndHaltedAreTerminal : Prop :=
  ∀ (k : Nat) (s : State) (cap : Capture) (stop : Bool),
    s.phase = 0b1001#4 ∨ s.phase = 0b1000#4 →
    ∃ o, runSteps k { s with capture := cap, stop := stop } =
      { s with capture := cap, stop := stop, outcome := o }

/-! ## REQUEST -/

/-- Rules R110 to R114. In lock-step at `p`, with the next reference edge at `e`, REQUEST emits a
Request frame over `[mark, e]` with the requesting vector, moves every cursor to `e`, clears
`first_req` and `tx_valid`, and goes to ARBITRATION. -/
def Obligations.RequestCompletes : Prop :=
  ∀ (s : State) (p e : Nat),
    s.cfg.wf = true → s.capture.admittedFor s.cfg = true → LockStep s p → refEdge s p = some e →
    exec .request s = .next
      { s.allAt e with
        sink := s.sink ++
          [{ kind := .request
             flags := if s.firstReq then 0x00#8 else 0x04#8
             startSample := s.mark
             endSample := e
             valuePrimary := requestVector s p e
             valueSecondary := 0#64 }]
        mark := e + 1
        firstReq := false
        txValid := false
        phase := 0b0001#4
        outcome := .next }

/-- Rules R112 and R113 on the vector of rule R87: bit `32 + i` is set exactly for the requesting nodes
`i`, and every other bit is 0. The master requests when its DAT has a transition in the window; a
member when its first transition is strictly earlier than its predecessor's. -/
def Obligations.RequestVectorMarksRequesters : Prop :=
  ∀ (s : State) (p e j : Nat), s.cfg.wf = true → j < 64 →
    ((requestVector s p e).getLsbD j = true ↔
      32 ≤ j ∧ j - 32 < s.cfg.n ∧
        ((j = 32 ∧ ∃ t ∈ (s.dat 0).trans, p < t ∧ t ≤ e) ∨
          (32 < j ∧ fallSample s p e (j - 32) < fallSample s p e (j - 33))))

/-- Rule R111: the fall sample is the first transition in the window `(p, e]`, and the sentinel `e + 1`
exactly when there is none. -/
def Obligations.FallSampleIsFirstInWindow : Prop :=
  ∀ (s : State) (p e i : Nat), s.capture.admittedFor s.cfg = true →
    (participates s p e i = true →
      fallSample s p e i ∈ (s.dat i).trans ∧ p < fallSample s p e i ∧ fallSample s p e i ≤ e ∧
        ∀ t ∈ (s.dat i).trans, p < t → fallSample s p e i ≤ t) ∧
    (participates s p e i = false → fallSample s p e i = e + 1)

/-! ## ARBITRATION and PRIORITY -/

/-- Rules R130 and R132 to R134. ARBITRATION latches every DAT at `e₁`, consumes the drive edge `e₂`,
emits its frame over `[mark, e₁]` with the match set and the winner's index, and sets the
transmitter to the first match, or clears `tx_valid` when there is none. -/
def Obligations.ArbitrationCompletes : Prop :=
  ∀ (s : State) (p e₁ e₂ : Nat),
    s.cfg.wf = true → LockStep s p → refEdge s p = some e₁ → refEdge s e₁ = some e₂ →
    let ms := arbitrationMatches s.cfg.n (s.datLevels e₁)
    exec .arbitration s = .next
      { s.allAt e₂ with
        lastLatch := e₁
        txValid := !ms.isEmpty
        tx := if ms.isEmpty then s.tx else BitVec.ofNat 5 (ms.headD 0)
        sink := s.sink ++
          [{ kind := .arbitration
             flags := if ms.isEmpty then 0x02#8 else if 1 < ms.length then 0x01#8 else 0x00#8
             startSample := s.mark
             endSample := e₁
             valuePrimary := nodeVector ms ||| BitVec.ofNat 64 (ms.headD 0)
             valueSecondary := 0#64 }]
        mark := e₁ + 1
        phase := 0b0010#4
        outcome := .next }

/-- Rule R131. The match set is the master alone when its DAT is LOW at the latch edge, and else the
members that are LOW after a HIGH predecessor; it is listed in rising order, and the winner, its
first element, is the lowest. -/
def Obligations.ArbitrationMatchSet : Prop :=
  ∀ (s : State) (e : Nat), s.cfg.wf = true →
    (∀ i, i ∈ arbitrationMatches s.cfg.n (s.datLevels e) ↔
      if (s.dat 0).levelAt e = LOW then i = 0
      else 1 ≤ i ∧ i < s.cfg.n ∧ (s.dat i).levelAt e = LOW ∧ (s.dat (i - 1)).levelAt e = HIGH) ∧
    (arbitrationMatches s.cfg.n (s.datLevels e)).Pairwise (· < ·) ∧
    ∀ i ∈ arbitrationMatches s.cfg.n (s.datLevels e),
      (arbitrationMatches s.cfg.n (s.datLevels e)).headD 0 ≤ i

/-- Rules R140 and R142 to R144, with a transmitter. PRIORITY latches every DAT at `e₁`, consumes the
drive edge, replaces `tx` by the first match in scan order if there is one, and emits its frame with
the matches and the transmitter after the step. -/
def Obligations.PriorityCompletesWithTransmitter : Prop :=
  ∀ (s : State) (p e₁ e₂ : Nat),
    s.cfg.wf = true → LockStep s p → refEdge s p = some e₁ → refEdge s e₁ = some e₂ →
    s.txValid = true →
    let ms := priorityMatches s.cfg.n (s.datLevels e₁) s.tx.toNat
    let tx' := if ms.isEmpty then s.tx else BitVec.ofNat 5 (ms.headD 0)
    exec .priority s = .next
      { s.allAt e₂ with
        lastLatch := e₁
        tx := tx'
        sink := s.sink ++
          [{ kind := .priorityArbitration
             flags := if 1 < ms.length then 0x01#8 else 0x00#8
             startSample := s.mark
             endSample := e₁
             valuePrimary := nodeVector ms ||| tx'.setWidth 64
             valueSecondary := 0#64 }]
        mark := e₁ + 1
        phase := 0b0011#4
        outcome := .next }

/-- Rules R140, R143 and R144, without a transmitter: both edges are consumed, nothing is resolved, and
the frame carries `NoArbitrationWinner` and the value 0. -/
def Obligations.PriorityCompletesWithoutTransmitter : Prop :=
  ∀ (s : State) (p e₁ e₂ : Nat),
    s.cfg.wf = true → LockStep s p → refEdge s p = some e₁ → refEdge s e₁ = some e₂ →
    s.txValid = false →
    exec .priority s = .next
      { s.allAt e₂ with
        lastLatch := e₁
        sink := s.sink ++
          [{ kind := .priorityArbitration
             flags := 0x02#8
             startSample := s.mark
             endSample := e₁
             valuePrimary := 0#64
             valueSecondary := 0#64 }]
        mark := e₁ + 1
        phase := 0b0011#4
        outcome := .next }

/-- Rules R141 and R142. The priority matches of transmitter `t` are the other nodes that are LOW after
a HIGH ring predecessor, and they are listed by their distance after `t` on the ring. -/
def Obligations.PriorityScanFollowsTheRing : Prop :=
  ∀ (s : State) (e t : Nat), s.cfg.wf = true → t < s.cfg.n →
    (∀ i, i ∈ priorityMatches s.cfg.n (s.datLevels e) t ↔
      i < s.cfg.n ∧ i ≠ t ∧ (s.dat i).levelAt e = LOW ∧
        (s.dat ((i + s.cfg.n - 1) % s.cfg.n)).levelAt e = HIGH) ∧
    (priorityMatches s.cfg.n (s.datLevels e) t).Pairwise
      (fun a b => (a + s.cfg.n - t) % s.cfg.n < (b + s.cfg.n - t) % s.cfg.n)

/-- Rule R87: the node vector has bit `32 + i` set for the nodes of the list and no other bit. -/
def Obligations.NodeVectorBits : Prop :=
  ∀ (is : List Nat) (j : Nat), j < 64 →
    ((nodeVector is).getLsbD j = true ↔ ∃ i ∈ is, j = 32 + i)

/-! ## RESERVED -/

/-- Rules R150 and R152, the whole cell. With the next `DAT_K` edge after the latch, if there is one,
not before the drive edge `e₂`, both edges are consumed and the frame spans `[mark, e₁]`. -/
def Obligations.ReservedWholeCell : Prop :=
  ∀ (s : State) (p e₁ e₂ : Nat),
    s.cfg.wf = true → LockStep s p → refEdge s p = some e₁ → refEdge s e₁ = some e₂ →
    (∀ t ∈ (s.dat (s.cfg.n - 1)).trans, e₁ < t → e₂ ≤ t) →
    exec .reserved s = .next
      { s.allAt e₂ with
        lastLatch := e₁
        sink := s.sink ++
          [{ kind := .reservedBit
             flags := if s.txValid then 0x00#8 else 0x02#8
             startSample := s.mark
             endSample := e₁
             valuePrimary := 0#64
             valueSecondary := 0#64 }]
        mark := e₁ + 1
        phase := 0b0100#4
        outcome := .next }

/-- Rules R150 to R152, the cut. A `DAT_K` edge at `d`, strictly between the latch edge and the drive
edge, stops every cursor at `d - 1`, leaves the drive edge unconsumed, and ends the frame there. -/
def Obligations.ReservedCutBeforeDatEdge : Prop :=
  ∀ (s : State) (p e₁ e₂ d : Nat),
    s.cfg.wf = true → s.capture.admittedFor s.cfg = true → LockStep s p →
    refEdge s p = some e₁ → refEdge s e₁ = some e₂ →
    nextEdge s.capture.horizon (s.dat (s.cfg.n - 1)) e₁ = some d → d < e₂ →
    exec .reserved s = .next
      { s.allAt (d - 1) with
        lastLatch := e₁
        sink := s.sink ++
          [{ kind := .reservedBit
             flags := if s.txValid then 0x00#8 else 0x02#8
             startSample := s.mark
             endSample := d - 1
             valuePrimary := 0#64
             valueSecondary := 0#64 }]
        mark := d
        phase := 0b0100#4
        outcome := .next }

/-! ## ADDRESS -/

/-- Rules R160, R162 and R163 with rules R91 and R92. When the capture holds the cells of the address (8,
or 32 when the first nibble is 0xF) and no interruption comes before the last drive edge, ADDRESS
emits the address, MSB first, over `[mark, last latch]` and goes to DATA. An interruption at the
last drive edge is left pending (rule R161). -/
def Obligations.AddressCompletes : Prop :=
  ∀ (s : State) (p : Nat) (cells : List BitCell),
    s.cfg.wf = true → LockStep s p → cellsFrom s p cells.length = some cells →
    cells.length = addressWidth (latchedBits s cells) →
    quietButLastDrive s p cells = true →
    let latch := lastLatchOf s.lastLatch cells
    let drive := lastDrive p cells
    exec .address s = .next
      { s.allAt drive with
        lastLatch := latch
        intPending := s.intPending || interruptedIn s latch drive
        intEnd := if interruptedIn s latch drive then drive else s.intEnd
        sink := s.sink ++
          [{ kind := .address
             flags := if s.txValid then 0x00#8 else 0x02#8
             startSample := s.mark
             endSample := latch
             valuePrimary := BitVec.ofNat 64 (msbValue (latchedBits s cells))
             valueSecondary := 1#64 }]
        mark := latch + 1
        phase := 0b0101#4
        outcome := .next }

/-- Rules R161 and R203. An interruption at the latch edge of an address bit raises
`ERR_ADDR_INTERRUPT` there; the bits before it were latched. -/
def Obligations.AddressInterruptedAtLatchFaults : Prop :=
  ∀ (s : State) (p e : Nat) (cells : List BitCell),
    s.cfg.wf = true → LockStep s p → cellsFrom s p cells.length = some cells →
    cells.length < addressWidth (latchedBits s cells) → quietCells s p cells = true →
    refEdge s (lastDrive p cells) = some e → interruptedIn s (lastDrive p cells) e = true →
    exec .address s = .next
      { s.allAt e with
        lastLatch := lastLatchOf s.lastLatch cells
        phase := 0b1001#4
        errCode := .addrInterrupt
        errSample := e
        outcome := .fault }

/-- Rules R161, R162 and R203. An interruption at the drive edge of any address bit but the last, bit 8
of a long address among them, raises `ERR_ADDR_INTERRUPT` there. -/
def Obligations.AddressInterruptedAtDriveFaults : Prop :=
  ∀ (s : State) (p : Nat) (cells : List BitCell) (c : BitCell),
    s.cfg.wf = true → LockStep s p →
    cellsFrom s p (cells.length + 1) = some (cells ++ [c]) →
    cells.length + 1 < addressWidth (latchedBits s (cells ++ [c])) → quietCells s p cells = true →
    interruptedIn s (lastDrive p cells) c.latch = false →
    interruptedIn s c.latch c.drive = true →
    exec .address s = .next
      { s.allAt c.drive with
        lastLatch := c.latch
        phase := 0b1001#4
        errCode := .addrInterrupt
        errSample := c.drive
        outcome := .fault }

/-- Rules R92 and R102: the value of an address fits its width, and its bits [31:28] are 0xF exactly
when it took 32 bits. -/
def Obligations.AddressTopNibbleTellsItsWidth : Prop :=
  ∀ bits : List Level, bits.length = addressWidth bits →
    msbValue bits < 2 ^ bits.length ∧
      ((BitVec.ofNat 64 (msbValue bits)).extractLsb' 28 4 = 0xF#4 ↔ bits.length = 32)

/-! ## DATA -/

/-- Rules R165, R166 and R168 with rule R93. Eight cells with no interruption before the last drive edge
make one Data frame over `[mark, latch of the 8th bit]`, and the phase stays as it is; an
interruption at the last drive edge is left pending. -/
def Obligations.DataByteCompletes : Prop :=
  ∀ (s : State) (p : Nat) (cells : List BitCell),
    s.cfg.wf = true → LockStep s p → s.intPending = false →
    cellsFrom s p 8 = some cells → quietButLastDrive s p cells = true →
    let latch := lastLatchOf s.lastLatch cells
    let drive := lastDrive p cells
    exec .data s = .next
      { s.allAt drive with
        lastLatch := latch
        intPending := interruptedIn s latch drive
        intEnd := if interruptedIn s latch drive then drive else s.intEnd
        sink := s.sink ++
          [{ kind := .data
             flags := if s.txValid then 0x00#8 else 0x02#8
             startSample := s.mark
             endSample := latch
             valuePrimary := BitVec.ofNat 64 (msbValue (latchedBits s cells))
             valueSecondary := 1#64 }]
        mark := latch + 1
        outcome := .next }

/-- Rules R166 and R169. An interruption at the latch edge of bit `k + 1`, `k < 8`, ends the data run:
no Data frame, an Interrupt frame from the sample after the last latched bit to that edge, and
CONTROL0 next. -/
def Obligations.DataInterruptedAtLatch : Prop :=
  ∀ (s : State) (p e : Nat) (cells : List BitCell),
    s.cfg.wf = true → LockStep s p → s.intPending = false →
    cellsFrom s p cells.length = some cells → cells.length < 8 → quietCells s p cells = true →
    refEdge s (lastDrive p cells) = some e → interruptedIn s (lastDrive p cells) e = true →
    exec .data s = .next
      { s.allAt e with
        lastLatch := lastLatchOf s.lastLatch cells
        sink := s.sink ++
          [{ kind := .interrupt
             flags := if s.txValid then 0x00#8 else 0x02#8
             startSample := lastLatchOf s.lastLatch cells + 1
             endSample := e
             valuePrimary := 0#64
             valueSecondary := 0#64 }]
        mark := e + 1
        phase := 0b0110#4
        outcome := .next }

/-- Rules R166 and R169. The same at the drive edge of bit `k < 8`: that bit was latched, the byte is
partial. -/
def Obligations.DataInterruptedAtDrive : Prop :=
  ∀ (s : State) (p : Nat) (cells : List BitCell) (c : BitCell),
    s.cfg.wf = true → LockStep s p → s.intPending = false →
    cellsFrom s p (cells.length + 1) = some (cells ++ [c]) → cells.length + 1 < 8 →
    quietCells s p cells = true →
    interruptedIn s (lastDrive p cells) c.latch = false →
    interruptedIn s c.latch c.drive = true →
    exec .data s = .next
      { s.allAt c.drive with
        lastLatch := c.latch
        sink := s.sink ++
          [{ kind := .interrupt
             flags := if s.txValid then 0x00#8 else 0x02#8
             startSample := c.latch + 1
             endSample := c.drive
             valuePrimary := 0#64
             valueSecondary := 0#64 }]
        mark := c.drive + 1
        phase := 0b0110#4
        outcome := .next }

/-- Rules R167 and R169. A pending interruption is emitted as an Interrupt frame
`[last_latch + 1, int_end]`; no cursor moves, and CONTROL0 is next. -/
def Obligations.PendingInterruptIsEmitted : Prop :=
  ∀ s : State, s.intPending = true →
    exec .data s = .next
      { s with
        sink := s.sink ++
          [{ kind := .interrupt
             flags := if s.txValid then 0x00#8 else 0x02#8
             startSample := s.lastLatch + 1
             endSample := s.intEnd
             valuePrimary := 0#64
             valueSecondary := 0#64 }]
        mark := s.intEnd + 1
        intPending := false
        phase := 0b0110#4
        outcome := .next }

/-! ## CONTROL0 and CONTROL1 -/

/-- Rule R180. CONTROL0 latches the bus tap at `e₁`, consumes the drive edge, keeps the bit in `cb0` and
emits it over `[mark, e₁]`. -/
def Obligations.Control0Completes : Prop :=
  ∀ (s : State) (p e₁ e₂ : Nat),
    s.cfg.wf = true → LockStep s p → refEdge s p = some e₁ → refEdge s e₁ = some e₂ →
    exec .control0 s = .next
      { s.allAt e₂ with
        lastLatch := e₁
        cb0 := (s.dat (s.cfg.n - 1)).levelAt e₁
        sink := s.sink ++
          [{ kind := .controlBit0
             flags := if s.txValid then 0x00#8 else 0x02#8
             startSample := s.mark
             endSample := e₁
             valuePrimary := if (s.dat (s.cfg.n - 1)).levelAt e₁ then 1#64 else 0#64
             valueSecondary := 0#64 }]
        mark := e₁ + 1
        phase := 0b0111#4
        outcome := .next }

/-- Rules R185 and R186. CONTROL1 latches the bus tap at `e₁`, consumes the drive edge `e₂` and the
silent edge `e₃`, emits the bit over `[mark, e₁]`, moves `mark` past `e₃` and goes back to
REQUEST. -/
def Obligations.Control1Completes : Prop :=
  ∀ (s : State) (p e₁ e₂ e₃ : Nat),
    s.cfg.wf = true → LockStep s p → refEdge s p = some e₁ → refEdge s e₁ = some e₂ →
    refEdge s e₂ = some e₃ →
    exec .control1 s = .next
      { s.allAt e₃ with
        lastLatch := e₁
        sink := s.sink ++
          [{ kind := .controlBit1
             flags := if s.txValid then 0x00#8 else 0x02#8
             startSample := s.mark
             endSample := e₁
             valuePrimary := if (s.dat (s.cfg.n - 1)).levelAt e₁ then 1#64 else 0#64
             valueSecondary := 0#64 }]
        mark := e₃ + 1
        phase := 0b0000#4
        outcome := .next }

/-- Rules R185 and R234: with only the silent edge beyond the horizon, the whole CONTROL1 step holds and
its frame is not emitted. -/
def Obligations.Control1WaitsForSilentEdge : Prop :=
  ∀ (s : State) (p e₁ e₂ : Nat),
    s.cfg.wf = true → LockStep s p → refEdge s p = some e₁ → refEdge s e₁ = some e₂ →
    refEdge s e₂ = none →
    exec .control1 s = .next { s with outcome := .hold, atEnd := s.capture.final }

/-- Rule R188: the outcome of the two control-bit frames; the `cb0` register holds the value of the
first one's frame. -/
def Obligations.TransactionOutcomeTable : Prop :=
  (∀ f0 f1 : Frame,
    outcomeOfFrames f0 f1 =
      if f0.valuePrimary.getLsbD 0 then
        (if f1.valuePrimary.getLsbD 0 then .endOfMessageNak else .endOfMessageAck)
      else (if f1.valuePrimary.getLsbD 0 then .errorNode else .errorInterrupted)) ∧
  (∀ (s t : State) (f0 : Frame), exec .control0 s = .next t → t.sink = s.sink ++ [f0] →
    t.cb0 = f0.valuePrimary.getLsbD 0)

/-! ## The capture and the cursors -/

/-- Rule R53: on a well-formed channel `NextEdge` answers exactly the smallest transition after the
position, and holds exactly when there is none. -/
def Obligations.NextEdgeIsTheSmallest : Prop :=
  ∀ (h p : Nat) (ch : Channel), ch.wf h = true →
    (∀ t, nextEdge h ch p = some t ↔ t ∈ ch.trans ∧ p < t ∧ ∀ u ∈ ch.trans, p < u → t ≤ u) ∧
    (nextEdge h ch p = none ↔ ∀ u ∈ ch.trans, u ≤ p)

/-- Rules R52 and R54: between two samples the level toggles once per counted transition, and a
transition is counted once by consecutive windows. -/
def Obligations.LevelsToggleOncePerTransition : Prop :=
  ∀ (ch : Channel) (p q r : Nat), p ≤ q → q ≤ r →
    ch.levelAt q = xor (ch.levelAt p) (ch.countIn p q % 2 == 1) ∧
      ch.countIn p r = ch.countIn p q + ch.countIn q r

/-- Rule R62: `advance_all_to` within the horizon moves every cursor to the target, or leaves it where it
is if that is further on, and reports an interruption exactly when some DAT cursor counted more
transitions than the threshold; nothing else changes. Beyond the horizon it holds as a whole as soon
as one cursor is behind the target. -/
def Obligations.AdvanceAllMovesEveryCursor : Prop :=
  ∀ (s : State) (target : Nat),
    (target ≤ s.capture.horizon →
      ∃ b, advanceAllTo target s = some
          ({ s with
             nodes := s.nodes.map fun nd =>
               { clkPos := max nd.clkPos target, datPos := max nd.datPos target } }, b) ∧
        (b = true ↔ ∃ i, ∃ nd, s.nodes[i]? = some nd ∧
          s.cfg.intThreshold < (s.dat i).countIn nd.datPos target)) ∧
    (s.capture.horizon < target →
      (∃ nd ∈ s.nodes, nd.clkPos < target ∨ nd.datPos < target) → advanceAllTo target s = none)

/-- Rule R61, over a whole step from any state: no cursor moves backward, and none is added or
removed. -/
def Obligations.CursorsNeverMoveBack : Prop :=
  ∀ s t : State, step s = .next t →
    t.nodes.length = s.nodes.length ∧
      ∀ i, s.clkPos i ≤ t.clkPos i ∧ s.datPos i ≤ t.datPos i

/-- Rules R5 and R67: a step leaves the sink as it was or appends one frame to it. -/
def Obligations.SinkGrowsByAtMostOneFrame : Prop :=
  ∀ s t : State, step s = .next t → t.sink = s.sink ∨ ∃ f, t.sink = s.sink ++ [f]

/-- Rules R21, R36 and R50: no step writes the configuration, the capture or `stop`. -/
def Obligations.StepWritesNoInput : Prop :=
  ∀ s t : State, step s = .next t →
    t.cfg = s.cfg ∧ t.capture = s.capture ∧ t.stop = s.stop

/-- Rule R135. A frame emitted by PRIORITY, RESERVED, ADDRESS, DATA, CONTROL0 or CONTROL1 while
`tx_valid = 0` carries `NoArbitrationWinner`, and a Request frame never does. -/
def Obligations.NoWinnerFlagPropagates : Prop :=
  ∀ (s t : State) (f : Frame), step s = .next t → t.sink = s.sink ++ [f] →
    (s.txValid = false → 0b0010#4 ≤ s.phase → s.phase ≤ 0b0111#4 → f.flags = 0x02#8) ∧
    (s.phase = 0b0000#4 → f.flags &&& 0x02#8 = 0x00#8)

/-- Rules R27, R64 and R164: the transmitter's index selects no channel. Every operation but PRIORITY and
ARBITRATION does the same whatever `tx` holds, and leaves it. -/
def Obligations.TransmitterSelectsNoChannel : Prop :=
  ∀ (i : Instr) (s t : State) (x : BitVec 5),
    i ≠ .priority → i ≠ .arbitration → exec i s = .next t →
    t.tx = s.tx ∧ exec i { s with tx := x } = .next { t with tx := x }

/-! ## Extension of the capture -/

/-- Rule R240, one operation: what does not hold on a capture does the same on any capture that extends
it. -/
def Obligations.ExtensionDoesNotChangeAnOperation : Prop :=
  ∀ (i : Instr) (s t : State) (cap : Capture),
    Extends s.capture cap → exec i s = .next t → t.outcome ≠ .hold →
    exec i (s.withCapture cap) = .next (t.withCapture cap)

/-- Rule R240, whole runs: where the steps of a run are cut makes no difference. What `k` attempted steps
do on a capture, some `j ≤ k` steps do on any extension of it, to the same registers and frames. None
of those `j` steps holds, so `atEnd` is as it was at the start (log 24). -/
def Obligations.HoldEquivalence : Prop :=
  ∀ (k : Nat) (s : State) (cap : Capture), Extends s.capture cap →
    ∃ j ≤ k, ∃ o, (runSteps j (s.withCapture cap)) =
      { (runSteps k s).withCapture cap with outcome := o, atEnd := s.atEnd }

/-! ## Reset, the host and the invariants -/

/-- Rules R230 and R231. Reset on an admitted configuration and capture loads every register, keeps the
host's `stop`, and enters FAULT with `ERR_NOT_IDLE` exactly when the idle check is on and some
channel is LOW at sample 0. The model's own fields `outcome` and `atEnd` (logs 4 and 24) are left open
here. -/
def Obligations.ResetLoadsEveryRegister : Prop :=
  ∀ (cfg : Config) (cap : Capture) (s : State),
    cfg.wf = true → cap.admittedFor cfg = true →
    let failed := cfg.idleCheck = true ∧
      ∃ i < cfg.n, (cap.clk cfg i).levelAt 0 = LOW ∨ (cap.dat cfg i).levelAt 0 = LOW
    ∃ t, hostReset cfg cap s = .next t ∧
      (failed → t.phase = 0b1001#4 ∧ t.errCode = .notIdle) ∧
      (¬ failed → t.phase = 0b0000#4 ∧ t.errCode = .none) ∧
      t = { cfg := cfg
            capture := cap
            stop := s.stop
            phase := t.phase
            nodes := List.replicate cfg.n { clkPos := 0, datPos := 0 }
            txValid := false
            tx := 0#5
            firstReq := true
            mark := 0
            lastLatch := 0
            intPending := false
            intEnd := 0
            cb0 := false
            errCode := t.errCode
            errSample := 0
            sink := []
            outcome := t.outcome
            atEnd := t.atEnd }

/-- Rules R51, R56, R232, R235 and R239. The host actions refuse what is not admitted: a reset with an
inadmissible configuration or capture; an extension that does not raise the horizon, goes beyond the
sample bound, has a list of new transitions too many or too few, or one that does not strictly rise or
leaves the samples between the horizons; any change of a final capture. That the model refuses them
is its choice where rule R235 says it may (log 9); that a final capture takes no change and that an
extension raises the horizon are its reading of rule R56 (log 16). -/
def Obligations.HostActionsRefuseWhatIsNotAdmitted : Prop :=
  ∀ (s : State) (cfg : Config) (cap : Capture) (h : Nat) (more : List (List Nat)),
    (cfg.wf = false → hostReset cfg cap s = .refused .configNotAdmitted) ∧
    (cfg.wf = true → cap.admittedFor cfg = false →
      hostReset cfg cap s = .refused .captureNotAdmitted) ∧
    ((s.capture.final = true ∨ h ≤ s.capture.horizon ∨ 2 ^ 64 - 2 < h ∨
        more.length ≠ s.capture.signals.length ∨ (∃ ts ∈ more, ¬ ts.Pairwise (· < ·)) ∨
        ∃ ts ∈ more, ∃ t ∈ ts, t ≤ s.capture.horizon ∨ h < t) →
      hostExtend h more s = .refused .captureChangeNotAdmitted) ∧
    (s.capture.final = true → hostSetFinal s = .refused .captureChangeNotAdmitted)

/-- Rule R56, the two changes of a capture. An extension that is admitted is accepted; an accepted one
raises the horizon, appends to each signal its new transitions and changes nothing else, so that the
capture after it extends the one before in the sense of rule R240. Setting `final` is accepted on a
capture that is not final, and changes nothing else. (The form of the actions is that of log 16.) -/
def Obligations.AcceptedHostActionsExtendTheCapture : Prop :=
  ∀ (s t : State) (h : Nat) (more : List (List Nat)),
    (s.capture.final = false → s.capture.horizon < h → h ≤ 2 ^ 64 - 2 →
      more.length = s.capture.signals.length →
      (∀ ts ∈ more, ts.Pairwise (· < ·) ∧ ∀ u ∈ ts, s.capture.horizon < u ∧ u ≤ h) →
      ∃ t', hostExtend h more s = .next t') ∧
    (hostExtend h more s = .next t →
      t = { s with capture := t.capture } ∧ Extends s.capture t.capture ∧
        s.capture.horizon < h ∧ t.capture.horizon = h ∧
        s.capture.final = false ∧ t.capture.final = false ∧
        t.capture.signals.length = s.capture.signals.length ∧
        ∀ (j : Nat) (ch : Channel), s.capture.signals[j]? = some ch →
          ∃ ts, more[j]? = some ts ∧
            t.capture.signals[j]? = some { init := ch.init, trans := ch.trans ++ ts }) ∧
    (s.capture.final = false → ∃ t', hostSetFinal s = .next t') ∧
    (hostSetFinal s = .next t →
      s.capture.final = false ∧ t = { s with capture := { s.capture with final := true } } ∧
        Extends s.capture t.capture)

/-- Rule R216 with rules R55 and R235. A step ends a run exactly when it leaves `phase` at FAULT or HALTED
or holds on a capture that is final. After such a hold every further step holds and changes nothing.
A change of the capture or of `stop` ends no run, so a hold on a capture that was not final only
waits; a reset begins a run, which has ended only when its idle check failed. (`atEnd`, by which
`ended` knows of the hold, is the model's own field, log 24.) -/
def Obligations.RunEndsAtFaultHaltOrFinalHold : Prop :=
  ∀ s t : State,
    (s.ended = false → step s = .next t →
      (t.ended = true ↔ t.phase = 0b1001#4 ∨ t.phase = 0b1000#4 ∨
        (t.outcome = .hold ∧ s.capture.final = true))) ∧
    (step s = .next t → t.outcome = .hold → s.capture.final = true →
      ∀ k, runSteps k t = t) ∧
    (∀ h more, hostExtend h more s = .next t → t.ended = s.ended) ∧
    (hostSetFinal s = .next t → t.ended = s.ended) ∧
    (∀ b, (hostSetStop b s).ended = s.ended) ∧
    (∀ cfg cap, hostReset cfg cap s = .next t → (t.ended = true ↔ t.errCode = .notIdle))

/-- The reset state meets both invariants. Its configuration and capture are the model's choice
(log 1 and 2). -/
def Obligations.ResetStateMeetsInvariants : Prop :=
  SessionInv State.reset ∧ SinkInv State.reset

/-- Every reset the host can apply leaves a state that meets both invariants. -/
def Obligations.HostResetMeetsInvariants : Prop :=
  ∀ (cfg : Config) (cap : Capture) (s t : State), hostReset cfg cap s = .next t →
    SessionInv t ∧ SinkInv t

/-- Rules R38, R80, R81, R202, R204 and R216 with rules R29 to R31: every step keeps the session invariant,
from every state that meets it. -/
def Obligations.StepKeepsSessionInvariant : Prop :=
  ∀ s t : State, SessionInv s → step s = .next t → SessionInv t

/-- Rules R69, R85 to R89 and R114: every step keeps the frames ordered, well formatted, in the grammar
of a transaction and marked with the quirk flag as the rules say. -/
def Obligations.StepKeepsSinkInvariant : Prop :=
  ∀ s t : State, SessionInv s → SinkInv s → step s = .next t → SinkInv t

/-- Rules R56, R209 and R215: what the host does between steps keeps both invariants, from every state
that meets them. -/
def Obligations.HostActionsKeepInvariants : Prop :=
  ∀ s : State, SessionInv s → SinkInv s →
    (∀ (h : Nat) (more : List (List Nat)) (t : State),
      hostExtend h more s = .next t → SessionInv t ∧ SinkInv t) ∧
    (∀ t : State, hostSetFinal s = .next t → SessionInv t ∧ SinkInv t) ∧
    ∀ b : Bool, SessionInv (hostSetStop b s) ∧ SinkInv (hostSetStop b s)

/-- Every state of a session, whatever the host supplies and in whatever order steps and host actions
come, meets both invariants. -/
def Obligations.EverySessionStateMeetsInvariants : Prop :=
  ∀ s : State, InSession s → SessionInv s ∧ SinkInv s

/-- Rule R239: in every state of a session no sample register and no frame bound exceeds 64 bits. -/
def Obligations.SamplesFitSixtyFourBits : Prop :=
  ∀ s : State, InSession s →
    (∀ i, s.clkPos i < 2 ^ 64 ∧ s.datPos i < 2 ^ 64) ∧ s.mark < 2 ^ 64 ∧ s.lastLatch < 2 ^ 64 ∧
      s.intEnd < 2 ^ 64 ∧ s.errSample < 2 ^ 64 ∧
      ∀ f ∈ s.sink, f.startSample < 2 ^ 64 ∧ f.endSample < 2 ^ 64
end

