-- ==== Sys2Proof/Laws/State.lean ====
section
/-! SUPPORT. One lemma per field per update of the state, so that no later proof unfolds a record
update. -/

namespace Sys2Proof.Machine

open Sys2Proof

section
variable (s : State)

/-! ## `setNodes` -/

@[simp] theorem setNodes_cfg (ns : List NodeCursors) : (s.setNodes ns).cfg = s.cfg := rfl
@[simp] theorem setNodes_capture (ns : List NodeCursors) : (s.setNodes ns).capture = s.capture := rfl
@[simp] theorem setNodes_stop (ns : List NodeCursors) : (s.setNodes ns).stop = s.stop := rfl
@[simp] theorem setNodes_phase (ns : List NodeCursors) : (s.setNodes ns).phase = s.phase := rfl
@[simp] theorem setNodes_nodes (ns : List NodeCursors) : (s.setNodes ns).nodes = ns := rfl
@[simp] theorem setNodes_txValid (ns : List NodeCursors) : (s.setNodes ns).txValid = s.txValid := rfl
@[simp] theorem setNodes_tx (ns : List NodeCursors) : (s.setNodes ns).tx = s.tx := rfl
@[simp] theorem setNodes_firstReq (ns : List NodeCursors) : (s.setNodes ns).firstReq = s.firstReq := rfl
@[simp] theorem setNodes_mark (ns : List NodeCursors) : (s.setNodes ns).mark = s.mark := rfl
@[simp] theorem setNodes_lastLatch (ns : List NodeCursors) : (s.setNodes ns).lastLatch = s.lastLatch := rfl
@[simp] theorem setNodes_intPending (ns : List NodeCursors) : (s.setNodes ns).intPending = s.intPending := rfl
@[simp] theorem setNodes_intEnd (ns : List NodeCursors) : (s.setNodes ns).intEnd = s.intEnd := rfl
@[simp] theorem setNodes_cb0 (ns : List NodeCursors) : (s.setNodes ns).cb0 = s.cb0 := rfl
@[simp] theorem setNodes_errCode (ns : List NodeCursors) : (s.setNodes ns).errCode = s.errCode := rfl
@[simp] theorem setNodes_errSample (ns : List NodeCursors) : (s.setNodes ns).errSample = s.errSample := rfl
@[simp] theorem setNodes_sink (ns : List NodeCursors) : (s.setNodes ns).sink = s.sink := rfl
@[simp] theorem setNodes_outcome (ns : List NodeCursors) : (s.setNodes ns).outcome = s.outcome := rfl
@[simp] theorem setNodes_atEnd (ns : List NodeCursors) : (s.setNodes ns).atEnd = s.atEnd := rfl
@[simp] theorem setNodes_clk (ns : List NodeCursors) (i : Nat) :
    (s.setNodes ns).clk i = s.clk i := rfl
@[simp] theorem setNodes_dat (ns : List NodeCursors) (i : Nat) :
    (s.setNodes ns).dat i = s.dat i := rfl
@[simp] theorem setNodes_horizon (ns : List NodeCursors) : (s.setNodes ns).horizon = s.horizon := rfl
@[simp] theorem setNodes_refEdge (ns : List NodeCursors) (x : Nat) :
    refEdge (s.setNodes ns) x = refEdge s x := rfl
@[simp] theorem setNodes_interruptedIn (ns : List NodeCursors) (x y : Nat) :
    interruptedIn (s.setNodes ns) x y = interruptedIn s x y := rfl
@[simp] theorem setNodes_tapLevel (ns : List NodeCursors) (x : Nat) :
    tapLevel (s.setNodes ns) x = tapLevel s x := rfl
@[simp] theorem setNodes_lastNode (ns : List NodeCursors) : (s.setNodes ns).lastNode = s.lastNode := rfl
@[simp] theorem setNodes_noWinnerFlag (ns : List NodeCursors) :
    noWinnerFlag (s.setNodes ns) = noWinnerFlag s := rfl

/-! ## `latch` -/

@[simp] theorem latch_cfg (e : Nat) : (s.latch e).cfg = s.cfg := rfl
@[simp] theorem latch_capture (e : Nat) : (s.latch e).capture = s.capture := rfl
@[simp] theorem latch_stop (e : Nat) : (s.latch e).stop = s.stop := rfl
@[simp] theorem latch_phase (e : Nat) : (s.latch e).phase = s.phase := rfl
@[simp] theorem latch_nodes (e : Nat) : (s.latch e).nodes = s.nodes := rfl
@[simp] theorem latch_txValid (e : Nat) : (s.latch e).txValid = s.txValid := rfl
@[simp] theorem latch_tx (e : Nat) : (s.latch e).tx = s.tx := rfl
@[simp] theorem latch_firstReq (e : Nat) : (s.latch e).firstReq = s.firstReq := rfl
@[simp] theorem latch_mark (e : Nat) : (s.latch e).mark = s.mark := rfl
@[simp] theorem latch_lastLatch (e : Nat) : (s.latch e).lastLatch = e := rfl
@[simp] theorem latch_intPending (e : Nat) : (s.latch e).intPending = s.intPending := rfl
@[simp] theorem latch_intEnd (e : Nat) : (s.latch e).intEnd = s.intEnd := rfl
@[simp] theorem latch_cb0 (e : Nat) : (s.latch e).cb0 = s.cb0 := rfl
@[simp] theorem latch_errCode (e : Nat) : (s.latch e).errCode = s.errCode := rfl
@[simp] theorem latch_errSample (e : Nat) : (s.latch e).errSample = s.errSample := rfl
@[simp] theorem latch_sink (e : Nat) : (s.latch e).sink = s.sink := rfl
@[simp] theorem latch_outcome (e : Nat) : (s.latch e).outcome = s.outcome := rfl
@[simp] theorem latch_atEnd (e : Nat) : (s.latch e).atEnd = s.atEnd := rfl
@[simp] theorem latch_clk (e : Nat) (i : Nat) :
    (s.latch e).clk i = s.clk i := rfl
@[simp] theorem latch_dat (e : Nat) (i : Nat) :
    (s.latch e).dat i = s.dat i := rfl
@[simp] theorem latch_horizon (e : Nat) : (s.latch e).horizon = s.horizon := rfl
@[simp] theorem latch_refEdge (e : Nat) (x : Nat) :
    refEdge (s.latch e) x = refEdge s x := rfl
@[simp] theorem latch_interruptedIn (e : Nat) (x y : Nat) :
    interruptedIn (s.latch e) x y = interruptedIn s x y := rfl
@[simp] theorem latch_tapLevel (e : Nat) (x : Nat) :
    tapLevel (s.latch e) x = tapLevel s x := rfl
@[simp] theorem latch_lastNode (e : Nat) : (s.latch e).lastNode = s.lastNode := rfl
@[simp] theorem latch_noWinnerFlag (e : Nat) :
    noWinnerFlag (s.latch e) = noWinnerFlag s := rfl

/-! ## `setPending` -/

@[simp] theorem setPending_cfg (e : Nat) : (s.setPending e).cfg = s.cfg := rfl
@[simp] theorem setPending_capture (e : Nat) : (s.setPending e).capture = s.capture := rfl
@[simp] theorem setPending_stop (e : Nat) : (s.setPending e).stop = s.stop := rfl
@[simp] theorem setPending_phase (e : Nat) : (s.setPending e).phase = s.phase := rfl
@[simp] theorem setPending_nodes (e : Nat) : (s.setPending e).nodes = s.nodes := rfl
@[simp] theorem setPending_txValid (e : Nat) : (s.setPending e).txValid = s.txValid := rfl
@[simp] theorem setPending_tx (e : Nat) : (s.setPending e).tx = s.tx := rfl
@[simp] theorem setPending_firstReq (e : Nat) : (s.setPending e).firstReq = s.firstReq := rfl
@[simp] theorem setPending_mark (e : Nat) : (s.setPending e).mark = s.mark := rfl
@[simp] theorem setPending_lastLatch (e : Nat) : (s.setPending e).lastLatch = s.lastLatch := rfl
@[simp] theorem setPending_intPending (e : Nat) : (s.setPending e).intPending = true := rfl
@[simp] theorem setPending_intEnd (e : Nat) : (s.setPending e).intEnd = e := rfl
@[simp] theorem setPending_cb0 (e : Nat) : (s.setPending e).cb0 = s.cb0 := rfl
@[simp] theorem setPending_errCode (e : Nat) : (s.setPending e).errCode = s.errCode := rfl
@[simp] theorem setPending_errSample (e : Nat) : (s.setPending e).errSample = s.errSample := rfl
@[simp] theorem setPending_sink (e : Nat) : (s.setPending e).sink = s.sink := rfl
@[simp] theorem setPending_outcome (e : Nat) : (s.setPending e).outcome = s.outcome := rfl
@[simp] theorem setPending_atEnd (e : Nat) : (s.setPending e).atEnd = s.atEnd := rfl
@[simp] theorem setPending_clk (e : Nat) (i : Nat) :
    (s.setPending e).clk i = s.clk i := rfl
@[simp] theorem setPending_dat (e : Nat) (i : Nat) :
    (s.setPending e).dat i = s.dat i := rfl
@[simp] theorem setPending_horizon (e : Nat) : (s.setPending e).horizon = s.horizon := rfl
@[simp] theorem setPending_refEdge (e : Nat) (x : Nat) :
    refEdge (s.setPending e) x = refEdge s x := rfl
@[simp] theorem setPending_interruptedIn (e : Nat) (x y : Nat) :
    interruptedIn (s.setPending e) x y = interruptedIn s x y := rfl
@[simp] theorem setPending_tapLevel (e : Nat) (x : Nat) :
    tapLevel (s.setPending e) x = tapLevel s x := rfl
@[simp] theorem setPending_lastNode (e : Nat) : (s.setPending e).lastNode = s.lastNode := rfl
@[simp] theorem setPending_noWinnerFlag (e : Nat) :
    noWinnerFlag (s.setPending e) = noWinnerFlag s := rfl

/-! ## `emit` -/

@[simp] theorem emit_cfg (f : Frame) : (s.emit f).cfg = s.cfg := rfl
@[simp] theorem emit_capture (f : Frame) : (s.emit f).capture = s.capture := rfl
@[simp] theorem emit_stop (f : Frame) : (s.emit f).stop = s.stop := rfl
@[simp] theorem emit_phase (f : Frame) : (s.emit f).phase = s.phase := rfl
@[simp] theorem emit_nodes (f : Frame) : (s.emit f).nodes = s.nodes := rfl
@[simp] theorem emit_txValid (f : Frame) : (s.emit f).txValid = s.txValid := rfl
@[simp] theorem emit_tx (f : Frame) : (s.emit f).tx = s.tx := rfl
@[simp] theorem emit_firstReq (f : Frame) : (s.emit f).firstReq = s.firstReq := rfl
@[simp] theorem emit_mark (f : Frame) : (s.emit f).mark = s.mark := rfl
@[simp] theorem emit_lastLatch (f : Frame) : (s.emit f).lastLatch = s.lastLatch := rfl
@[simp] theorem emit_intPending (f : Frame) : (s.emit f).intPending = s.intPending := rfl
@[simp] theorem emit_intEnd (f : Frame) : (s.emit f).intEnd = s.intEnd := rfl
@[simp] theorem emit_cb0 (f : Frame) : (s.emit f).cb0 = s.cb0 := rfl
@[simp] theorem emit_errCode (f : Frame) : (s.emit f).errCode = s.errCode := rfl
@[simp] theorem emit_errSample (f : Frame) : (s.emit f).errSample = s.errSample := rfl
@[simp] theorem emit_sink (f : Frame) : (s.emit f).sink = s.sink ++ [f] := rfl
@[simp] theorem emit_outcome (f : Frame) : (s.emit f).outcome = s.outcome := rfl
@[simp] theorem emit_atEnd (f : Frame) : (s.emit f).atEnd = s.atEnd := rfl
@[simp] theorem emit_clk (f : Frame) (i : Nat) :
    (s.emit f).clk i = s.clk i := rfl
@[simp] theorem emit_dat (f : Frame) (i : Nat) :
    (s.emit f).dat i = s.dat i := rfl
@[simp] theorem emit_horizon (f : Frame) : (s.emit f).horizon = s.horizon := rfl
@[simp] theorem emit_refEdge (f : Frame) (x : Nat) :
    refEdge (s.emit f) x = refEdge s x := rfl
@[simp] theorem emit_interruptedIn (f : Frame) (x y : Nat) :
    interruptedIn (s.emit f) x y = interruptedIn s x y := rfl
@[simp] theorem emit_tapLevel (f : Frame) (x : Nat) :
    tapLevel (s.emit f) x = tapLevel s x := rfl
@[simp] theorem emit_lastNode (f : Frame) : (s.emit f).lastNode = s.lastNode := rfl
@[simp] theorem emit_noWinnerFlag (f : Frame) :
    noWinnerFlag (s.emit f) = noWinnerFlag s := rfl

/-! ## `goto` -/

@[simp] theorem goto_cfg (ph : BitVec 4) : (s.goto ph).cfg = s.cfg := rfl
@[simp] theorem goto_capture (ph : BitVec 4) : (s.goto ph).capture = s.capture := rfl
@[simp] theorem goto_stop (ph : BitVec 4) : (s.goto ph).stop = s.stop := rfl
@[simp] theorem goto_phase (ph : BitVec 4) : (s.goto ph).phase = ph := rfl
@[simp] theorem goto_nodes (ph : BitVec 4) : (s.goto ph).nodes = s.nodes := rfl
@[simp] theorem goto_txValid (ph : BitVec 4) : (s.goto ph).txValid = s.txValid := rfl
@[simp] theorem goto_tx (ph : BitVec 4) : (s.goto ph).tx = s.tx := rfl
@[simp] theorem goto_firstReq (ph : BitVec 4) : (s.goto ph).firstReq = s.firstReq := rfl
@[simp] theorem goto_mark (ph : BitVec 4) : (s.goto ph).mark = s.mark := rfl
@[simp] theorem goto_lastLatch (ph : BitVec 4) : (s.goto ph).lastLatch = s.lastLatch := rfl
@[simp] theorem goto_intPending (ph : BitVec 4) : (s.goto ph).intPending = s.intPending := rfl
@[simp] theorem goto_intEnd (ph : BitVec 4) : (s.goto ph).intEnd = s.intEnd := rfl
@[simp] theorem goto_cb0 (ph : BitVec 4) : (s.goto ph).cb0 = s.cb0 := rfl
@[simp] theorem goto_errCode (ph : BitVec 4) : (s.goto ph).errCode = s.errCode := rfl
@[simp] theorem goto_errSample (ph : BitVec 4) : (s.goto ph).errSample = s.errSample := rfl
@[simp] theorem goto_sink (ph : BitVec 4) : (s.goto ph).sink = s.sink := rfl
@[simp] theorem goto_outcome (ph : BitVec 4) : (s.goto ph).outcome = s.outcome := rfl
@[simp] theorem goto_atEnd (ph : BitVec 4) : (s.goto ph).atEnd = s.atEnd := rfl
@[simp] theorem goto_clk (ph : BitVec 4) (i : Nat) :
    (s.goto ph).clk i = s.clk i := rfl
@[simp] theorem goto_dat (ph : BitVec 4) (i : Nat) :
    (s.goto ph).dat i = s.dat i := rfl
@[simp] theorem goto_horizon (ph : BitVec 4) : (s.goto ph).horizon = s.horizon := rfl
@[simp] theorem goto_refEdge (ph : BitVec 4) (x : Nat) :
    refEdge (s.goto ph) x = refEdge s x := rfl
@[simp] theorem goto_interruptedIn (ph : BitVec 4) (x y : Nat) :
    interruptedIn (s.goto ph) x y = interruptedIn s x y := rfl
@[simp] theorem goto_tapLevel (ph : BitVec 4) (x : Nat) :
    tapLevel (s.goto ph) x = tapLevel s x := rfl
@[simp] theorem goto_lastNode (ph : BitVec 4) : (s.goto ph).lastNode = s.lastNode := rfl
@[simp] theorem goto_noWinnerFlag (ph : BitVec 4) :
    noWinnerFlag (s.goto ph) = noWinnerFlag s := rfl

/-! ## `withOutcome` -/

@[simp] theorem withOutcome_cfg (o : StepOutcome) : (s.withOutcome o).cfg = s.cfg := rfl
@[simp] theorem withOutcome_capture (o : StepOutcome) : (s.withOutcome o).capture = s.capture := rfl
@[simp] theorem withOutcome_stop (o : StepOutcome) : (s.withOutcome o).stop = s.stop := rfl
@[simp] theorem withOutcome_phase (o : StepOutcome) : (s.withOutcome o).phase = s.phase := rfl
@[simp] theorem withOutcome_nodes (o : StepOutcome) : (s.withOutcome o).nodes = s.nodes := rfl
@[simp] theorem withOutcome_txValid (o : StepOutcome) : (s.withOutcome o).txValid = s.txValid := rfl
@[simp] theorem withOutcome_tx (o : StepOutcome) : (s.withOutcome o).tx = s.tx := rfl
@[simp] theorem withOutcome_firstReq (o : StepOutcome) : (s.withOutcome o).firstReq = s.firstReq := rfl
@[simp] theorem withOutcome_mark (o : StepOutcome) : (s.withOutcome o).mark = s.mark := rfl
@[simp] theorem withOutcome_lastLatch (o : StepOutcome) : (s.withOutcome o).lastLatch = s.lastLatch := rfl
@[simp] theorem withOutcome_intPending (o : StepOutcome) : (s.withOutcome o).intPending = s.intPending := rfl
@[simp] theorem withOutcome_intEnd (o : StepOutcome) : (s.withOutcome o).intEnd = s.intEnd := rfl
@[simp] theorem withOutcome_cb0 (o : StepOutcome) : (s.withOutcome o).cb0 = s.cb0 := rfl
@[simp] theorem withOutcome_errCode (o : StepOutcome) : (s.withOutcome o).errCode = s.errCode := rfl
@[simp] theorem withOutcome_errSample (o : StepOutcome) : (s.withOutcome o).errSample = s.errSample := rfl
@[simp] theorem withOutcome_sink (o : StepOutcome) : (s.withOutcome o).sink = s.sink := rfl
@[simp] theorem withOutcome_outcome (o : StepOutcome) : (s.withOutcome o).outcome = o := rfl
@[simp] theorem withOutcome_atEnd (o : StepOutcome) : (s.withOutcome o).atEnd = s.atEnd := rfl
@[simp] theorem withOutcome_clk (o : StepOutcome) (i : Nat) :
    (s.withOutcome o).clk i = s.clk i := rfl
@[simp] theorem withOutcome_dat (o : StepOutcome) (i : Nat) :
    (s.withOutcome o).dat i = s.dat i := rfl
@[simp] theorem withOutcome_horizon (o : StepOutcome) : (s.withOutcome o).horizon = s.horizon := rfl
@[simp] theorem withOutcome_refEdge (o : StepOutcome) (x : Nat) :
    refEdge (s.withOutcome o) x = refEdge s x := rfl
@[simp] theorem withOutcome_interruptedIn (o : StepOutcome) (x y : Nat) :
    interruptedIn (s.withOutcome o) x y = interruptedIn s x y := rfl
@[simp] theorem withOutcome_tapLevel (o : StepOutcome) (x : Nat) :
    tapLevel (s.withOutcome o) x = tapLevel s x := rfl
@[simp] theorem withOutcome_lastNode (o : StepOutcome) : (s.withOutcome o).lastNode = s.lastNode := rfl
@[simp] theorem withOutcome_noWinnerFlag (o : StepOutcome) :
    noWinnerFlag (s.withOutcome o) = noWinnerFlag s := rfl

/-! ## `withHold` -/

@[simp] theorem withHold_cfg : s.withHold.cfg = s.cfg := rfl
@[simp] theorem withHold_capture : s.withHold.capture = s.capture := rfl
@[simp] theorem withHold_stop : s.withHold.stop = s.stop := rfl
@[simp] theorem withHold_phase : s.withHold.phase = s.phase := rfl
@[simp] theorem withHold_nodes : s.withHold.nodes = s.nodes := rfl
@[simp] theorem withHold_txValid : s.withHold.txValid = s.txValid := rfl
@[simp] theorem withHold_tx : s.withHold.tx = s.tx := rfl
@[simp] theorem withHold_firstReq : s.withHold.firstReq = s.firstReq := rfl
@[simp] theorem withHold_mark : s.withHold.mark = s.mark := rfl
@[simp] theorem withHold_lastLatch : s.withHold.lastLatch = s.lastLatch := rfl
@[simp] theorem withHold_intPending : s.withHold.intPending = s.intPending := rfl
@[simp] theorem withHold_intEnd : s.withHold.intEnd = s.intEnd := rfl
@[simp] theorem withHold_cb0 : s.withHold.cb0 = s.cb0 := rfl
@[simp] theorem withHold_errCode : s.withHold.errCode = s.errCode := rfl
@[simp] theorem withHold_errSample : s.withHold.errSample = s.errSample := rfl
@[simp] theorem withHold_sink : s.withHold.sink = s.sink := rfl
@[simp] theorem withHold_outcome : s.withHold.outcome = .hold := rfl
@[simp] theorem withHold_atEnd : s.withHold.atEnd = s.capture.final := rfl
@[simp] theorem withHold_clk (i : Nat) :
    s.withHold.clk i = s.clk i := rfl
@[simp] theorem withHold_dat (i : Nat) :
    s.withHold.dat i = s.dat i := rfl
@[simp] theorem withHold_horizon : s.withHold.horizon = s.horizon := rfl
@[simp] theorem withHold_refEdge (x : Nat) :
    refEdge s.withHold x = refEdge s x := rfl
@[simp] theorem withHold_interruptedIn (x y : Nat) :
    interruptedIn s.withHold x y = interruptedIn s x y := rfl
@[simp] theorem withHold_tapLevel (x : Nat) :
    tapLevel s.withHold x = tapLevel s x := rfl
@[simp] theorem withHold_lastNode : s.withHold.lastNode = s.lastNode := rfl
@[simp] theorem withHold_noWinnerFlag :
    noWinnerFlag s.withHold = noWinnerFlag s := rfl

/-! ## `complete` -/

@[simp] theorem complete_cfg : (complete s).cfg = s.cfg := rfl
@[simp] theorem complete_capture : (complete s).capture = s.capture := rfl
@[simp] theorem complete_stop : (complete s).stop = s.stop := rfl
@[simp] theorem complete_phase : (complete s).phase = s.phase := rfl
@[simp] theorem complete_nodes : (complete s).nodes = s.nodes := rfl
@[simp] theorem complete_txValid : (complete s).txValid = s.txValid := rfl
@[simp] theorem complete_tx : (complete s).tx = s.tx := rfl
@[simp] theorem complete_firstReq : (complete s).firstReq = s.firstReq := rfl
@[simp] theorem complete_mark : (complete s).mark = s.mark := rfl
@[simp] theorem complete_lastLatch : (complete s).lastLatch = s.lastLatch := rfl
@[simp] theorem complete_intPending : (complete s).intPending = s.intPending := rfl
@[simp] theorem complete_intEnd : (complete s).intEnd = s.intEnd := rfl
@[simp] theorem complete_cb0 : (complete s).cb0 = s.cb0 := rfl
@[simp] theorem complete_errCode : (complete s).errCode = s.errCode := rfl
@[simp] theorem complete_errSample : (complete s).errSample = s.errSample := rfl
@[simp] theorem complete_sink : (complete s).sink = s.sink := rfl
@[simp] theorem complete_outcome : (complete s).outcome = .next := rfl
@[simp] theorem complete_atEnd : (complete s).atEnd = s.atEnd := rfl
@[simp] theorem complete_clk (i : Nat) :
    (complete s).clk i = s.clk i := rfl
@[simp] theorem complete_dat (i : Nat) :
    (complete s).dat i = s.dat i := rfl
@[simp] theorem complete_horizon : (complete s).horizon = s.horizon := rfl
@[simp] theorem complete_refEdge (x : Nat) :
    refEdge (complete s) x = refEdge s x := rfl
@[simp] theorem complete_interruptedIn (x y : Nat) :
    interruptedIn (complete s) x y = interruptedIn s x y := rfl
@[simp] theorem complete_tapLevel (x : Nat) :
    tapLevel (complete s) x = tapLevel s x := rfl
@[simp] theorem complete_lastNode : (complete s).lastNode = s.lastNode := rfl
@[simp] theorem complete_noWinnerFlag :
    noWinnerFlag (complete s) = noWinnerFlag s := rfl

/-! ## `raiseFault` -/

@[simp] theorem raiseFault_cfg (c : ErrCode) (e : Nat) : (raiseFault c e s).cfg = s.cfg := rfl
@[simp] theorem raiseFault_capture (c : ErrCode) (e : Nat) : (raiseFault c e s).capture = s.capture := rfl
@[simp] theorem raiseFault_stop (c : ErrCode) (e : Nat) : (raiseFault c e s).stop = s.stop := rfl
@[simp] theorem raiseFault_phase (c : ErrCode) (e : Nat) : (raiseFault c e s).phase = PhaseCode.fault := rfl
@[simp] theorem raiseFault_nodes (c : ErrCode) (e : Nat) : (raiseFault c e s).nodes = s.nodes := rfl
@[simp] theorem raiseFault_txValid (c : ErrCode) (e : Nat) : (raiseFault c e s).txValid = s.txValid := rfl
@[simp] theorem raiseFault_tx (c : ErrCode) (e : Nat) : (raiseFault c e s).tx = s.tx := rfl
@[simp] theorem raiseFault_firstReq (c : ErrCode) (e : Nat) : (raiseFault c e s).firstReq = s.firstReq := rfl
@[simp] theorem raiseFault_mark (c : ErrCode) (e : Nat) : (raiseFault c e s).mark = s.mark := rfl
@[simp] theorem raiseFault_lastLatch (c : ErrCode) (e : Nat) : (raiseFault c e s).lastLatch = s.lastLatch := rfl
@[simp] theorem raiseFault_intPending (c : ErrCode) (e : Nat) : (raiseFault c e s).intPending = s.intPending := rfl
@[simp] theorem raiseFault_intEnd (c : ErrCode) (e : Nat) : (raiseFault c e s).intEnd = s.intEnd := rfl
@[simp] theorem raiseFault_cb0 (c : ErrCode) (e : Nat) : (raiseFault c e s).cb0 = s.cb0 := rfl
@[simp] theorem raiseFault_errCode (c : ErrCode) (e : Nat) : (raiseFault c e s).errCode = c := rfl
@[simp] theorem raiseFault_errSample (c : ErrCode) (e : Nat) : (raiseFault c e s).errSample = e := rfl
@[simp] theorem raiseFault_sink (c : ErrCode) (e : Nat) : (raiseFault c e s).sink = s.sink := rfl
@[simp] theorem raiseFault_outcome (c : ErrCode) (e : Nat) : (raiseFault c e s).outcome = .fault := rfl
@[simp] theorem raiseFault_atEnd (c : ErrCode) (e : Nat) : (raiseFault c e s).atEnd = s.atEnd := rfl
@[simp] theorem raiseFault_clk (c : ErrCode) (e : Nat) (i : Nat) :
    (raiseFault c e s).clk i = s.clk i := rfl
@[simp] theorem raiseFault_dat (c : ErrCode) (e : Nat) (i : Nat) :
    (raiseFault c e s).dat i = s.dat i := rfl
@[simp] theorem raiseFault_horizon (c : ErrCode) (e : Nat) : (raiseFault c e s).horizon = s.horizon := rfl
@[simp] theorem raiseFault_refEdge (c : ErrCode) (e : Nat) (x : Nat) :
    refEdge (raiseFault c e s) x = refEdge s x := rfl
@[simp] theorem raiseFault_interruptedIn (c : ErrCode) (e : Nat) (x y : Nat) :
    interruptedIn (raiseFault c e s) x y = interruptedIn s x y := rfl
@[simp] theorem raiseFault_tapLevel (c : ErrCode) (e : Nat) (x : Nat) :
    tapLevel (raiseFault c e s) x = tapLevel s x := rfl
@[simp] theorem raiseFault_lastNode (c : ErrCode) (e : Nat) : (raiseFault c e s).lastNode = s.lastNode := rfl
@[simp] theorem raiseFault_noWinnerFlag (c : ErrCode) (e : Nat) :
    noWinnerFlag (raiseFault c e s) = noWinnerFlag s := rfl

/-! ## `emitFrame` -/

@[simp] theorem emitFrame_cfg (k : FrameKind) (fl : BitVec 8) (a b : Nat) (vp vs : BitVec 64) (m : Nat) :
    (emitFrame k fl a b vp vs m s).cfg = s.cfg := rfl
@[simp] theorem emitFrame_capture (k : FrameKind) (fl : BitVec 8) (a b : Nat) (vp vs : BitVec 64) (m : Nat) :
    (emitFrame k fl a b vp vs m s).capture = s.capture := rfl
@[simp] theorem emitFrame_stop (k : FrameKind) (fl : BitVec 8) (a b : Nat) (vp vs : BitVec 64) (m : Nat) :
    (emitFrame k fl a b vp vs m s).stop = s.stop := rfl
@[simp] theorem emitFrame_phase (k : FrameKind) (fl : BitVec 8) (a b : Nat) (vp vs : BitVec 64) (m : Nat) :
    (emitFrame k fl a b vp vs m s).phase = s.phase := rfl
@[simp] theorem emitFrame_nodes (k : FrameKind) (fl : BitVec 8) (a b : Nat) (vp vs : BitVec 64) (m : Nat) :
    (emitFrame k fl a b vp vs m s).nodes = s.nodes := rfl
@[simp] theorem emitFrame_txValid (k : FrameKind) (fl : BitVec 8) (a b : Nat) (vp vs : BitVec 64) (m : Nat) :
    (emitFrame k fl a b vp vs m s).txValid = s.txValid := rfl
@[simp] theorem emitFrame_tx (k : FrameKind) (fl : BitVec 8) (a b : Nat) (vp vs : BitVec 64) (m : Nat) :
    (emitFrame k fl a b vp vs m s).tx = s.tx := rfl
@[simp] theorem emitFrame_firstReq (k : FrameKind) (fl : BitVec 8) (a b : Nat) (vp vs : BitVec 64) (m : Nat) :
    (emitFrame k fl a b vp vs m s).firstReq = s.firstReq := rfl
@[simp] theorem emitFrame_mark (k : FrameKind) (fl : BitVec 8) (a b : Nat) (vp vs : BitVec 64) (m : Nat) :
    (emitFrame k fl a b vp vs m s).mark = m := rfl
@[simp] theorem emitFrame_lastLatch (k : FrameKind) (fl : BitVec 8) (a b : Nat) (vp vs : BitVec 64) (m : Nat) :
    (emitFrame k fl a b vp vs m s).lastLatch = s.lastLatch := rfl
@[simp] theorem emitFrame_intPending (k : FrameKind) (fl : BitVec 8) (a b : Nat) (vp vs : BitVec 64) (m : Nat) :
    (emitFrame k fl a b vp vs m s).intPending = s.intPending := rfl
@[simp] theorem emitFrame_intEnd (k : FrameKind) (fl : BitVec 8) (a b : Nat) (vp vs : BitVec 64) (m : Nat) :
    (emitFrame k fl a b vp vs m s).intEnd = s.intEnd := rfl
@[simp] theorem emitFrame_cb0 (k : FrameKind) (fl : BitVec 8) (a b : Nat) (vp vs : BitVec 64) (m : Nat) :
    (emitFrame k fl a b vp vs m s).cb0 = s.cb0 := rfl
@[simp] theorem emitFrame_errCode (k : FrameKind) (fl : BitVec 8) (a b : Nat) (vp vs : BitVec 64) (m : Nat) :
    (emitFrame k fl a b vp vs m s).errCode = s.errCode := rfl
@[simp] theorem emitFrame_errSample (k : FrameKind) (fl : BitVec 8) (a b : Nat) (vp vs : BitVec 64) (m : Nat) :
    (emitFrame k fl a b vp vs m s).errSample = s.errSample := rfl
@[simp] theorem emitFrame_sink (k : FrameKind) (fl : BitVec 8) (a b : Nat) (vp vs : BitVec 64) (m : Nat) :
    (emitFrame k fl a b vp vs m s).sink = s.sink ++ [⟨k, fl, a, b, vp, vs⟩] := rfl
@[simp] theorem emitFrame_outcome (k : FrameKind) (fl : BitVec 8) (a b : Nat) (vp vs : BitVec 64) (m : Nat) :
    (emitFrame k fl a b vp vs m s).outcome = s.outcome := rfl
@[simp] theorem emitFrame_atEnd (k : FrameKind) (fl : BitVec 8) (a b : Nat) (vp vs : BitVec 64) (m : Nat) :
    (emitFrame k fl a b vp vs m s).atEnd = s.atEnd := rfl
@[simp] theorem emitFrame_clk (k : FrameKind) (fl : BitVec 8) (a b : Nat) (vp vs : BitVec 64) (m : Nat) (i : Nat) :
    (emitFrame k fl a b vp vs m s).clk i = s.clk i := rfl
@[simp] theorem emitFrame_dat (k : FrameKind) (fl : BitVec 8) (a b : Nat) (vp vs : BitVec 64) (m : Nat) (i : Nat) :
    (emitFrame k fl a b vp vs m s).dat i = s.dat i := rfl
@[simp] theorem emitFrame_horizon (k : FrameKind) (fl : BitVec 8) (a b : Nat) (vp vs : BitVec 64) (m : Nat) : (emitFrame k fl a b vp vs m s).horizon = s.horizon := rfl
@[simp] theorem emitFrame_refEdge (k : FrameKind) (fl : BitVec 8) (a b : Nat) (vp vs : BitVec 64) (m : Nat) (x : Nat) :
    refEdge (emitFrame k fl a b vp vs m s) x = refEdge s x := rfl
@[simp] theorem emitFrame_interruptedIn (k : FrameKind) (fl : BitVec 8) (a b : Nat) (vp vs : BitVec 64) (m : Nat) (x y : Nat) :
    interruptedIn (emitFrame k fl a b vp vs m s) x y = interruptedIn s x y := rfl
@[simp] theorem emitFrame_tapLevel (k : FrameKind) (fl : BitVec 8) (a b : Nat) (vp vs : BitVec 64) (m : Nat) (x : Nat) :
    tapLevel (emitFrame k fl a b vp vs m s) x = tapLevel s x := rfl
@[simp] theorem emitFrame_lastNode (k : FrameKind) (fl : BitVec 8) (a b : Nat) (vp vs : BitVec 64) (m : Nat) : (emitFrame k fl a b vp vs m s).lastNode = s.lastNode := rfl
@[simp] theorem emitFrame_noWinnerFlag (k : FrameKind) (fl : BitVec 8) (a b : Nat) (vp vs : BitVec 64) (m : Nat) :
    noWinnerFlag (emitFrame k fl a b vp vs m s) = noWinnerFlag s := rfl

/-! ## `withCapture` -/

@[simp] theorem withCapture_cfg (cap : Capture) : (s.withCapture cap).cfg = s.cfg := rfl
@[simp] theorem withCapture_capture (cap : Capture) : (s.withCapture cap).capture = cap := rfl
@[simp] theorem withCapture_stop (cap : Capture) : (s.withCapture cap).stop = s.stop := rfl
@[simp] theorem withCapture_phase (cap : Capture) : (s.withCapture cap).phase = s.phase := rfl
@[simp] theorem withCapture_nodes (cap : Capture) : (s.withCapture cap).nodes = s.nodes := rfl
@[simp] theorem withCapture_txValid (cap : Capture) : (s.withCapture cap).txValid = s.txValid := rfl
@[simp] theorem withCapture_tx (cap : Capture) : (s.withCapture cap).tx = s.tx := rfl
@[simp] theorem withCapture_firstReq (cap : Capture) : (s.withCapture cap).firstReq = s.firstReq := rfl
@[simp] theorem withCapture_mark (cap : Capture) : (s.withCapture cap).mark = s.mark := rfl
@[simp] theorem withCapture_lastLatch (cap : Capture) : (s.withCapture cap).lastLatch = s.lastLatch := rfl
@[simp] theorem withCapture_intPending (cap : Capture) : (s.withCapture cap).intPending = s.intPending := rfl
@[simp] theorem withCapture_intEnd (cap : Capture) : (s.withCapture cap).intEnd = s.intEnd := rfl
@[simp] theorem withCapture_cb0 (cap : Capture) : (s.withCapture cap).cb0 = s.cb0 := rfl
@[simp] theorem withCapture_errCode (cap : Capture) : (s.withCapture cap).errCode = s.errCode := rfl
@[simp] theorem withCapture_errSample (cap : Capture) : (s.withCapture cap).errSample = s.errSample := rfl
@[simp] theorem withCapture_sink (cap : Capture) : (s.withCapture cap).sink = s.sink := rfl
@[simp] theorem withCapture_outcome (cap : Capture) : (s.withCapture cap).outcome = s.outcome := rfl
@[simp] theorem withCapture_atEnd (cap : Capture) : (s.withCapture cap).atEnd = s.atEnd := rfl
@[simp] theorem withCapture_lastNode (cap : Capture) : (s.withCapture cap).lastNode = s.lastNode := rfl
@[simp] theorem withCapture_noWinnerFlag (cap : Capture) :
    noWinnerFlag (s.withCapture cap) = noWinnerFlag s := rfl

/-! ## `allAt` -/

@[simp] theorem allAt_cfg (p : Nat) : (s.allAt p).cfg = s.cfg := rfl
@[simp] theorem allAt_capture (p : Nat) : (s.allAt p).capture = s.capture := rfl
@[simp] theorem allAt_stop (p : Nat) : (s.allAt p).stop = s.stop := rfl
@[simp] theorem allAt_phase (p : Nat) : (s.allAt p).phase = s.phase := rfl
@[simp] theorem allAt_nodes (p : Nat) : (s.allAt p).nodes = List.replicate s.cfg.n ⟨p, p⟩ := rfl
@[simp] theorem allAt_txValid (p : Nat) : (s.allAt p).txValid = s.txValid := rfl
@[simp] theorem allAt_tx (p : Nat) : (s.allAt p).tx = s.tx := rfl
@[simp] theorem allAt_firstReq (p : Nat) : (s.allAt p).firstReq = s.firstReq := rfl
@[simp] theorem allAt_mark (p : Nat) : (s.allAt p).mark = s.mark := rfl
@[simp] theorem allAt_lastLatch (p : Nat) : (s.allAt p).lastLatch = s.lastLatch := rfl
@[simp] theorem allAt_intPending (p : Nat) : (s.allAt p).intPending = s.intPending := rfl
@[simp] theorem allAt_intEnd (p : Nat) : (s.allAt p).intEnd = s.intEnd := rfl
@[simp] theorem allAt_cb0 (p : Nat) : (s.allAt p).cb0 = s.cb0 := rfl
@[simp] theorem allAt_errCode (p : Nat) : (s.allAt p).errCode = s.errCode := rfl
@[simp] theorem allAt_errSample (p : Nat) : (s.allAt p).errSample = s.errSample := rfl
@[simp] theorem allAt_sink (p : Nat) : (s.allAt p).sink = s.sink := rfl
@[simp] theorem allAt_outcome (p : Nat) : (s.allAt p).outcome = s.outcome := rfl
@[simp] theorem allAt_atEnd (p : Nat) : (s.allAt p).atEnd = s.atEnd := rfl
@[simp] theorem allAt_clk (p : Nat) (i : Nat) :
    (s.allAt p).clk i = s.clk i := rfl
@[simp] theorem allAt_dat (p : Nat) (i : Nat) :
    (s.allAt p).dat i = s.dat i := rfl
@[simp] theorem allAt_horizon (p : Nat) : (s.allAt p).horizon = s.horizon := rfl
@[simp] theorem allAt_refEdge (p : Nat) (x : Nat) :
    refEdge (s.allAt p) x = refEdge s x := rfl
@[simp] theorem allAt_interruptedIn (p : Nat) (x y : Nat) :
    interruptedIn (s.allAt p) x y = interruptedIn s x y := rfl
@[simp] theorem allAt_tapLevel (p : Nat) (x : Nat) :
    tapLevel (s.allAt p) x = tapLevel s x := rfl
@[simp] theorem allAt_lastNode (p : Nat) : (s.allAt p).lastNode = s.lastNode := rfl
@[simp] theorem allAt_noWinnerFlag (p : Nat) :
    noWinnerFlag (s.allAt p) = noWinnerFlag s := rfl

end

end Sys2Proof.Machine
end

