-- ==== Sys2Proof/Laws/Capture.lean ====
section
/-! SUPPORT. What the capture primitives answer, and that the capture keeps its canonical form. -/

namespace Sys2Proof.Machine

open Sys2Proof

/-! ## Primitives -/

theorem level_of_le {h s : Nat} (ch : Channel) (hs : s ≤ h) :
    level h ch s = some (ch.levelAt s) := by
  unfold level
  rw [if_pos hs]

theorem countIn_eq_zero_of_le (ch : Channel) {p q : Nat} (h : q ≤ p) : ch.countIn p q = 0 := by
  simp only [Channel.countIn, List.countP_eq_zero, Bool.and_eq_true, decide_eq_true_eq]
  rintro t - ⟨h1, h2⟩
  omega

/-- Rule R54, on samples the capture knows. -/
theorem count_of_le {h q : Nat} (ch : Channel) (p : Nat) (hq : q ≤ h) :
    count h ch p q = some (ch.countIn p q) := by
  unfold count
  rw [if_pos hq]
  split
  · rename_i hle
    rw [countIn_eq_zero_of_le ch hle]
  · rfl

/-- What `NextEdge` answers: a transition after `p` within the horizon. -/
theorem nextEdge_some {h p t : Nat} {ch : Channel} (he : nextEdge h ch p = some t) :
    t ∈ ch.trans ∧ p < t ∧ t ≤ h := by
  unfold nextEdge at he
  split at he
  · cases he
  · rename_i u hu
    split at he
    · rename_i hle
      cases he
      exact ⟨List.mem_of_find?_eq_some hu, by simpa using List.find?_some hu, hle⟩
    · cases he

/-- A counted transition is a transition in the window. -/
theorem countIn_pos_iff (ch : Channel) (p q : Nat) :
    0 < ch.countIn p q ↔ ∃ t ∈ ch.trans, p < t ∧ t ≤ q := by
  simp [Channel.countIn, List.countP_pos_iff]

/-! ## Rising lists -/

theorem risesFrom_iff (low : Nat) (ts : List Nat) :
    risesFrom low ts = true ↔ (∀ t ∈ ts, low < t) ∧ ts.Pairwise (· < ·) := by
  induction ts generalizing low with
  | nil => simp [risesFrom]
  | cons t rest ih =>
    simp only [risesFrom, Bool.and_eq_true, decide_eq_true_eq, ih, List.mem_cons, forall_eq_or_imp,
      List.pairwise_cons]
    constructor
    · rintro ⟨h, h1, h2⟩
      exact ⟨⟨h, fun u hu => lt_trans h (h1 u hu)⟩, h1, h2⟩
    · rintro ⟨⟨h, -⟩, h1, h2⟩
      exact ⟨h, h1, h2⟩

theorem Channel.wf_iff (h : Nat) (ch : Channel) :
    ch.wf h = true ↔
      (∀ t ∈ ch.trans, 0 < t ∧ t ≤ h) ∧ ch.trans.Pairwise (· < ·) := by
  simp only [Channel.wf, Bool.and_eq_true, risesFrom_iff, List.all_eq_true, decide_eq_true_eq]
  constructor
  · rintro ⟨⟨h1, h2⟩, h3⟩
    exact ⟨fun t ht => ⟨h1 t ht, h3 t ht⟩, h2⟩
  · rintro ⟨h1, h2⟩
    exact ⟨⟨fun t ht => (h1 t ht).1, h2⟩, fun t ht => (h1 t ht).2⟩

theorem Channel.idle_wf (h : Nat) : Channel.idle.wf h = true := rfl

/-- On a rising list the first transition after `p` is the least. -/
theorem find?_least_of_pairwise {ts : List Nat} (hp : ts.Pairwise (· < ·)) {p t : Nat}
    (h : ts.find? (fun t => decide (p < t)) = some t) : ∀ u ∈ ts, p < u → t ≤ u := by
  induction ts with
  | nil => simp at h
  | cons a rest ih =>
    rw [List.pairwise_cons] at hp
    rw [List.find?_cons] at h
    split at h
    · cases h
      intro u hu _
      rcases List.mem_cons.1 hu with rfl | hu
      · exact le_refl _
      · exact le_of_lt (hp.1 u hu)
    · rename_i hna
      intro u hu hpu
      rcases List.mem_cons.1 hu with rfl | hu
      · simp [hpu] at hna
      · exact ih hp.2 h u hu hpu

/-- Rule R53 on a well-formed channel: `NextEdge` answers the least transition after `p`. -/
theorem nextEdge_least {h p t : Nat} {ch : Channel} (hw : ch.wf h = true)
    (he : nextEdge h ch p = some t) : ∀ u ∈ ch.trans, p < u → t ≤ u := by
  unfold nextEdge at he
  split at he
  · cases he
  · rename_i u hu
    split at he
    · cases he
      exact find?_least_of_pairwise ((Channel.wf_iff h ch).1 hw).2 hu
    · cases he

/-- On a well-formed channel, `NextEdge` answers whenever there is a transition after `p`. -/
theorem nextEdge_isSome {h p t : Nat} {ch : Channel} (hw : ch.wf h = true)
    (ht : t ∈ ch.trans) (hpt : p < t) : ∃ d, nextEdge h ch p = some d := by
  unfold nextEdge
  split
  · rename_i hn
    have := List.find?_eq_none.1 hn t ht
    simp [hpt] at this
  · rename_i u hu
    have := (((Channel.wf_iff h ch).1 hw).1 u (List.mem_of_find?_eq_some hu)).2
    simp [this]

/-- With no transition in `(p, q]`, the next edge lies after `q`. -/
theorem lt_nextEdge_of_countIn_eq_zero {h p q t : Nat} {ch : Channel}
    (hc : ch.countIn p q = 0) (he : nextEdge h ch p = some t) : q < t := by
  by_contra hle
  obtain ⟨hm, hp, -⟩ := nextEdge_some he
  have : 0 < ch.countIn p q := (countIn_pos_iff ch p q).2 ⟨t, hm, hp, by omega⟩
  omega

/-! ## Channels of a well-formed capture -/

theorem Capture.signal_wf {cap : Capture} (h : cap.wf = true) (j : Nat) :
    (cap.signal j).wf cap.horizon = true := by
  simp only [Capture.wf, Bool.and_eq_true, List.all_eq_true] at h
  unfold Capture.signal
  rw [List.getD_eq_getElem?_getD]
  cases hj : cap.signals[j]? with
  | none => rfl
  | some ch => exact h.2 ch (List.mem_of_getElem? hj)

theorem Capture.bound_wf {cap : Capture} (h : cap.wf = true) (b : List Nat) (i : Nat) :
    (cap.bound b i).wf cap.horizon = true := by
  unfold Capture.bound
  split
  · exact Capture.signal_wf h _
  · rfl

theorem Capture.wf_of_admittedFor {cap : Capture} {cfg : Config}
    (h : cap.admittedFor cfg = true) : cap.wf = true := by
  simp only [Capture.admittedFor, Bool.and_eq_true] at h
  exact h.1.1

theorem clk_wf {s : State} (h : s.capture.admittedFor s.cfg = true) (i : Nat) :
    (s.clk i).wf s.horizon = true := Capture.bound_wf (Capture.wf_of_admittedFor h) _ i

theorem dat_wf {s : State} (h : s.capture.admittedFor s.cfg = true) (i : Nat) :
    (s.dat i).wf s.horizon = true := Capture.bound_wf (Capture.wf_of_admittedFor h) _ i

/-! ## The canonical form is kept -/

/-- Rule R56: an extension the host may make keeps the canonical form of rule R51. -/
theorem Capture.extend_wf {cap : Capture} {h' : Nat} {more : List (List Nat)}
    (hw : cap.wf = true) (hm : cap.mayExtend h' more = true) :
    (cap.extend h' more).wf = true := by
  simp only [Capture.mayExtend, Bool.and_eq_true, decide_eq_true_eq, List.all_eq_true] at hm
  obtain ⟨⟨⟨⟨-, hlt⟩, hmax⟩, -⟩, hmore⟩ := hm
  simp only [Capture.wf, Bool.and_eq_true, decide_eq_true_eq, List.all_eq_true] at hw
  simp only [Capture.wf, Capture.extend, Bool.and_eq_true, List.all_eq_true]
  refine ⟨decide_eq_true hmax, ?_⟩
  intro ch hch
  obtain ⟨j, hj⟩ := List.getElem?_of_mem hch
  rw [List.getElem?_zipWith] at hj
  cases ha : cap.signals[j]? with
  | none => simp [ha] at hj
  | some a =>
    cases hb : more[j]? with
    | none => simp [ha, hb] at hj
    | some b =>
      simp only [ha, hb, Option.some.injEq] at hj
      subst hj
      have h1 := (Channel.wf_iff _ _).1 (hw.2 a (List.mem_of_getElem? ha))
      have h2 := hmore b (List.mem_of_getElem? hb)
      rw [risesFrom_iff] at h2
      obtain ⟨⟨h3, h4⟩, h5⟩ := h2
      rw [Channel.wf_iff]
      simp only [Channel.append, List.mem_append, List.pairwise_append]
      refine ⟨?_, h1.2, h4, ?_⟩
      · rintro t (ht | ht)
        · exact ⟨(h1.1 t ht).1, le_of_lt (lt_of_le_of_lt (h1.1 t ht).2 hlt)⟩
        · exact ⟨lt_of_le_of_lt (Nat.zero_le _) (h3 t ht), h5 t ht⟩
      · intro t ht u hu
        exact lt_of_le_of_lt (h1.1 t ht).2 (h3 u hu)

/-- The capture in the reset state has the canonical form. -/
theorem reset_capture_wf : State.reset.capture.wf = true := by decide

/-- Setting `final` keeps the canonical form. -/
theorem Capture.setFinal_wf {cap : Capture} (hw : cap.wf = true) :
    ({ cap with final := true } : Capture).wf = true := hw

end Sys2Proof.Machine
end

