-- ==== Sys2Proof/Laws/Bus.lean ====
section
/-! SUPPORT. What the bus-wide operations answer: one lemma per shared operation, and its form in
lock-step. -/

namespace Sys2Proof.Machine

open Sys2Proof

/-! ## One cursor -/

/-- Rules R59 and R61: what `advance_to` answers. -/
theorem advanceTo_some {h pos target p' : Nat} {ch : Channel} {m : Nat}
    (ha : advanceTo h ch pos target = some (p', m)) :
    p' = max pos target ∧ m = ch.countIn pos target ∧ (target ≤ pos ∨ target ≤ h) := by
  unfold advanceTo at ha
  split at ha
  · rename_i hle
    cases ha
    exact ⟨by omega, (countIn_eq_zero_of_le ch hle).symm, .inl hle⟩
  · split at ha
    · cases ha
    · rename_i h1 h2
      rw [count_of_le ch pos (by omega : target ≤ h)] at ha
      simp only [Option.bind_eq_bind, Option.bind_some, Option.some.injEq, Prod.mk.injEq] at ha
      obtain ⟨rfl, rfl⟩ := ha
      exact ⟨by omega, rfl, .inr (by omega)⟩

theorem advanceTo_of_le {h target : Nat} (ch : Channel) (pos : Nat) (ht : target ≤ h) :
    advanceTo h ch pos target = some (max pos target, ch.countIn pos target) := by
  unfold advanceTo
  split
  · rename_i hle
    rw [countIn_eq_zero_of_le ch hle, max_eq_left hle]
  · rw [if_neg (by omega), count_of_le ch pos ht]
    simp only [Option.bind_eq_bind, Option.bind_some]
    rw [max_eq_right (by omega)]

/-! ## All cursors -/

/-- The cursors after `advance_all_to(target)`. -/
def movedTo (target : Nat) (nd : NodeCursors) : NodeCursors :=
  { clkPos := max nd.clkPos target, datPos := max nd.datPos target }

/-- Rule R62, in full: what the loop of `advance_all_to` answers. -/
theorem advanceNodes_some {s : State} {target : Nat} {i : Nat} {nds nds' : List NodeCursors}
    {b : Bool} (ha : advanceNodes s target i nds = some (nds', b)) :
    nds' = nds.map (movedTo target) ∧
      (b = true ↔ ∃ j nd, nds[j]? = some nd ∧
        s.cfg.intThreshold < (s.dat (i + j)).countIn nd.datPos target) := by
  induction nds generalizing i nds' b with
  | nil =>
    simp only [advanceNodes, Option.some.injEq, Prod.mk.injEq] at ha
    obtain ⟨rfl, rfl⟩ := ha
    simp
  | cons nd rest ih =>
    simp only [advanceNodes, Option.bind_eq_bind, Option.bind_eq_some_iff, Prod.exists,
      Option.some.injEq, Prod.mk.injEq] at ha
    obtain ⟨c, mc, hc, d, md, hd, r, br, hr, rfl, rfl⟩ := ha
    obtain ⟨rfl, -, -⟩ := advanceTo_some hc
    obtain ⟨rfl, rfl, -⟩ := advanceTo_some hd
    obtain ⟨rfl, hb⟩ := ih hr
    refine ⟨by simp [movedTo], ?_⟩
    simp only [Bool.or_eq_true, decide_eq_true_eq, hb]
    constructor
    · rintro (h | ⟨j, x, hj, hx⟩)
      · exact ⟨0, nd, by simp, by simpa using h⟩
      · exact ⟨j + 1, x, by simpa using hj, by rw [← Nat.add_assoc, Nat.add_right_comm]; exact hx⟩
    · rintro ⟨j, x, hj, hx⟩
      cases j with
      | zero =>
        simp only [List.getElem?_cons_zero, Option.some.injEq] at hj
        subst hj
        exact .inl (by simpa using hx)
      | succ j =>
        refine .inr ⟨j, x, by simpa using hj, ?_⟩
        rwa [← Nat.add_assoc, Nat.add_right_comm] at hx

theorem advanceNodes_isSome {s : State} {target : Nat} (ht : target ≤ s.horizon) (i : Nat)
    (nds : List NodeCursors) : ∃ r, advanceNodes s target i nds = some r := by
  induction nds generalizing i with
  | nil => exact ⟨_, rfl⟩
  | cons nd rest ih =>
    obtain ⟨⟨r, b⟩, hr⟩ := ih (i + 1)
    simp only [advanceNodes, advanceTo_of_le _ _ ht, hr, Option.bind_eq_bind, Option.bind_some]
    exact ⟨_, rfl⟩

/-- Rule R62: what `advance_all_to` answers. -/
theorem advanceAllTo_some {s t : State} {target : Nat} {b : Bool}
    (ha : advanceAllTo target s = some (t, b)) :
    t = s.setNodes (s.nodes.map (movedTo target)) ∧
      (b = true ↔ ∃ j nd, s.nodes[j]? = some nd ∧
        s.cfg.intThreshold < (s.dat j).countIn nd.datPos target) := by
  simp only [advanceAllTo, Option.bind_eq_bind, Option.bind_eq_some_iff, Prod.exists,
    Option.some.injEq, Prod.mk.injEq] at ha
  obtain ⟨ns, b', hn, rfl, rfl⟩ := ha
  obtain ⟨rfl, hb⟩ := advanceNodes_some hn
  exact ⟨rfl, by simpa using hb⟩

/-! ## In lock-step -/

theorem LockStep.datPos {s : State} {p : Nat} (h : LockStep s p) {i : Nat} (hi : i < s.cfg.n) :
    s.datPos i = p := by
  unfold State.datPos
  rw [h, List.getD_eq_getElem?_getD, List.getElem?_replicate, if_pos hi]
  rfl

theorem LockStep.clkPos {s : State} {p : Nat} (h : LockStep s p) {i : Nat} (hi : i < s.cfg.n) :
    s.clkPos i = p := by
  unfold State.clkPos
  rw [h, List.getD_eq_getElem?_getD, List.getElem?_replicate, if_pos hi]
  rfl

theorem lastNode_lt {s : State} (h : s.cfg.wf = true) : s.lastNode < s.cfg.n := by
  simp only [Config.wf, Bool.and_eq_true, decide_eq_true_eq] at h
  simp only [State.lastNode, Config.lastNode]
  omega

theorem lockStep_allAt (s : State) (p : Nat) : LockStep (s.allAt p) p := rfl

theorem lockStep_latch {s : State} {p e : Nat} (h : LockStep s p) : LockStep (s.latch e) p := h

theorem lockStep_setPending {s : State} {p e : Nat} (h : LockStep s p) :
    LockStep (s.setPending e) p := h

theorem allAt_of_lockStep {s : State} {p : Nat} (h : LockStep s p) : s.allAt p = s := by
  unfold State.allAt State.setNodes
  rw [← h]

theorem allAt_allAt (s : State) (p q : Nat) : (s.allAt p).allAt q = s.allAt q := rfl

/-- Rule R62 in lock-step: every cursor goes to the target, and the interruption is that of rule
R96. -/
theorem advanceAllTo_lockStep {s : State} {p e : Nat} (h : LockStep s p) (hpe : p ≤ e)
    (he : e ≤ s.horizon) : advanceAllTo e s = some (s.allAt e, interruptedIn s p e) := by
  obtain ⟨⟨ns, b⟩, hn⟩ := advanceNodes_isSome he 0 s.nodes
  have hall : advanceAllTo e s = some (s.setNodes ns, b) := by
    simp [advanceAllTo, hn]
  obtain ⟨h1, h2⟩ := advanceAllTo_some hall
  rw [hall]
  have hns : ns = List.replicate s.cfg.n ⟨e, e⟩ := by
    have := congrArg State.nodes h1
    simp only [setNodes_nodes] at this
    rw [this, h, List.map_replicate]
    simp [movedTo, max_eq_right hpe]
  subst hns
  congr 2
  rw [Bool.eq_iff_iff, h2, interruptedIn, List.any_eq_true, h]
  constructor
  · rintro ⟨j, nd, hj, hlt⟩
    rw [List.getElem?_replicate] at hj
    split at hj
    · rename_i hjn
      cases hj
      exact ⟨j, List.mem_range.2 hjn, by simpa using hlt⟩
    · cases hj
  · rintro ⟨j, hj, hlt⟩
    have hjn := List.mem_range.1 hj
    exact ⟨j, ⟨p, p⟩, by rw [List.getElem?_replicate, if_pos hjn], by simpa using hlt⟩

theorem peekClkEdge_lockStep {s : State} {p : Nat} (hw : s.cfg.wf = true) (h : LockStep s p) :
    peekClkEdge s = refEdge s p := by
  unfold peekClkEdge refEdge
  rw [h.clkPos (lastNode_lt hw)]

theorem refEdge_some {s : State} {p e : Nat} (h : refEdge s p = some e) :
    p < e ∧ e ≤ s.horizon := (nextEdge_some h).2

/-- Rule R63 in lock-step. -/
theorem clkEdge_lockStep {s : State} {p e : Nat} (hw : s.cfg.wf = true) (h : LockStep s p)
    (he : refEdge s p = some e) : clkEdge s = some (e, interruptedIn s p e, s.allAt e) := by
  obtain ⟨h1, h2⟩ := refEdge_some he
  simp [clkEdge, peekClkEdge_lockStep hw h, he, advanceAllTo_lockStep h (le_of_lt h1) h2]

theorem clkEdge_lockStep_none {s : State} {p : Nat} (hw : s.cfg.wf = true) (h : LockStep s p)
    (he : refEdge s p = none) : clkEdge s = none := by
  simp [clkEdge, peekClkEdge_lockStep hw h, he]

/-- What `ClkEdge` answers from any state (rule R63). -/
theorem clkEdge_some {s t : State} {e : Nat} {b : Bool} (h : clkEdge s = some (e, b, t)) :
    peekClkEdge s = some e ∧ t = s.setNodes (s.nodes.map (movedTo e)) ∧
      (b = true ↔ ∃ j nd, s.nodes[j]? = some nd ∧
        s.cfg.intThreshold < (s.dat j).countIn nd.datPos e) := by
  simp only [clkEdge, Option.bind_eq_bind, Option.bind_eq_some_iff, Prod.exists,
    Option.some.injEq, Prod.mk.injEq] at h
  obtain ⟨e', he, t', b', ha, rfl, rfl, rfl⟩ := h
  obtain ⟨h1, h2⟩ := advanceAllTo_some ha
  exact ⟨he, h1, h2⟩

/-- What `ClkEdge` answers in lock-step. -/
theorem clkEdge_some_lockStep {s t : State} {p e : Nat} {b : Bool} (hw : s.cfg.wf = true)
    (h : LockStep s p) (hc : clkEdge s = some (e, b, t)) :
    refEdge s p = some e ∧ b = interruptedIn s p e ∧ t = s.allAt e ∧ p < e ∧ e ≤ s.horizon := by
  have hr : refEdge s p = some e := by
    rw [← peekClkEdge_lockStep hw h]
    exact (clkEdge_some hc).1
  rw [clkEdge_lockStep hw h hr] at hc
  simp only [Option.some.injEq, Prod.mk.injEq] at hc
  obtain ⟨-, rfl, rfl⟩ := hc
  exact ⟨hr, rfl, rfl, refEdge_some hr⟩

theorem bitAt_of_le {s : State} {e : Nat} (h : e ≤ s.horizon) :
    bitAt s e = some (tapLevel s e) := level_of_le _ h

theorem levelsAt_of_le {s : State} {e : Nat} (h : e ≤ s.horizon) :
    levelsAt s e = some (s.datLevels e) := by simp [levelsAt, h]

/-! ## How a step ends -/

@[simp] theorem finishStep_some (s t : State) : finishStep s (some t) = .next t := rfl

@[simp] theorem finishStep_none (s : State) : finishStep s none = .next s.withHold := rfl

/-- A phase operation always answers a next state. -/
theorem finishStep_next (s : State) (r : Option State) : ∃ t, finishStep s r = .next t := by
  cases r <;> exact ⟨_, rfl⟩

/-- Either the operation completed (or faulted), or the step held (rules R14 and R15). -/
theorem finishStep_eq_next {s t : State} {r : Option State} (h : finishStep s r = .next t) :
    r = some t ∨ (r = none ∧ t = s.withHold) := by
  cases r with
  | none => exact .inr ⟨rfl, by simpa using h.symm⟩
  | some u => exact .inl (by simpa using h)

end Sys2Proof.Machine
end

