-- ==== Sys2Proof/Laws/PerInstr.lean ====
section
/-! SUPPORT. The family `CodeRoundTrip`: what a well-formed operation's byte decodes to, one lemma per
constructor (spec/30_encoding.md rule R103). -/

namespace Sys2Proof

/-- The low and the high nibble of the byte a phase code is laid out in. -/
theorem nibbles_of_code (c : BitVec 4) :
    (c.setWidth 8 : Byte).extractLsb' 4 4 = 0#4 ∧ (c.setWidth 8 : Byte).extractLsb' 0 4 = c := by
  revert c
  decide

/-- The decoder on one byte laid out from a phase code. -/
theorem decodeBytes_code (c : BitVec 4) (rest : List Byte) :
    decodeBytes (c.setWidth 8 :: rest) = .ok (decode c, rest) := by
  simp only [decodeBytes, (nibbles_of_code c).1, (nibbles_of_code c).2, if_true]

/-- A byte with a zero high nibble is the one laid out from its low nibble. -/
theorem byte_of_low_nibble (b : Byte) (h : b.extractLsb' 4 4 = 0#4) :
    b = (b.extractLsb' 0 4).setWidth 8 := by
  revert b
  decide

/-- Every 4-bit value decodes to a well-formed operation that has this code (rule R103). -/
theorem code_of_decode (c : BitVec 4) : encodePhase (decode c) = c ∧ (decode c).wf = true := by
  revert c
  decide

/-- A well-formed operation's code decodes to it, and so does its byte, whatever follows. -/
def Laws.CodeRoundTrip.Statement (i : Instr) : Prop :=
  i.wf = true →
    decode (encodePhase i) = i ∧ ∀ rest, decodeBytes (encode i ++ rest) = .ok (i, rest)

theorem roundTrip_of_decode {i : Instr} (h : decode (encodePhase i) = i) :
    decode (encodePhase i) = i ∧ ∀ rest, decodeBytes (encode i ++ rest) = .ok (i, rest) :=
  ⟨h, fun rest => by
    rw [encode, List.singleton_append, decodeBytes_code, h]⟩

theorem Laws.CodeRoundTrip.request : Laws.CodeRoundTrip.Statement .request :=
  fun _ => roundTrip_of_decode (by decide)

theorem Laws.CodeRoundTrip.arbitration : Laws.CodeRoundTrip.Statement .arbitration :=
  fun _ => roundTrip_of_decode (by decide)

theorem Laws.CodeRoundTrip.priority : Laws.CodeRoundTrip.Statement .priority :=
  fun _ => roundTrip_of_decode (by decide)

theorem Laws.CodeRoundTrip.reserved : Laws.CodeRoundTrip.Statement .reserved :=
  fun _ => roundTrip_of_decode (by decide)

theorem Laws.CodeRoundTrip.address : Laws.CodeRoundTrip.Statement .address :=
  fun _ => roundTrip_of_decode (by decide)

theorem Laws.CodeRoundTrip.data : Laws.CodeRoundTrip.Statement .data :=
  fun _ => roundTrip_of_decode (by decide)

theorem Laws.CodeRoundTrip.control0 : Laws.CodeRoundTrip.Statement .control0 :=
  fun _ => roundTrip_of_decode (by decide)

theorem Laws.CodeRoundTrip.control1 : Laws.CodeRoundTrip.Statement .control1 :=
  fun _ => roundTrip_of_decode (by decide)

theorem Laws.CodeRoundTrip.halted : Laws.CodeRoundTrip.Statement .halted :=
  fun _ => roundTrip_of_decode (by decide)

theorem Laws.CodeRoundTrip.fault : Laws.CodeRoundTrip.Statement .fault :=
  fun _ => roundTrip_of_decode (by decide)

theorem Laws.CodeRoundTrip.reservedPhase101x (code : BitVec 4) :
    Laws.CodeRoundTrip.Statement (.reservedPhase101x code) :=
  fun h => roundTrip_of_decode (by revert h; revert code; decide)

theorem Laws.CodeRoundTrip.reservedPhase11xx (code : BitVec 4) :
    Laws.CodeRoundTrip.Statement (.reservedPhase11xx code) :=
  fun h => roundTrip_of_decode (by revert h; revert code; decide)

end Sys2Proof
end

