-- ==== Sys2Proof/Laws/Step.lean ====
section
/-! SUPPORT. The dispatch of a step by the value of the phase register. -/

namespace Sys2Proof.Machine

open Sys2Proof

/-- What each code selects (rules R80 and R81). -/
theorem decode_cases (c : BitVec 4) :
    (c = 0#4 ∧ decode c = .request) ∨ (c = 1#4 ∧ decode c = .arbitration) ∨
    (c = 2#4 ∧ decode c = .priority) ∨ (c = 3#4 ∧ decode c = .reserved) ∨
    (c = 4#4 ∧ decode c = .address) ∨ (c = 5#4 ∧ decode c = .data) ∨
    (c = 6#4 ∧ decode c = .control0) ∨ (c = 7#4 ∧ decode c = .control1) ∨
    (c = 8#4 ∧ decode c = .halted) ∨ (c = 9#4 ∧ decode c = .fault) ∨
    (10#4 ≤ c ∧
      (decode c = .reservedPhase101x c ∨ decode c = .reservedPhase11xx c)) := by
  revert c
  decide

/-- Rule R209, the condition: `stop` takes the step unless the phase is HALTED or FAULT. -/
theorem stopTakes_fetch (s : State) :
    stopTakes s (fetch s) = true ↔ s.stop = true ∧ s.phase ≠ 8#4 ∧ s.phase ≠ 9#4 := by
  unfold fetch
  rcases decode_cases s.phase with
    ⟨h, hd⟩ | ⟨h, hd⟩ | ⟨h, hd⟩ | ⟨h, hd⟩ | ⟨h, hd⟩ | ⟨h, hd⟩ | ⟨h, hd⟩ | ⟨h, hd⟩ | ⟨h, hd⟩ |
      ⟨h, hd⟩ | ⟨h, hd | hd⟩
  all_goals rw [hd]
  all_goals try simp only [h, stopTakes]
  all_goals try simp
  all_goals
    rintro -
    constructor <;> (intro h'; rw [h'] at h; revert h; decide)

/-- A step that `stop` takes. -/
theorem step_of_stop {s : State} (hs : s.stop = true) (h8 : s.phase ≠ 8#4) (h9 : s.phase ≠ 9#4) :
    step s = .next (enterHalted s) := by
  unfold step
  rw [if_pos ((stopTakes_fetch s).2 ⟨hs, h8, h9⟩)]

/-- A step that `stop` does not take. -/
theorem step_of_not_stop {s : State} (h : s.stop = false ∨ s.phase = 8#4 ∨ s.phase = 9#4) :
    step s = exec (decode s.phase) s := by
  unfold step
  rw [if_neg]
  · rfl
  · rw [stopTakes_fetch]
    rintro ⟨h1, h2, h3⟩
    rcases h with h | h | h
    · rw [h] at h1; cases h1
    · exact h2 h
    · exact h3 h

/-- Everything a step can be: a no-step in HALTED or FAULT, the entry into HALTED, the fault of a
reserved code, or one of the eight phase operations. -/
theorem step_cases {s t : State} (h : step s = .next t) :
    ((s.phase = 8#4 ∨ s.phase = 9#4) ∧ t = s.withOutcome .noStep) ∨
    (s.stop = true ∧ s.phase ≠ 8#4 ∧ s.phase ≠ 9#4 ∧ t = enterHalted s) ∨
    (s.stop = false ∧ 10#4 ≤ s.phase ∧ t = raiseFault .badState (s.clkPos s.lastNode) s) ∨
    (s.stop = false ∧
      ((s.phase = 0#4 ∧ finishStep s (requestPhase s) = .next t) ∨
        (s.phase = 1#4 ∧ finishStep s (arbitrationPhase s) = .next t) ∨
        (s.phase = 2#4 ∧ finishStep s (priorityPhase s) = .next t) ∨
        (s.phase = 3#4 ∧ finishStep s (reservedPhase s) = .next t) ∨
        (s.phase = 4#4 ∧ finishStep s (addressPhase s) = .next t) ∨
        (s.phase = 5#4 ∧ finishStep s (dataPhase s) = .next t) ∨
        (s.phase = 6#4 ∧ finishStep s (control0Phase s) = .next t) ∨
        (s.phase = 7#4 ∧ finishStep s (control1Phase s) = .next t))) := by
  by_cases hs : s.stop = true ∧ s.phase ≠ 8#4 ∧ s.phase ≠ 9#4
  · rw [step_of_stop hs.1 hs.2.1 hs.2.2] at h
    injection h with h
    exact .inr (.inl ⟨hs.1, hs.2.1, hs.2.2, h.symm⟩)
  · have hn : s.stop = false ∨ s.phase = 8#4 ∨ s.phase = 9#4 := by
      by_cases h1 : s.stop = true
      · by_cases h2 : s.phase = 8#4
        · exact .inr (.inl h2)
        · by_cases h3 : s.phase = 9#4
          · exact .inr (.inr h3)
          · exact absurd ⟨h1, h2, h3⟩ hs
      · exact .inl (by simpa using h1)
    rw [step_of_not_stop hn] at h
    have hstop : s.phase ≠ 8#4 → s.phase ≠ 9#4 → s.stop = false := by
      intro h8 h9
      rcases hn with h' | h' | h'
      · exact h'
      · exact absurd h' h8
      · exact absurd h' h9
    rcases decode_cases s.phase with
      ⟨hp, hd⟩ | ⟨hp, hd⟩ | ⟨hp, hd⟩ | ⟨hp, hd⟩ | ⟨hp, hd⟩ | ⟨hp, hd⟩ | ⟨hp, hd⟩ | ⟨hp, hd⟩ |
        ⟨hp, hd⟩ | ⟨hp, hd⟩ | ⟨hp, hd⟩
    · rw [hd] at h
      exact .inr (.inr (.inr ⟨hstop (by rw [hp]; decide) (by rw [hp]; decide), .inl ⟨hp, h⟩⟩))
    · rw [hd] at h
      exact .inr (.inr (.inr ⟨hstop (by rw [hp]; decide) (by rw [hp]; decide),
        .inr (.inl ⟨hp, h⟩)⟩))
    · rw [hd] at h
      exact .inr (.inr (.inr ⟨hstop (by rw [hp]; decide) (by rw [hp]; decide),
        .inr (.inr (.inl ⟨hp, h⟩))⟩))
    · rw [hd] at h
      exact .inr (.inr (.inr ⟨hstop (by rw [hp]; decide) (by rw [hp]; decide),
        .inr (.inr (.inr (.inl ⟨hp, h⟩)))⟩))
    · rw [hd] at h
      exact .inr (.inr (.inr ⟨hstop (by rw [hp]; decide) (by rw [hp]; decide),
        .inr (.inr (.inr (.inr (.inl ⟨hp, h⟩))))⟩))
    · rw [hd] at h
      exact .inr (.inr (.inr ⟨hstop (by rw [hp]; decide) (by rw [hp]; decide),
        .inr (.inr (.inr (.inr (.inr (.inl ⟨hp, h⟩)))))⟩))
    · rw [hd] at h
      exact .inr (.inr (.inr ⟨hstop (by rw [hp]; decide) (by rw [hp]; decide),
        .inr (.inr (.inr (.inr (.inr (.inr (.inl ⟨hp, h⟩))))))⟩))
    · rw [hd] at h
      exact .inr (.inr (.inr ⟨hstop (by rw [hp]; decide) (by rw [hp]; decide),
        .inr (.inr (.inr (.inr (.inr (.inr (.inr ⟨hp, h⟩))))))⟩))
    · rw [hd] at h
      injection h with h
      exact .inl ⟨.inl hp, h.symm⟩
    · rw [hd] at h
      injection h with h
      exact .inl ⟨.inr hp, h.symm⟩
    · have h8 : s.phase ≠ 8#4 := by intro h'; rw [h'] at hp; revert hp; decide
      have h9 : s.phase ≠ 9#4 := by intro h'; rw [h'] at hp; revert hp; decide
      rcases hd with hd | hd
      all_goals
        rw [hd] at h
        injection h with h
        exact .inr (.inr (.inl ⟨hstop h8 h9, hp, h.symm⟩))

end Sys2Proof.Machine
end

