-- ==== Sys2Proof/Laws/Latching.lean ====
section
/-! SUPPORT. Bits, cells and the two bit-latching loops: what one cell of a loop does, and what a run of
quiet cells does. -/

namespace Sys2Proof.Machine

open Sys2Proof

/-! ## The value of a run of bits -/

@[simp] theorem latchedBits_length (s : State) (cells : List BitCell) :
    (latchedBits s cells).length = cells.length := by simp [latchedBits]

@[simp] theorem latchedBits_append (s : State) (as bs : List BitCell) :
    latchedBits s (as ++ bs) = latchedBits s as ++ latchedBits s bs := by simp [latchedBits]

theorem msbValue_append_bit (bits : List Level) (b : Level) :
    msbValue (bits ++ [b]) = 2 * msbValue bits + b.toNat := by
  induction bits with
  | nil => simp [msbValue]
  | cons a rest ih =>
    simp only [List.cons_append, msbValue, ih, List.length_append, List.length_singleton,
      Nat.shiftLeft_eq, pow_succ]
    ring

theorem msbValue_lt (bits : List Level) : msbValue bits < 2 ^ bits.length := by
  induction bits with
  | nil => simp [msbValue]
  | cons a rest ih =>
    have ha : a.toNat ≤ 1 := Bool.toNat_le a
    simp only [msbValue, List.length_cons, Nat.shiftLeft_eq, pow_succ]
    nlinarith [Nat.mul_le_mul_right (2 ^ rest.length) ha]

/-- Shifting a bit into a register that holds the bits so far (rule R70). -/
theorem shiftIn_msbValue (w : Nat) (bits : List Level) (b : Level) :
    shiftIn (BitVec.ofNat w (msbValue bits)) b = BitVec.ofNat w (msbValue (bits ++ [b])) := by
  unfold shiftIn bitField
  rw [msbValue_append_bit]
  apply BitVec.eq_of_getLsbD_eq
  intro i hi
  cases b with
  | false =>
    simp only [BitVec.getLsbD_or, BitVec.getLsbD_shiftLeft, BitVec.getLsbD_ofNat, Bool.toNat_false,
      Nat.add_zero, Nat.zero_testBit, Bool.and_false, Bool.or_false, hi, decide_true, Bool.true_and]
    cases i with
    | zero => simp [Nat.testBit_zero]
    | succ i =>
      have : i < w := by omega
      simp [this, Nat.testBit_succ]
  | true =>
    simp only [BitVec.getLsbD_or, BitVec.getLsbD_shiftLeft, BitVec.getLsbD_ofNat, Bool.toNat_true,
      hi, decide_true, Bool.true_and]
    cases i with
    | zero =>
      simp only [Nat.testBit_zero]
      have h1 : (2 * msbValue bits + 1) % 2 = 1 := by omega
      simp [h1]
    | succ i =>
      have h2 : i < w := by omega
      have h1 : (2 * msbValue bits + 1) / 2 = msbValue bits := by omega
      simp [h2, Nat.testBit_succ, h1]

/-- Rule R91: the marker test on eight latched bits. -/
theorem longMarker_msbValue {bits : List Level} (h : bits.length = 8) :
    longMarker (BitVec.ofNat 32 (msbValue bits)) = true ↔
      bits.take 4 = [HIGH, HIGH, HIGH, HIGH] := by
  match bits, h with
  | [a, b, c, d, e, f, g, i], _ =>
    revert a b c d e f g i
    decide

theorem addressWidth_of_lt {bits : List Level} (h : bits.length < 8) : addressWidth bits = 8 := by
  unfold addressWidth
  rw [if_neg (by omega)]

theorem addressWidth_append {bits : List Level} (h : 8 ≤ bits.length) (more : List Level) :
    addressWidth (bits ++ more) = addressWidth bits := by
  unfold addressWidth
  rw [List.take_append_of_le_length (by omega), List.length_append]
  have h' : 8 ≤ bits.length + more.length := by omega
  simp only [h, h', true_and]

theorem addressWidth_eq (bits : List Level) : addressWidth bits = 8 ∨ addressWidth bits = 32 := by
  unfold addressWidth
  split <;> simp

/-- Rule R162: the width after one more bit, as the loop decides it. -/
theorem addressWidth_snoc (bits : List Level) (b : Level) :
    (if bits.length + 1 = 8 ∧ longMarker (BitVec.ofNat 32 (msbValue (bits ++ [b]))) = true
      then 32 else addressWidth bits) = addressWidth (bits ++ [b]) := by
  rcases Nat.lt_trichotomy (bits.length + 1) 8 with h8 | h8 | h8
  · rw [if_neg (by omega), addressWidth_of_lt (by omega), addressWidth_of_lt (by simp; omega)]
  · have hm := longMarker_msbValue (bits := bits ++ [b]) (by simp; omega)
    have hl : 8 ≤ (bits ++ [b]).length := by simp; omega
    simp only [h8, true_and, hm, addressWidth_of_lt (show bits.length < 8 by omega)]
    unfold addressWidth
    simp only [hl, true_and]
  · rw [if_neg (by omega), addressWidth_append (by omega)]

/-! ## Cells -/

theorem cellsFrom_cons {s : State} {p m : Nat} {c : BitCell} {rest : List BitCell} :
    cellsFrom s p (m + 1) = some (c :: rest) ↔
      refEdge s p = some c.latch ∧ refEdge s c.latch = some c.drive ∧
        cellsFrom s c.drive m = some rest := by
  simp only [cellsFrom, Option.bind_eq_bind, Option.bind_eq_some_iff, Option.some.injEq,
    List.cons.injEq]
  constructor
  · rintro ⟨e₁, h1, e₂, h2, r, h3, rfl, rfl⟩
    exact ⟨h1, h2, h3⟩
  · rintro ⟨h1, h2, h3⟩
    exact ⟨_, h1, _, h2, _, h3, rfl, rfl⟩

theorem cellsFrom_length {s : State} {p m : Nat} {cells : List BitCell}
    (h : cellsFrom s p m = some cells) : cells.length = m := by
  induction m generalizing p cells with
  | zero =>
    simp only [cellsFrom, Option.some.injEq] at h
    rw [← h]
    rfl
  | succ m ih =>
    cases cells with
    | nil =>
      simp only [cellsFrom, Option.bind_eq_bind, Option.bind_eq_some_iff, Option.some.injEq] at h
      obtain ⟨_, _, _, _, _, _, h⟩ := h
      cases h
    | cons c rest => simp [ih (cellsFrom_cons.1 h).2.2]

/-- Edges, cells and interruptions depend on the configuration and the capture alone. -/
theorem cellsFrom_congr {s t : State} (hr : ∀ x, refEdge t x = refEdge s x) (p m : Nat) :
    cellsFrom t p m = cellsFrom s p m := by
  induction m generalizing p with
  | zero => rfl
  | succ m ih => simp only [cellsFrom, hr, ih]

theorem quietCells_congr {s t : State} (hi : ∀ x y, interruptedIn t x y = interruptedIn s x y)
    (p : Nat) (cells : List BitCell) : quietCells t p cells = quietCells s p cells := by
  induction cells generalizing p with
  | nil => rfl
  | cons c rest ih => simp only [quietCells, hi, ih]

theorem cellsFrom_moved (s : State) (a b p m : Nat) :
    cellsFrom ((s.allAt a).latch b) p m = cellsFrom s p m :=
  cellsFrom_congr (s := s) (t := (s.allAt a).latch b) (fun _ => rfl) p m

theorem quietCells_moved (s : State) (a b p : Nat) (cells : List BitCell) :
    quietCells ((s.allAt a).latch b) p cells = quietCells s p cells :=
  quietCells_congr (s := s) (t := (s.allAt a).latch b) (fun _ _ => rfl) p cells

theorem latchedBits_congr {s t : State} (ht : ∀ x, tapLevel t x = tapLevel s x)
    (cells : List BitCell) : latchedBits t cells = latchedBits s cells := by
  simp [latchedBits, ht]

@[simp] theorem lastDrive_nil (p : Nat) : lastDrive p [] = p := rfl

@[simp] theorem lastLatchOf_nil (l : Nat) : lastLatchOf l [] = l := rfl

@[simp] theorem lastDrive_cons (p : Nat) (c : BitCell) (rest : List BitCell) :
    lastDrive p (c :: rest) = lastDrive c.drive rest := by
  cases rest with
  | nil => rfl
  | cons d rest =>
    simp only [lastDrive, List.map_cons, List.getLastD_cons]

@[simp] theorem lastLatchOf_cons (l : Nat) (c : BitCell) (rest : List BitCell) :
    lastLatchOf l (c :: rest) = lastLatchOf c.latch rest := by
  cases rest with
  | nil => rfl
  | cons d rest =>
    simp only [lastLatchOf, List.map_cons, List.getLastD_cons]

/-- Splits the last of several cells off. -/
theorem cellsFrom_append {s : State} {p : Nat} {as bs : List BitCell} :
    cellsFrom s p (as.length + bs.length) = some (as ++ bs) ↔
      cellsFrom s p as.length = some as ∧
        cellsFrom s (lastDrive p as) bs.length = some bs := by
  induction as generalizing p with
  | nil => simp [cellsFrom]
  | cons a rest ih =>
    rw [List.length_cons, Nat.add_right_comm, List.cons_append, cellsFrom_cons, cellsFrom_cons, ih,
      lastDrive_cons]
    tauto

/-- The state after a run of quiet cells from `p`. -/
def State.afterCells (s : State) (p : Nat) (cells : List BitCell) : State :=
  (s.allAt (lastDrive p cells)).latch (lastLatchOf s.lastLatch cells)

theorem afterCells_nil {s : State} {p : Nat} (h : LockStep s p) : s.afterCells p [] = s := by
  unfold State.afterCells
  rw [lastDrive_nil, allAt_of_lockStep h]
  rfl

theorem afterCells_cons (s : State) (p : Nat) (c : BitCell) (rest : List BitCell) :
    ((s.allAt c.drive).latch c.latch).afterCells c.drive rest = s.afterCells p (c :: rest) := by
  unfold State.afterCells
  rw [lastDrive_cons, lastLatchOf_cons]
  rfl

theorem lockStep_afterCells (s : State) (p : Nat) (cells : List BitCell) :
    LockStep (s.afterCells p cells) (lastDrive p cells) := rfl

/-! ## One bit cell in lock-step -/

section
variable {s : State} {p : Nat} {c : BitCell}

/-- The latch edge of a cell. -/
theorem clkEdge_latch (hw : s.cfg.wf = true) (h : LockStep s p)
    (h1 : refEdge s p = some c.latch) :
    clkEdge s = some (c.latch, interruptedIn s p c.latch, s.allAt c.latch) :=
  clkEdge_lockStep hw h h1

/-- The drive edge of a cell. -/
theorem clkEdge_drive (hw : s.cfg.wf = true) (h2 : refEdge s c.latch = some c.drive) :
    clkEdge ((s.allAt c.latch).latch c.latch) =
      some (c.drive, interruptedIn s c.latch c.drive, (s.allAt c.drive).latch c.latch) :=
  clkEdge_lockStep (s := (s.allAt c.latch).latch c.latch) hw (lockStep_allAt s c.latch) h2

theorem bitAt_latch (h1 : refEdge s p = some c.latch) :
    bitAt (s.allAt c.latch) c.latch = some (tapLevel s c.latch) :=
  bitAt_of_le (s := s.allAt c.latch) (refEdge_some h1).2

/-! ## The address loop -/

variable {fuel : Nat} {bits : List Level}

/-- A quiet cell of the address loop (rules R160 and R162). -/
theorem addressLoop_quietCell (hw : s.cfg.wf = true) (h : LockStep s p)
    (h1 : refEdge s p = some c.latch) (h2 : refEdge s c.latch = some c.drive)
    (q1 : interruptedIn s p c.latch = false) (q2 : interruptedIn s c.latch c.drive = false)
    (hk : bits.length < addressWidth bits) :
    addressLoop (fuel + 1) bits.length (addressWidth bits) (BitVec.ofNat 32 (msbValue bits)) s =
      addressLoop fuel (bits ++ [tapLevel s c.latch]).length
        (addressWidth (bits ++ [tapLevel s c.latch]))
        (BitVec.ofNat 32 (msbValue (bits ++ [tapLevel s c.latch])))
        ((s.allAt c.drive).latch c.latch) := by
  rw [addressLoop, if_pos hk]
  simp only [clkEdge_latch hw h h1, q1, bitAt_latch h1, clkEdge_drive hw h2, q2,
    Option.bind_eq_bind, Option.bind_some, Bool.false_eq_true, if_false, shiftIn_msbValue,
    addressWidth_snoc bits, List.length_append, List.length_singleton]

/-- An interruption at the drive edge of a cell of the address loop (rule R161). -/
theorem addressLoop_interruptedDrive (hw : s.cfg.wf = true) (h : LockStep s p)
    (h1 : refEdge s p = some c.latch) (h2 : refEdge s c.latch = some c.drive)
    (q1 : interruptedIn s p c.latch = false) (q2 : interruptedIn s c.latch c.drive = true)
    (hk : bits.length < addressWidth bits) :
    addressLoop (fuel + 1) bits.length (addressWidth bits) (BitVec.ofNat 32 (msbValue bits)) s =
      if (bits ++ [tapLevel s c.latch]).length = addressWidth (bits ++ [tapLevel s c.latch]) then
        addressLoop fuel (bits ++ [tapLevel s c.latch]).length
          (addressWidth (bits ++ [tapLevel s c.latch]))
          (BitVec.ofNat 32 (msbValue (bits ++ [tapLevel s c.latch])))
          (((s.allAt c.drive).latch c.latch).setPending c.drive)
      else some (raiseFault .addrInterrupt c.drive ((s.allAt c.drive).latch c.latch)) := by
  rw [addressLoop, if_pos hk]
  simp only [clkEdge_latch hw h h1, q1, bitAt_latch h1, clkEdge_drive hw h2, q2,
    Option.bind_eq_bind, Option.bind_some, Bool.false_eq_true, if_false, if_true,
    shiftIn_msbValue, addressWidth_snoc bits, List.length_append, List.length_singleton]

/-- An interruption at the latch edge of a cell of the address loop (rule R161). -/
theorem addressLoop_interruptedLatch {e : Nat} (hw : s.cfg.wf = true) (h : LockStep s p)
    (h1 : refEdge s p = some e) (q1 : interruptedIn s p e = true)
    (hk : bits.length < addressWidth bits) :
    addressLoop (fuel + 1) bits.length (addressWidth bits) (BitVec.ofNat 32 (msbValue bits)) s =
      some (raiseFault .addrInterrupt e (s.allAt e)) := by
  rw [addressLoop, if_pos hk]
  simp only [clkEdge_lockStep hw h h1, q1, Option.bind_eq_bind, Option.bind_some, if_true]

/-- With all bits latched the address is committed, whatever fuel is left. -/
theorem addressLoop_done {v : BitVec 32} {k w : Nat} (hk : ¬ k < w) :
    addressLoop fuel k w v s = some (commitAddress v s) := by
  cases fuel with
  | zero => rfl
  | succ fuel => rw [addressLoop, if_neg hk]

end

/-- A run of quiet cells of the address loop, none of them past the address's last bit. -/
theorem addressLoop_quietCells {s : State} {p : Nat} {cells : List BitCell} {fuel : Nat}
    {bits : List Level} (hw : s.cfg.wf = true) (h : LockStep s p)
    (hc : cellsFrom s p cells.length = some cells) (hq : quietCells s p cells = true)
    (hk : bits.length + cells.length ≤ addressWidth (bits ++ latchedBits s cells)) :
    addressLoop (fuel + cells.length) bits.length (addressWidth bits)
        (BitVec.ofNat 32 (msbValue bits)) s =
      addressLoop fuel (bits ++ latchedBits s cells).length
        (addressWidth (bits ++ latchedBits s cells))
        (BitVec.ofNat 32 (msbValue (bits ++ latchedBits s cells))) (s.afterCells p cells) := by
  induction cells generalizing s p bits with
  | nil => simp [latchedBits, afterCells_nil h]
  | cons c rest ih =>
    rw [List.length_cons] at hc
    obtain ⟨h1, h2, h3⟩ := cellsFrom_cons.1 hc
    simp only [quietCells, Bool.and_eq_true, Bool.not_eq_true'] at hq
    obtain ⟨⟨q1, q2⟩, q3⟩ := hq
    have hb : latchedBits s (c :: rest) = [tapLevel s c.latch] ++ latchedBits s rest := rfl
    rw [hb, ← List.append_assoc] at hk ⊢
    have hlt : bits.length < addressWidth bits := by
      by_cases h8 : bits.length < 8
      · rw [addressWidth_of_lt h8]
        exact h8
      · rw [List.append_assoc, addressWidth_append (by omega), List.length_cons] at hk
        omega
    rw [List.length_cons, ← Nat.add_assoc, addressLoop_quietCell hw h h1 h2 q1 q2 hlt]
    have hbits : latchedBits ((s.allAt c.drive).latch c.latch) rest = latchedBits s rest :=
      latchedBits_congr (fun _ => rfl) rest
    have := ih (s := (s.allAt c.drive).latch c.latch) (p := c.drive)
      (bits := bits ++ [tapLevel s c.latch]) hw (lockStep_allAt s c.drive)
      ((cellsFrom_moved s _ _ _ _).trans h3)
      ((quietCells_moved s _ _ _ _).trans q3)
      (by
        rw [hbits]
        rw [List.length_cons] at hk
        simp only [List.length_append, List.length_singleton]
        omega)
    rw [this, hbits, afterCells_cons s p]

/-! ## The data loop -/

section
variable {s : State} {p : Nat} {c : BitCell} {bits : List Level} {left : Nat}

/-- A quiet cell of the data loop (rule R165). -/
theorem dataLoop_quietCell (hw : s.cfg.wf = true) (h : LockStep s p)
    (h1 : refEdge s p = some c.latch) (h2 : refEdge s c.latch = some c.drive)
    (q1 : interruptedIn s p c.latch = false) (q2 : interruptedIn s c.latch c.drive = false) :
    dataLoop (left + 1) (BitVec.ofNat 8 (msbValue bits)) s =
      dataLoop left (BitVec.ofNat 8 (msbValue (bits ++ [tapLevel s c.latch])))
        ((s.allAt c.drive).latch c.latch) := by
  rw [dataLoop]
  simp only [clkEdge_latch hw h h1, q1, bitAt_latch h1, clkEdge_drive hw h2, q2,
    Option.bind_eq_bind, Option.bind_some, Bool.false_eq_true, if_false, shiftIn_msbValue]

/-- An interruption at the drive edge of a cell of the data loop (rule R166). -/
theorem dataLoop_interruptedDrive (hw : s.cfg.wf = true) (h : LockStep s p)
    (h1 : refEdge s p = some c.latch) (h2 : refEdge s c.latch = some c.drive)
    (q1 : interruptedIn s p c.latch = false) (q2 : interruptedIn s c.latch c.drive = true) :
    dataLoop (left + 1) (BitVec.ofNat 8 (msbValue bits)) s =
      if left = 0 then
        some (commitData (BitVec.ofNat 8 (msbValue (bits ++ [tapLevel s c.latch])))
          (((s.allAt c.drive).latch c.latch).setPending c.drive))
      else some (commitInterrupt c.drive ((s.allAt c.drive).latch c.latch)) := by
  rw [dataLoop]
  simp only [clkEdge_latch hw h h1, q1, bitAt_latch h1, clkEdge_drive hw h2, q2,
    Option.bind_eq_bind, Option.bind_some, Bool.false_eq_true, if_false, if_true,
    shiftIn_msbValue]

/-- An interruption at the latch edge of a cell of the data loop (rule R166). -/
theorem dataLoop_interruptedLatch {e : Nat} {v : BitVec 8} (hw : s.cfg.wf = true)
    (h : LockStep s p) (h1 : refEdge s p = some e) (q1 : interruptedIn s p e = true) :
    dataLoop (left + 1) v s = some (commitInterrupt e (s.allAt e)) := by
  rw [dataLoop]
  simp only [clkEdge_lockStep hw h h1, q1, Option.bind_eq_bind, Option.bind_some, if_true]

end

/-- A run of quiet cells of the data loop. -/
theorem dataLoop_quietCells {s : State} {p : Nat} {cells : List BitCell} {left : Nat}
    {bits : List Level} (hw : s.cfg.wf = true) (h : LockStep s p)
    (hc : cellsFrom s p cells.length = some cells) (hq : quietCells s p cells = true) :
    dataLoop (left + cells.length) (BitVec.ofNat 8 (msbValue bits)) s =
      dataLoop left (BitVec.ofNat 8 (msbValue (bits ++ latchedBits s cells)))
        (s.afterCells p cells) := by
  induction cells generalizing s p bits with
  | nil => simp [latchedBits, afterCells_nil h]
  | cons c rest ih =>
    rw [List.length_cons] at hc
    obtain ⟨h1, h2, h3⟩ := cellsFrom_cons.1 hc
    simp only [quietCells, Bool.and_eq_true, Bool.not_eq_true'] at hq
    obtain ⟨⟨q1, q2⟩, q3⟩ := hq
    have hb : latchedBits s (c :: rest) = [tapLevel s c.latch] ++ latchedBits s rest := rfl
    rw [hb, ← List.append_assoc, List.length_cons, ← Nat.add_assoc,
      dataLoop_quietCell hw h h1 h2 q1 q2]
    have hbits : latchedBits ((s.allAt c.drive).latch c.latch) rest = latchedBits s rest :=
      latchedBits_congr (fun _ => rfl) rest
    have := ih (s := (s.allAt c.drive).latch c.latch) (p := c.drive)
      (bits := bits ++ [tapLevel s c.latch]) hw (lockStep_allAt s c.drive)
      ((cellsFrom_moved s _ _ _ _).trans h3)
      ((quietCells_moved s _ _ _ _).trans q3)
    rw [this, hbits, afterCells_cons s p]

/-! ## The last cell of a run, and a cell the capture does not hold -/

theorem lastDrive_append_one (p : Nat) (cells : List BitCell) (c : BitCell) :
    lastDrive p (cells ++ [c]) = c.drive := by simp [lastDrive]

theorem lastLatchOf_append_one (l : Nat) (cells : List BitCell) (c : BitCell) :
    lastLatchOf l (cells ++ [c]) = c.latch := by simp [lastLatchOf]

theorem quietButLastDrive_append_one {s : State} {p : Nat} {cells : List BitCell} {c : BitCell} :
    quietButLastDrive s p (cells ++ [c]) =
      (quietCells s p cells && !interruptedIn s (lastDrive p cells) c.latch) := by
  induction cells generalizing p with
  | nil => simp [quietButLastDrive, quietCells]
  | cons a rest ih =>
    have e : quietButLastDrive s p (a :: (rest ++ [c])) =
        (!interruptedIn s p a.latch && !interruptedIn s a.latch a.drive &&
          quietButLastDrive s a.drive (rest ++ [c])) := by
      cases rest <;> rfl
    rw [List.cons_append, lastDrive_cons, quietCells, e, ih]
    simp only [Bool.and_assoc]

section
variable {s : State} {p : Nat}

/-- An address bit whose latch or drive edge is beyond the horizon holds the step. -/
theorem addressLoop_none {fuel k bits : Nat} {v : BitVec 32} (hw : s.cfg.wf = true)
    (hl : LockStep s p) (hk : k < bits)
    (h : refEdge s p = none ∨
      ∃ e, refEdge s p = some e ∧ interruptedIn s p e = false ∧ refEdge s e = none) :
    addressLoop (fuel + 1) k bits v s = none := by
  unfold addressLoop
  rw [if_pos hk]
  rcases h with h | ⟨e, h1, h2, h3⟩
  · rw [clkEdge_lockStep_none hw hl h]
    rfl
  · have c2 : clkEdge ((s.allAt e).latch e) = none :=
      clkEdge_lockStep_none (s := (s.allAt e).latch e) hw (lockStep_allAt s e) h3
    rw [clkEdge_lockStep hw hl h1, h2]
    simp only [Option.bind_eq_bind, Option.bind_some, Bool.false_eq_true, if_false, c2]
    cases bitAt (s.allAt e) e <;> rfl

/-- A data bit whose latch or drive edge is beyond the horizon holds the step. -/
theorem dataLoop_none {left : Nat} {v : BitVec 8} (hw : s.cfg.wf = true) (hl : LockStep s p)
    (h : refEdge s p = none ∨
      ∃ e, refEdge s p = some e ∧ interruptedIn s p e = false ∧ refEdge s e = none) :
    dataLoop (left + 1) v s = none := by
  unfold dataLoop
  rcases h with h | ⟨e, h1, h2, h3⟩
  · rw [clkEdge_lockStep_none hw hl h]
    rfl
  · have c2 : clkEdge ((s.allAt e).latch e) = none :=
      clkEdge_lockStep_none (s := (s.allAt e).latch e) hw (lockStep_allAt s e) h3
    rw [clkEdge_lockStep hw hl h1, h2]
    simp only [Option.bind_eq_bind, Option.bind_some, Bool.false_eq_true, if_false, c2]
    cases bitAt (s.allAt e) e <;> rfl

end

end Sys2Proof.Machine
end

