-- ==== Sys2Proof/Laws/Probing.lean ====
section
/-! SUPPORT. What the probe of REQUEST finds in lock-step. -/

namespace Sys2Proof.Machine

open Sys2Proof

/-- Rule R60 on a window the capture holds. -/
theorem wouldTransitionWithin_window {h p e : Nat} (ch : Channel) (hp : p ≤ e) (he : e ≤ h) :
    wouldTransitionWithin h ch p (e - p) = some (decide (0 < ch.countIn p e)) := by
  unfold wouldTransitionWithin
  split
  · rename_i h0
    rw [countIn_eq_zero_of_le ch (by omega)]
    rfl
  · rw [if_neg (by omega), show p + (e - p) = e by omega, count_of_le ch p he]
    rfl

/-- On a rising list, the first transition after `p` is also the first one in the window, if the window
has one. -/
theorem find?_window {ts : List Nat} (hs : ts.Pairwise (· < ·)) {p e : Nat}
    (hex : ∃ t ∈ ts, p < t ∧ t ≤ e) :
    ts.find? (fun t => decide (p < t)) = ts.find? (fun t => decide (p < t) && decide (t ≤ e)) := by
  induction ts with
  | nil => rfl
  | cons a rest ih =>
    rw [List.pairwise_cons] at hs
    obtain ⟨t, ht, hpt, hte⟩ := hex
    by_cases hpa : p < a
    · have hae : a ≤ e := by
        rcases List.mem_cons.1 ht with rfl | ht
        · exact hte
        · exact le_of_lt (lt_of_lt_of_le (hs.1 t ht) hte)
      simp [hpa, hae]
    · have htr : t ∈ rest := by
        rcases List.mem_cons.1 ht with rfl | ht
        · exact absurd hpt hpa
        · exact ht
      simp only [List.find?_cons, hpa, decide_false, Bool.false_and]
      exact ih hs.2 ⟨t, htr, hpt, hte⟩

/-- Rule R111 for a participating node: the next edge is the fall sample. -/
theorem nextEdge_fallSample {s : State} {p e i : Nat}
    (ha : s.capture.admittedFor s.cfg = true) (hp : participates s p e i = true) :
    nextEdge s.horizon (s.dat i) p = some (fallSample s p e i) ∧ p < fallSample s p e i ∧
      fallSample s p e i ≤ e := by
  have hex := (countIn_pos_iff (s.dat i) p e).1 (by simpa [participates] using hp)
  have hw := (Channel.wf_iff _ _).1 (dat_wf ha i)
  have hf := find?_window hw.2 hex
  unfold nextEdge fallSample
  rw [hf]
  cases hfind : (s.dat i).trans.find? (fun t => decide (p < t) && decide (t ≤ e)) with
  | none =>
    obtain ⟨t, ht, h1, h2⟩ := hex
    have := List.find?_eq_none.1 hfind t ht
    simp [h1, h2] at this
  | some t =>
    have h1 := List.find?_some hfind
    simp only [Bool.and_eq_true, decide_eq_true_eq] at h1
    have h2 := (hw.1 t (List.mem_of_find?_eq_some hfind)).2
    simp only [h2, if_true, true_and]
    exact h1

/-- Rule R111 for a node that does not participate: the sentinel. -/
theorem fallSample_sentinel {s : State} {p e i : Nat} (hp : participates s p e i = false) :
    fallSample s p e i = e + 1 := by
  unfold fallSample
  cases hfind : (s.dat i).trans.find? (fun t => decide (p < t) && decide (t ≤ e)) with
  | none => rfl
  | some t =>
    have h1 := List.find?_some hfind
    simp only [Bool.and_eq_true, decide_eq_true_eq] at h1
    have := (countIn_pos_iff (s.dat i) p e).2 ⟨t, List.mem_of_find?_eq_some hfind, h1⟩
    simp [participates, this] at hp

/-- The probe of one node whose DAT cursor is at `p` (rules R110 and R111). -/
theorem probeNode_window {s : State} {p e i : Nat} {nd : NodeCursors}
    (ha : s.capture.admittedFor s.cfg = true) (hd : nd.datPos = p) (hp : p ≤ e)
    (he : e ≤ s.horizon) :
    probeNode s e i nd = some
      ({ part := participates s p e i, fall := fallSample s p e i },
        if participates s p e i then { nd with datPos := fallSample s p e i } else nd) := by
  unfold probeNode
  rw [hd, wouldTransitionWithin_window _ hp he]
  have hdef : decide (0 < (s.dat i).countIn p e) = participates s p e i := rfl
  rw [hdef]
  cases hpart : participates s p e i with
  | true =>
    simp only [Option.bind_eq_bind, Option.bind_some, if_true, advanceToNextEdge,
      (nextEdge_fallSample ha hpart).1]
  | false =>
    simp only [Option.bind_eq_bind, Option.bind_some, Bool.false_eq_true, if_false,
      fallSample_sentinel hpart]

/-- The probe of all nodes: what it reports, and that no cursor passes the window's end. -/
theorem probeNodes_window {s : State} {p e : Nat} (ha : s.capture.admittedFor s.cfg = true)
    (hp : p ≤ e) (he : e ≤ s.horizon) (nds : List NodeCursors) (i : Nat)
    (hnd : ∀ nd ∈ nds, nd.datPos = p ∧ nd.clkPos ≤ e) :
    ∃ nds', probeNodes s e i nds = some
        ((List.range nds.length).map (fun j =>
          { part := participates s p e (i + j), fall := fallSample s p e (i + j) }), nds') ∧
      nds'.map (movedTo e) = List.replicate nds.length { clkPos := e, datPos := e } := by
  induction nds generalizing i with
  | nil => exact ⟨[], rfl, rfl⟩
  | cons nd rest ih =>
    obtain ⟨nds', h1, h2⟩ := ih (i + 1) (fun x hx => hnd x (List.mem_cons_of_mem _ hx))
    obtain ⟨hd, hc⟩ := hnd nd List.mem_cons_self
    simp only [probeNodes, probeNode_window ha hd hp he, h1, Option.bind_eq_bind, Option.bind_some]
    refine ⟨(if participates s p e i then { nd with datPos := fallSample s p e i } else nd) :: nds',
      ?_, ?_⟩
    · congr 2
      rw [List.length_cons, List.range_succ_eq_map, List.map_cons, List.map_map]
      simp only [Nat.add_zero, List.cons.injEq, true_and]
      apply List.map_congr_left
      intro j _
      simp only [Function.comp, Nat.succ_eq_add_one, Nat.add_assoc, Nat.add_comm 1 j]
    · rw [List.map_cons, h2, List.length_cons, List.replicate_succ]
      congr 1
      cases hpart : participates s p e i with
      | true =>
        have := (nextEdge_fallSample ha hpart).2.2
        simp only [if_true, movedTo, max_eq_right hc, max_eq_right this]
      | false =>
        simp only [Bool.false_eq_true, if_false, movedTo, max_eq_right hc, hd, max_eq_right hp]

/-- Rule R112 on the probe's report. -/
theorem requesters_window (s : State) (p e : Nat) :
    requesters s.cfg.n ((List.range s.cfg.n).map (fun j =>
      { part := participates s p e j, fall := fallSample s p e j })) =
      (List.range s.cfg.n).filter (isRequesting s p e) := by
  unfold requesters
  apply List.filter_congr
  intro i hi
  have hin := List.mem_range.1 hi
  cases i with
  | zero =>
    simp only [requesting, isRequesting, List.getD_eq_getElem?_getD, List.getElem?_map,
      List.getElem?_range hin, Option.map_some, Option.getD_some]
  | succ j =>
    have hj : j < s.cfg.n := by omega
    simp only [requesting, isRequesting, List.getD_eq_getElem?_getD, List.getElem?_map,
      List.getElem?_range hin, List.getElem?_range hj, Option.map_some, Option.getD_some]

end Sys2Proof.Machine
end

