-- ==== Sys2Proof/Laws/Effects.lean ====
section
/-! SUPPORT. What each phase operation can do when it does not hold, from any state: one lemma per
operation, which names every register it writes. -/

namespace Sys2Proof.Machine

open Sys2Proof

/-! ## Cursors that moved forward -/

/-- No cursor of `a` is behind the one at the same place of `b`, and none is added or removed. -/
abbrev CursorsLe (a b : List NodeCursors) : Prop :=
  List.Forall₂ (fun x y => x.clkPos ≤ y.clkPos ∧ x.datPos ≤ y.datPos) a b

theorem CursorsLe.refl (a : List NodeCursors) : CursorsLe a a := by
  induction a with
  | nil => exact .nil
  | cons x a ih => exact .cons ⟨le_refl _, le_refl _⟩ ih

theorem CursorsLe.trans {a b c : List NodeCursors} (h : CursorsLe a b) (h' : CursorsLe b c) :
    CursorsLe a c := by
  induction h generalizing c with
  | nil => exact h'
  | cons hx _ ih =>
    cases h' with
    | cons hy ht => exact .cons ⟨hx.1.trans hy.1, hx.2.trans hy.2⟩ (ih ht)

theorem cursorsLe_movedTo (target : Nat) (a : List NodeCursors) :
    CursorsLe a (a.map (movedTo target)) := by
  induction a with
  | nil => exact .nil
  | cons x a ih => exact .cons ⟨le_max_left _ _, le_max_left _ _⟩ ih

theorem CursorsLe.getD {a b : List NodeCursors} (h : CursorsLe a b) (i : Nat) :
    (a.getD i ⟨0, 0⟩).clkPos ≤ (b.getD i ⟨0, 0⟩).clkPos ∧
      (a.getD i ⟨0, 0⟩).datPos ≤ (b.getD i ⟨0, 0⟩).datPos := by
  induction h generalizing i with
  | nil => exact ⟨le_refl _, le_refl _⟩
  | cons hx _ ih =>
    cases i with
    | zero => exact hx
    | succ i => simpa using ih i

/-! ## The shared operations -/

/-- Rule R63: the reference clock edge is taken, and only cursors move, forward. -/
theorem clkEdge_effect {s t : State} {e : Nat} {b : Bool} (h : clkEdge s = some (e, b, t)) :
    peekClkEdge s = some e ∧ e ≤ s.horizon ∧
      ∃ ns, CursorsLe s.nodes ns ∧ t = s.setNodes ns := by
  obtain ⟨hp, ht, -⟩ := clkEdge_some h
  exact ⟨hp, (nextEdge_some hp).2.2, _, cursorsLe_movedTo e s.nodes, ht⟩

theorem advanceAllTo_effect {s t : State} {e : Nat} {b : Bool}
    (h : advanceAllTo e s = some (t, b)) : ∃ ns, CursorsLe s.nodes ns ∧ t = s.setNodes ns :=
  ⟨_, cursorsLe_movedTo e s.nodes, (advanceAllTo_some h).1⟩

theorem setReferenceClk_effect {s : State} {e : Nat} (he : peekClkEdge s = some e) :
    ∃ ns, CursorsLe s.nodes ns ∧ setReferenceClk e s = s.setNodes ns := by
  refine ⟨_, ?_, rfl⟩
  have hlt : (s.nodes.getD s.lastNode ⟨0, 0⟩).clkPos < e := (nextEdge_some he).2.1
  generalize s.lastNode = k at hlt
  clear he
  generalize s.nodes = nds at hlt ⊢
  induction nds generalizing k with
  | nil => cases k <;> exact .nil
  | cons nd rest ih =>
    cases k with
    | zero => exact .cons ⟨le_of_lt hlt, le_refl _⟩ (CursorsLe.refl rest)
    | succ k => exact .cons ⟨le_refl _, le_refl _⟩ (ih k (by simpa using hlt))

theorem probeNode_effect {s : State} {e i : Nat} {nd nd' : NodeCursors} {p : Probe}
    (h : probeNode s e i nd = some (p, nd')) :
    nd'.clkPos = nd.clkPos ∧ nd.datPos ≤ nd'.datPos := by
  simp only [probeNode, Option.bind_eq_bind, Option.bind_eq_some_iff] at h
  obtain ⟨b, -, hb⟩ := h
  cases b with
  | true =>
    simp only [if_true, Option.bind_eq_some_iff, Option.some.injEq, Prod.mk.injEq] at hb
    obtain ⟨f, hf, -, rfl⟩ := hb
    exact ⟨rfl, le_of_lt (nextEdge_some hf).2.1⟩
  | false =>
    simp only [Bool.false_eq_true, if_false, Option.some.injEq, Prod.mk.injEq] at hb
    obtain ⟨-, rfl⟩ := hb
    exact ⟨rfl, le_refl _⟩

theorem probeNodes_effect {s : State} {e i : Nat} {nds nds' : List NodeCursors} {ps : List Probe}
    (h : probeNodes s e i nds = some (ps, nds')) : CursorsLe nds nds' := by
  induction nds generalizing i nds' ps with
  | nil =>
    simp only [probeNodes, Option.some.injEq, Prod.mk.injEq] at h
    rw [← h.2]
    exact .nil
  | cons nd rest ih =>
    simp only [probeNodes, Option.bind_eq_bind, Option.bind_eq_some_iff, Prod.exists,
      Option.some.injEq, Prod.mk.injEq] at h
    obtain ⟨p, nd', h1, ps', rest', h2, -, rfl⟩ := h
    obtain ⟨h3, h4⟩ := probeNode_effect h1
    exact .cons ⟨le_of_eq h3.symm, h4⟩ (ih h2)

theorem arbiterCell_effect {s t : State} {e : Nat} {levels : List Level}
    (h : arbiterCell s = some (e, levels, t)) :
    peekClkEdge s = some e ∧ levels = s.datLevels e ∧
      ∃ ns, CursorsLe s.nodes ns ∧ t = (s.setNodes ns).latch e := by
  simp only [arbiterCell, Option.bind_eq_bind, Option.bind_eq_some_iff, Prod.exists,
    Option.some.injEq, Prod.mk.injEq] at h
  obtain ⟨e₁, b₁, s₁, h1, lv, h2, e₂, b₂, s₂, h3, rfl, rfl, rfl⟩ := h
  obtain ⟨hp, he, ns, hn, rfl⟩ := clkEdge_effect h1
  obtain ⟨-, -, ns', hn', rfl⟩ := clkEdge_effect h3
  refine ⟨hp, ?_, ns', CursorsLe.trans hn hn', rfl⟩
  rw [levelsAt_of_le (s := s.setNodes ns) he, Option.some.injEq] at h2
  exact h2.symm

theorem controlCell_effect {s t : State} {e : Nat} {b : Level}
    (h : controlCell s = some (e, b, t)) :
    peekClkEdge s = some e ∧ b = tapLevel s e ∧
      ∃ ns, CursorsLe s.nodes ns ∧ t = (s.setNodes ns).latch e := by
  simp only [controlCell, Option.bind_eq_bind, Option.bind_eq_some_iff, Prod.exists,
    Option.some.injEq, Prod.mk.injEq] at h
  obtain ⟨e₁, b₁, s₁, h1, lv, h2, e₂, b₂, s₂, h3, rfl, rfl, rfl⟩ := h
  obtain ⟨hp, he, ns, hn, rfl⟩ := clkEdge_effect h1
  obtain ⟨-, -, ns', hn', rfl⟩ := clkEdge_effect h3
  refine ⟨hp, ?_, ns', CursorsLe.trans hn hn', rfl⟩
  rw [bitAt_of_le (s := s.setNodes ns) he, Option.some.injEq] at h2
  exact h2.symm

/-! ## The phase operations -/

/-- REQUEST (rules R110 and R113 to R116). -/
theorem requestPhase_effect {s t : State} (h : requestPhase s = some t) :
    ∃ e probes ns, peekClkEdge s = some e ∧ CursorsLe s.nodes ns ∧
      t = { s with
        nodes := ns
        sink := s.sink ++
          [{ kind := .request
             flags := requestFlags s
             startSample := s.mark
             endSample := e
             valuePrimary := nodeVector (requesters s.cfg.n probes)
             valueSecondary := 0#64 }]
        mark := e + 1
        firstReq := false
        txValid := false
        phase := PhaseCode.arbitration
        outcome := .next } := by
  simp only [requestPhase, Option.bind_eq_bind, Option.bind_eq_some_iff, Prod.exists,
    Option.some.injEq] at h
  obtain ⟨e, he, probes, nds, hp, s₂, b, ha, rfl⟩ := h
  obtain ⟨n₁, hn₁, hs₁⟩ := setReferenceClk_effect he
  rw [hs₁] at hp ha
  obtain ⟨n₂, hn₂, rfl⟩ := advanceAllTo_effect ha
  exact ⟨e, probes, n₂, he, (hn₁.trans (probeNodes_effect hp)).trans hn₂, rfl⟩

/-- ARBITRATION (rules R130 to R134). -/
theorem arbitrationPhase_effect {s t : State} (h : arbitrationPhase s = some t) :
    ∃ e ns, peekClkEdge s = some e ∧ CursorsLe s.nodes ns ∧
      t = complete ((emitFrame .arbitration
        (arbitrationFlags (arbitrationMatches s.cfg.n (s.datLevels e))) s.mark e
        (arbitrationValue (arbitrationMatches s.cfg.n (s.datLevels e))) 0#64 (e + 1)
        (setWinner (arbitrationMatches s.cfg.n (s.datLevels e))
          ((s.setNodes ns).latch e))).goto PhaseCode.priority) := by
  simp only [arbitrationPhase, Option.bind_eq_bind, Option.bind_eq_some_iff, Prod.exists,
    Option.some.injEq] at h
  obtain ⟨e, lv, s₂, hc, rfl⟩ := h
  obtain ⟨hp, rfl, ns, hn, rfl⟩ := arbiterCell_effect hc
  exact ⟨e, ns, hp, hn, rfl⟩

/-- PRIORITY (rules R140 to R144). -/
theorem priorityPhase_effect {s t : State} (h : priorityPhase s = some t) :
    ∃ e ns, peekClkEdge s = some e ∧ CursorsLe s.nodes ns ∧
      t = complete ((
        if s.txValid then
          emitFrame .priorityArbitration
            (priorityFlags (priorityMatches s.cfg.n (s.datLevels e) s.tx.toNat)) s.mark e
            (nodeVector (priorityMatches s.cfg.n (s.datLevels e) s.tx.toNat) |||
              (replaceWinner (priorityMatches s.cfg.n (s.datLevels e) s.tx.toNat)
                ((s.setNodes ns).latch e)).tx.setWidth 64) 0#64 (e + 1)
            (replaceWinner (priorityMatches s.cfg.n (s.datLevels e) s.tx.toNat)
              ((s.setNodes ns).latch e))
        else
          emitFrame .priorityArbitration Flag.noWinner s.mark e 0#64 0#64 (e + 1)
            ((s.setNodes ns).latch e)).goto PhaseCode.reserved) := by
  simp only [priorityPhase, Option.bind_eq_bind, Option.bind_eq_some_iff, Prod.exists,
    Option.some.injEq] at h
  obtain ⟨e, lv, s₂, hc, rfl⟩ := h
  obtain ⟨hp, rfl, ns, hn, rfl⟩ := arbiterCell_effect hc
  exact ⟨e, ns, hp, hn, rfl⟩

/-- RESERVED (rules R150 to R152): the frame ends at the latch edge, or just before the `DAT_K` edge
that cut the cell. -/
theorem reservedPhase_effect {s t : State} (h : reservedPhase s = some t) :
    ∃ e stop ns, peekClkEdge s = some e ∧ CursorsLe s.nodes ns ∧
      t = complete ((emitFrame .reservedBit (noWinnerFlag s) s.mark stop 0#64 0#64 (stop + 1)
        ((s.setNodes ns).latch e)).goto PhaseCode.address) := by
  simp only [reservedPhase, Option.bind_eq_bind, Option.bind_eq_some_iff, Prod.exists] at h
  obtain ⟨e, b, s₁, hc, e₂, -, early, -, h⟩ := h
  obtain ⟨hp, -, ns, hn, rfl⟩ := clkEdge_effect hc
  split at h
  · simp only [Option.bind_eq_some_iff, Prod.exists, Option.some.injEq] at h
    obtain ⟨d, hd, s₃, b₃, ha, rfl⟩ := h
    obtain ⟨ns', hn', rfl⟩ := advanceAllTo_effect ha
    have := (nextEdge_some hd).2.1
    refine ⟨e, d - 1, ns', hp, CursorsLe.trans hn hn', ?_⟩
    rw [Nat.sub_add_cancel (by omega)]
    rfl
  · simp only [Option.bind_eq_some_iff, Prod.exists, Option.some.injEq] at h
    obtain ⟨e₃, b₃, s₃, ha, rfl⟩ := h
    obtain ⟨-, -, ns', hn', rfl⟩ := clkEdge_effect ha
    exact ⟨e, e, ns', hp, CursorsLe.trans hn hn', rfl⟩

/-- ADDRESS (rules R160 to R163): it emits the Address frame, or faults. -/
theorem addressLoop_effect {fuel k bits : Nat} {v : BitVec 32} {s t : State}
    (h : addressLoop fuel k bits v s = some t) :
    (∃ v' ns latch pending stop, CursorsLe s.nodes ns ∧
      t = commitAddress v'
        { s with nodes := ns, lastLatch := latch, intPending := pending, intEnd := stop }) ∨
    (∃ e ns latch, CursorsLe s.nodes ns ∧
      t = raiseFault .addrInterrupt e { s with nodes := ns, lastLatch := latch }) := by
  induction fuel generalizing k bits v s with
  | zero =>
    simp only [addressLoop, Option.some.injEq] at h
    exact .inl ⟨v, s.nodes, _, _, _, CursorsLe.refl _, h.symm⟩
  | succ fuel ih =>
    unfold addressLoop at h
    split at h
    · simp only [Option.bind_eq_bind, Option.bind_eq_some_iff, Prod.exists] at h
      obtain ⟨e₁, i₁, s₁, hc, h⟩ := h
      obtain ⟨-, -, n₁, hn₁, rfl⟩ := clkEdge_effect hc
      split at h
      · rw [Option.some.injEq] at h
        exact .inr ⟨e₁, n₁, s.lastLatch, hn₁, h.symm⟩
      · simp only [Option.bind_eq_some_iff, Prod.exists] at h
        obtain ⟨b, -, e₂, i₂, s₃, hc', h⟩ := h
        obtain ⟨-, -, n₂, hn₂, rfl⟩ := clkEdge_effect hc'
        have hn : CursorsLe s.nodes n₂ := CursorsLe.trans hn₁ hn₂
        generalize (if k + 1 = 8 ∧ longMarker (shiftIn v b) = true then 32 else bits) = bits' at h
        have key : ∀ u, (∃ ip ie, u = { s with
            nodes := n₂, lastLatch := e₁, intPending := ip, intEnd := ie }) →
            ∀ k' bits' v', k' = bits' → addressLoop fuel k' bits' v' u = some t →
            ∃ v' ns latch pending stop, CursorsLe s.nodes ns ∧ t = commitAddress v'
              { s with nodes := ns, lastLatch := latch, intPending := pending, intEnd := stop } := by
          rintro u ⟨ip, ie, rfl⟩ k' bits' v' rfl hu
          rw [addressLoop_done (lt_irrefl k'), Option.some.injEq] at hu
          exact ⟨v', n₂, e₁, ip, ie, hn, hu.symm⟩
        split at h
        · split at h
          · rename_i heq
            exact .inl (key _ ⟨true, e₂, rfl⟩ _ _ _ heq h)
          · rw [Option.some.injEq] at h
            exact .inr ⟨e₂, n₂, e₁, hn, h.symm⟩
        · rcases ih h with ⟨v', ns, l, p, st, hns, ht⟩ | ⟨e, ns, l, hns, ht⟩
          · exact .inl ⟨v', ns, l, p, st, CursorsLe.trans hn hns, ht⟩
          · exact .inr ⟨e, ns, l, CursorsLe.trans hn hns, ht⟩
    · rw [Option.some.injEq] at h
      exact .inl ⟨v, s.nodes, _, _, _, CursorsLe.refl _, h.symm⟩

/-- DATA (rules R165 to R169), with nothing pending: it emits the Data frame and may leave an
interruption pending, or it emits the Interrupt frame. -/
theorem dataLoop_effect {left : Nat} {v : BitVec 8} {s t : State}
    (h : dataLoop left v s = some t) :
    (∃ v' ns latch pending stop, CursorsLe s.nodes ns ∧
      t = commitData v'
        { s with nodes := ns, lastLatch := latch, intPending := pending, intEnd := stop }) ∨
    (∃ e ns latch, CursorsLe s.nodes ns ∧
      t = commitInterrupt e { s with nodes := ns, lastLatch := latch }) := by
  induction left generalizing v s with
  | zero =>
    simp only [dataLoop, Option.some.injEq] at h
    exact .inl ⟨v, s.nodes, _, _, _, CursorsLe.refl _, h.symm⟩
  | succ left ih =>
    simp only [dataLoop, Option.bind_eq_bind, Option.bind_eq_some_iff, Prod.exists] at h
    obtain ⟨e₁, i₁, s₁, hc, h⟩ := h
    obtain ⟨-, -, n₁, hn₁, rfl⟩ := clkEdge_effect hc
    split at h
    · rw [Option.some.injEq] at h
      exact .inr ⟨e₁, n₁, s.lastLatch, hn₁, h.symm⟩
    · simp only [Option.bind_eq_some_iff, Prod.exists] at h
      obtain ⟨b, -, e₂, i₂, s₃, hc', h⟩ := h
      obtain ⟨-, -, n₂, hn₂, rfl⟩ := clkEdge_effect hc'
      have hn : CursorsLe s.nodes n₂ := CursorsLe.trans hn₁ hn₂
      split at h
      · split at h
        · rw [Option.some.injEq] at h
          exact .inl ⟨_, n₂, e₁, true, e₂, hn, h.symm⟩
        · rw [Option.some.injEq] at h
          exact .inr ⟨e₂, n₂, e₁, hn, h.symm⟩
      · rcases ih h with ⟨v', ns, l, p, st, hns, ht⟩ | ⟨e, ns, l, hns, ht⟩
        · exact .inl ⟨v', ns, l, p, st, CursorsLe.trans hn hns, ht⟩
        · exact .inr ⟨e, ns, l, CursorsLe.trans hn hns, ht⟩

/-- DATA as a whole (rules R165 to R169). -/
theorem dataPhase_effect {s t : State} (h : dataPhase s = some t) :
    (s.intPending = true ∧ t = { commitInterrupt s.intEnd s with intPending := false }) ∨
    (∃ v' ns latch pending stop, s.intPending = false ∧ CursorsLe s.nodes ns ∧
      t = commitData v'
        { s with nodes := ns, lastLatch := latch, intPending := pending, intEnd := stop }) ∨
    (∃ e ns latch, s.intPending = false ∧ CursorsLe s.nodes ns ∧
      t = commitInterrupt e { s with nodes := ns, lastLatch := latch }) := by
  unfold dataPhase at h
  cases hp : s.intPending with
  | true =>
    rw [hp, if_pos rfl, Option.some.injEq] at h
    exact .inl ⟨rfl, h.symm⟩
  | false =>
    rw [hp] at h
    rcases dataLoop_effect h with ⟨v', ns, l, p, st, h1, h2⟩ | ⟨e, ns, l, h1, h2⟩
    · exact .inr (.inl ⟨v', ns, l, p, st, rfl, h1, h2⟩)
    · exact .inr (.inr ⟨e, ns, l, rfl, h1, by rw [h2, hp]⟩)

/-- CONTROL0 (rule R180). -/
theorem control0Phase_effect {s t : State} (h : control0Phase s = some t) :
    ∃ e ns, peekClkEdge s = some e ∧ CursorsLe s.nodes ns ∧
      t = complete ((emitFrame .controlBit0 (noWinnerFlag s) s.mark e (bitField 64 (tapLevel s e))
        0#64 (e + 1) { (s.setNodes ns).latch e with cb0 := tapLevel s e }).goto
          PhaseCode.control1) := by
  simp only [control0Phase, Option.bind_eq_bind, Option.bind_eq_some_iff, Prod.exists,
    Option.some.injEq] at h
  obtain ⟨e, b, s₂, hc, rfl⟩ := h
  obtain ⟨hp, rfl, ns, hn, rfl⟩ := controlCell_effect hc
  exact ⟨e, ns, hp, hn, rfl⟩

/-- CONTROL1 (rules R185 and R186). -/
theorem control1Phase_effect {s t : State} (h : control1Phase s = some t) :
    ∃ e e₃ ns, peekClkEdge s = some e ∧ CursorsLe s.nodes ns ∧
      t = complete ((emitFrame .controlBit1 (noWinnerFlag s) s.mark e (bitField 64 (tapLevel s e))
        0#64 (e₃ + 1) ((s.setNodes ns).latch e)).goto PhaseCode.request) := by
  simp only [control1Phase, Option.bind_eq_bind, Option.bind_eq_some_iff, Prod.exists,
    Option.some.injEq] at h
  obtain ⟨e, b, s₂, hc, e₃, b₃, s₃, hc', rfl⟩ := h
  obtain ⟨hp, rfl, ns, hn, rfl⟩ := controlCell_effect hc
  obtain ⟨-, -, ns', hn', rfl⟩ := clkEdge_effect hc'
  exact ⟨e, e₃, ns', hp, CursorsLe.trans hn hn', rfl⟩

end Sys2Proof.Machine
end

