-- ==== Sys2Proof/Laws/Extension.lean ====
section
/-! SUPPORT. What the primitives of spec/20_memory.md answer on a capture they answer on every capture
that extends it (rules R52 to R63). -/

namespace Sys2Proof.Machine

open Sys2Proof

/-- `c'` is `c` with more transitions, all after sample `h`. -/
def ChannelExtends (h : Nat) (c c' : Channel) : Prop :=
  ∃ more : List Nat, (∀ t ∈ more, h < t) ∧ c' = c.append more

theorem ChannelExtends.refl (h : Nat) (c : Channel) : ChannelExtends h c c :=
  ⟨[], by simp, by simp [Channel.append]⟩

section channel
variable {h h' : Nat} {c c' : Channel}

theorem ChannelExtends.levelAt (hc : ChannelExtends h c c') {x : Nat} (hx : x ≤ h) :
    c'.levelAt x = c.levelAt x := by
  obtain ⟨more, hm, rfl⟩ := hc
  have h0 : more.countP (fun t => decide (t ≤ x)) = 0 := by
    rw [List.countP_eq_zero]
    intro t ht
    have := hm t ht
    simp
    omega
  simp [Channel.levelAt, Channel.append, h0]

theorem ChannelExtends.countIn (hc : ChannelExtends h c c') (p : Nat) {q : Nat} (hq : q ≤ h) :
    c'.countIn p q = c.countIn p q := by
  obtain ⟨more, hm, rfl⟩ := hc
  have h0 : more.countP (fun t => decide (p < t) && decide (t ≤ q)) = 0 := by
    rw [List.countP_eq_zero]
    intro t ht
    have := hm t ht
    simp
    omega
  simp [Channel.countIn, Channel.append, h0]

theorem ChannelExtends.nextEdge (hc : ChannelExtends h c c') (hh : h ≤ h') {p t : Nat}
    (he : nextEdge h c p = some t) : nextEdge h' c' p = some t := by
  obtain ⟨more, hm, rfl⟩ := hc
  unfold Machine.nextEdge at he ⊢
  cases hf : c.trans.find? (fun u => decide (p < u)) with
  | none => simp [hf] at he
  | some u =>
    simp only [hf] at he
    split at he
    · rename_i hu
      simp only [Option.some.injEq] at he
      subst he
      simp only [Channel.append, List.find?_append, hf, Option.some_or]
      rw [if_pos (by omega)]
    · cases he

theorem ChannelExtends.count (hc : ChannelExtends h c c') (hh : h ≤ h') {p q m : Nat}
    (he : count h c p q = some m) : count h' c' p q = some m := by
  unfold Machine.count at he ⊢
  split
  · rename_i hle
    rw [if_pos hle] at he
    exact he
  · rename_i hle
    rw [if_neg hle] at he
    split at he
    · rename_i hq
      rw [if_pos (by omega), hc.countIn p hq]
      exact he
    · cases he

theorem ChannelExtends.advanceTo (hc : ChannelExtends h c c') (hh : h ≤ h') {p q : Nat}
    {r : Nat × Nat} (he : advanceTo h c p q = some r) : advanceTo h' c' p q = some r := by
  obtain ⟨p', m⟩ := r
  obtain ⟨rfl, rfl, hle⟩ := advanceTo_some he
  unfold Machine.advanceTo
  split
  · rename_i h1
    rw [max_eq_left h1, countIn_eq_zero_of_le c h1]
  · have hq : q ≤ h := by omega
    rw [if_neg (by omega), count_of_le c' p (by omega : q ≤ h'), hc.countIn p hq,
      max_eq_right (by omega : p ≤ q)]
    rfl

theorem ChannelExtends.wouldTransitionWithin (hc : ChannelExtends h c c') (hh : h ≤ h')
    {p d : Nat} {b : Bool} (he : wouldTransitionWithin h c p d = some b) :
    wouldTransitionWithin h' c' p d = some b := by
  unfold Machine.wouldTransitionWithin at he ⊢
  split
  · rename_i h0
    rw [if_pos h0] at he
    exact he
  · rename_i h0
    rw [if_neg h0] at he
    split at he
    · cases he
    · rw [if_neg (by omega)]
      simp only [Option.bind_eq_bind, Option.bind_eq_some_iff] at he ⊢
      obtain ⟨m, hm, hb⟩ := he
      exact ⟨m, hc.count hh hm, hb⟩

end channel

/-! ## The channels of an extended capture -/

theorem Extends.signal {cap cap' : Capture} (h : Extends cap cap') (j : Nat) :
    ChannelExtends cap.horizon (cap.signal j) (cap'.signal j) := by
  obtain ⟨more, -, hlen, hmore, hsig⟩ := h
  unfold Capture.signal
  rw [hsig, List.getD_eq_getElem?_getD, List.getD_eq_getElem?_getD, List.getElem?_zipWith]
  cases ha : cap.signals[j]? with
  | none => exact ChannelExtends.refl _ _
  | some c =>
    have hj : j < more.length := by
      rw [hlen]
      exact (List.getElem?_eq_some_iff.1 ha).1
    rw [List.getElem?_eq_getElem hj]
    exact ⟨more[j], hmore _ (List.getElem_mem hj), rfl⟩

theorem Extends.bound {cap cap' : Capture} (h : Extends cap cap') (binding : List Nat) (i : Nat) :
    ChannelExtends cap.horizon (cap.bound binding i) (cap'.bound binding i) := by
  unfold Capture.bound
  split
  · exact h.signal _
  · exact ChannelExtends.refl _ _

section state
variable {s t : State} {cap : Capture}

theorem Extends.clk (h : Extends s.capture cap) (i : Nat) :
    ChannelExtends s.horizon (s.clk i) ((s.withCapture cap).clk i) := Extends.bound h _ i

theorem Extends.dat (h : Extends s.capture cap) (i : Nat) :
    ChannelExtends s.horizon (s.dat i) ((s.withCapture cap).dat i) := Extends.bound h _ i

theorem Extends.horizon (h : Extends s.capture cap) :
    s.horizon ≤ (s.withCapture cap).horizon := h.choose_spec.1

theorem peekClkEdge_extends (h : Extends s.capture cap) {e : Nat} (he : peekClkEdge s = some e) :
    peekClkEdge (s.withCapture cap) = some e :=
  (Extends.clk h s.lastNode).nextEdge (Extends.horizon h) he

theorem advanceNodes_extends (h : Extends s.capture cap) {target i : Nat} {nds : List NodeCursors}
    {r : List NodeCursors × Bool} (he : advanceNodes s target i nds = some r) :
    advanceNodes (s.withCapture cap) target i nds = some r := by
  induction nds generalizing i r with
  | nil => exact he
  | cons nd rest ih =>
    simp only [advanceNodes, Option.bind_eq_bind, Option.bind_eq_some_iff, Prod.exists,
      Option.some.injEq] at he ⊢
    obtain ⟨c, m, hc, d, m', hd, r', b', hr, hb⟩ := he
    exact ⟨c, m, (Extends.clk h i).advanceTo (Extends.horizon h) hc, d, m',
      (Extends.dat h i).advanceTo (Extends.horizon h) hd, r', b', ih hr, hb⟩

theorem advanceAllTo_extends (h : Extends s.capture cap) {target : Nat} {b : Bool}
    (he : advanceAllTo target s = some (t, b)) :
    advanceAllTo target (s.withCapture cap) = some (t.withCapture cap, b) := by
  simp only [advanceAllTo, Option.bind_eq_bind, Option.bind_eq_some_iff, Prod.exists,
    Option.some.injEq, Prod.mk.injEq] at he ⊢
  obtain ⟨ns, b', hn, rfl, rfl⟩ := he
  exact ⟨ns, b', advanceNodes_extends h hn, rfl, rfl⟩

theorem clkEdge_extends (h : Extends s.capture cap) {e : Nat} {b : Bool}
    (he : clkEdge s = some (e, b, t)) :
    clkEdge (s.withCapture cap) = some (e, b, t.withCapture cap) := by
  simp only [clkEdge, Option.bind_eq_bind, Option.bind_eq_some_iff, Prod.exists,
    Option.some.injEq, Prod.mk.injEq] at he ⊢
  obtain ⟨e', hp, s', b', ha, rfl, rfl, rfl⟩ := he
  exact ⟨_, peekClkEdge_extends h hp, _, _, advanceAllTo_extends h ha, rfl, rfl, rfl⟩

theorem bitAt_extends (h : Extends s.capture cap) {e : Nat} {b : Level}
    (he : bitAt s e = some b) : bitAt (s.withCapture cap) e = some b := by
  unfold bitAt level at he ⊢
  split at he
  · rename_i hle
    have := Extends.horizon h
    rw [if_pos (by omega)]
    rw [← he]
    exact congrArg some ((Extends.dat h s.lastNode).levelAt hle)
  · cases he

theorem levelsAt_extends (h : Extends s.capture cap) {e : Nat} {levels : List Level}
    (he : levelsAt s e = some levels) : levelsAt (s.withCapture cap) e = some levels := by
  unfold levelsAt at he ⊢
  split at he
  · rename_i hle
    have := Extends.horizon h
    rw [if_pos (by omega), ← he]
    refine congrArg some ?_
    unfold State.datLevels
    exact List.map_congr_left fun i _ => (Extends.dat h i).levelAt hle
  · cases he

end state

end Sys2Proof.Machine
end

