-- ==== Sys2Proof/Laws/Host.lean ====
section
/-! SUPPORT. What each host action can answer (spec/60_exceptions.md rule R215), said once, with the
condition under which the host may extend a capture in words. -/

namespace Sys2Proof.Machine

open Sys2Proof

/-- Rules R56 and R239: what makes an extension one the host may make. -/
theorem Capture.mayExtend_iff (cap : Capture) (h : Nat) (more : List (List Nat)) :
    cap.mayExtend h more = true ↔
      cap.final = false ∧ cap.horizon < h ∧ h ≤ maxHorizon ∧
        more.length = cap.signals.length ∧
        ∀ ts ∈ more, ts.Pairwise (· < ·) ∧ ∀ t ∈ ts, cap.horizon < t ∧ t ≤ h := by
  simp only [Capture.mayExtend, Bool.and_eq_true, Bool.not_eq_true', decide_eq_true_eq,
    List.all_eq_true, risesFrom_iff, and_assoc]
  refine and_congr_right fun _ => and_congr_right fun _ => and_congr_right fun _ =>
    and_congr_right fun _ => forall_congr' fun ts => imp_congr_right fun _ => ?_
  exact ⟨fun ⟨lo, rise, hi⟩ => ⟨rise, fun t ht => ⟨lo t ht, hi t ht⟩⟩,
    fun ⟨rise, both⟩ => ⟨fun t ht => (both t ht).1, rise, fun t ht => (both t ht).2⟩⟩

/-- A conditional answer that is a next state. -/
theorem ite_next_iff {c : Prop} [Decidable c] {u t : State} {r : Refusal} :
    (if c then (.next u : Host.Outcome State Fault Refusal) else .refused r) = .next t ↔
      c ∧ t = u := by
  by_cases hc : c
  · rw [if_pos hc]
    exact ⟨fun h => ⟨hc, (Host.Outcome.next.inj h).symm⟩, fun h => h.2 ▸ rfl⟩
  · rw [if_neg hc]
    exact ⟨nofun, fun h => absurd h.1 hc⟩

/-- A reset that is not refused had admitted inputs. -/
theorem hostReset_eq_next {cfg : Config} {cap : Capture} {s t : State} :
    hostReset cfg cap s = .next t ↔
      cfg.wf = true ∧ cap.admittedFor cfg = true ∧ t = resetWith cfg cap s.stop := by
  unfold hostReset
  cases cfg.wf
  · exact ⟨nofun, nofun⟩
  · cases cap.admittedFor cfg
    · exact ⟨nofun, nofun⟩
    · exact ⟨fun h => ⟨rfl, rfl, (Host.Outcome.next.inj h).symm⟩, fun h => h.2.2 ▸ rfl⟩

/-- An extension that is not refused changes the capture and nothing else. -/
theorem hostExtend_eq_next {h : Nat} {more : List (List Nat)} {s t : State} :
    hostExtend h more s = .next t ↔
      s.capture.mayExtend h more = true ∧ t = { s with capture := s.capture.extend h more } :=
  ite_next_iff

/-- Setting `final`, when it is not refused, changes that flag and nothing else. -/
theorem hostSetFinal_eq_next {s t : State} :
    hostSetFinal s = .next t ↔
      s.capture.final = false ∧ t = { s with capture := { s.capture with final := true } } := by
  unfold hostSetFinal
  cases s.capture.final
  · exact ⟨fun h => ⟨rfl, (Host.Outcome.next.inj h).symm⟩, fun h => h.2 ▸ rfl⟩
  · exact ⟨nofun, nofun⟩

/-- An extension keeps the number of signals, so every binding stays within the capture. -/
theorem Capture.extend_admittedFor {cap : Capture} {cfg : Config} {h : Nat}
    {more : List (List Nat)} (ha : cap.admittedFor cfg = true)
    (hm : cap.mayExtend h more = true) : (cap.extend h more).admittedFor cfg = true := by
  have hlen : (cap.extend h more).signals.length = cap.signals.length := by
    simp [Capture.extend, ((Capture.mayExtend_iff cap h more).1 hm).2.2.2.1]
  have hw := Capture.extend_wf (Capture.wf_of_admittedFor ha) hm
  simpa only [Capture.admittedFor, hlen, hw, Capture.wf_of_admittedFor ha] using ha

/-! ## The end of a run (rule R216) -/

@[simp] theorem withCapture_ended (s : State) (cap : Capture) :
    (s.withCapture cap).ended = s.ended := rfl

@[simp] theorem hostSetStop_ended (b : Bool) (s : State) : (hostSetStop b s).ended = s.ended := rfl

theorem ended_iff (s : State) :
    s.ended = true ↔ s.phase = PhaseCode.fault ∨ s.phase = PhaseCode.halted ∨ s.atEnd = true := by
  simp [State.ended, or_assoc]

end Sys2Proof.Machine
end

