-- ==== Sys2Proof/Laws/LockStep.lean ====
section
/-! SUPPORT. What the phase operations do in lock-step: where the cursors stand afterwards and how the
samples they write lie to each other. -/

namespace Sys2Proof.Machine

open Sys2Proof

/-- One arbiter cell in lock-step: the latch edge, then the drive edge. -/
theorem arbiterCell_lockStep {s t : State} {p e : Nat} {levels : List Level}
    (hw : s.cfg.wf = true) (h : LockStep s p) (hc : arbiterCell s = some (e, levels, t)) :
    levels = s.datLevels e ∧
      ∃ q, p < e ∧ e < q ∧ q ≤ s.horizon ∧ t = (s.allAt q).latch e := by
  simp only [arbiterCell, Option.bind_eq_bind, Option.bind_eq_some_iff, Prod.exists,
    Option.some.injEq, Prod.mk.injEq] at hc
  obtain ⟨e₁, b₁, s₁, h1, lv, h2, e₂, b₂, s₂, h3, rfl, rfl, rfl⟩ := hc
  obtain ⟨-, -, rfl, hlt, hle⟩ := clkEdge_some_lockStep hw h h1
  obtain ⟨-, -, rfl, hlt', hle'⟩ := clkEdge_some_lockStep (s := (s.allAt e₁).latch e₁) hw
    (lockStep_allAt s e₁) h3
  rw [levelsAt_of_le (s := s.allAt e₁) hle, Option.some.injEq] at h2
  exact ⟨h2.symm, e₂, hlt, hlt', hle', rfl⟩

/-- One control cell in lock-step. -/
theorem controlCell_lockStep {s t : State} {p e : Nat} {b : Level}
    (hw : s.cfg.wf = true) (h : LockStep s p) (hc : controlCell s = some (e, b, t)) :
    b = tapLevel s e ∧ ∃ q, p < e ∧ e < q ∧ q ≤ s.horizon ∧ t = (s.allAt q).latch e := by
  simp only [controlCell, Option.bind_eq_bind, Option.bind_eq_some_iff, Prod.exists,
    Option.some.injEq, Prod.mk.injEq] at hc
  obtain ⟨e₁, b₁, s₁, h1, lv, h2, e₂, b₂, s₂, h3, rfl, rfl, rfl⟩ := hc
  obtain ⟨-, -, rfl, hlt, hle⟩ := clkEdge_some_lockStep hw h h1
  obtain ⟨-, -, rfl, hlt', hle'⟩ := clkEdge_some_lockStep (s := (s.allAt e₁).latch e₁) hw
    (lockStep_allAt s e₁) h3
  rw [bitAt_of_le (s := s.allAt e₁) hle, Option.some.injEq] at h2
  exact ⟨h2.symm, e₂, hlt, hlt', hle', rfl⟩

/-- RESERVED in lock-step: the latch edge, and the sample every cursor stops at. -/
theorem reservedPhase_lockStep {s t : State} {p : Nat} (hw : s.cfg.wf = true) (h : LockStep s p)
    (hr : reservedPhase s = some t) :
    ∃ e stop q, p < e ∧ e ≤ stop ∧ stop ≤ q ∧ q ≤ s.horizon ∧
      t = complete ((emitFrame .reservedBit (noWinnerFlag s) s.mark stop 0#64 0#64 (stop + 1)
        ((s.allAt q).latch e)).goto PhaseCode.address) := by
  simp only [reservedPhase, Option.bind_eq_bind, Option.bind_eq_some_iff, Prod.exists] at hr
  obtain ⟨e, b, s₁, hc, e₂, hp₂, early, hcount, hr⟩ := hr
  obtain ⟨-, -, rfl, hlt, hle⟩ := clkEdge_some_lockStep hw h hc
  have hl : LockStep ((s.allAt e).latch e) e := lockStep_allAt s e
  split at hr
  · rename_i hpos
    simp only [Option.bind_eq_some_iff, Prod.exists, Option.some.injEq] at hr
    obtain ⟨d, hd, s₃, b₃, ha, rfl⟩ := hr
    rw [hl.datPos (lastNode_lt (s := (s.allAt e).latch e) hw)] at hd
    obtain ⟨-, hed, hdh⟩ := nextEdge_some hd
    have hdh' : d ≤ s.horizon := hdh
    rw [advanceAllTo_lockStep hl (by omega) (show d - 1 ≤ s.horizon by omega), Option.some.injEq,
      Prod.mk.injEq] at ha
    obtain ⟨rfl, -⟩ := ha
    refine ⟨e, d - 1, d - 1, hlt, by omega, le_refl _, by omega, ?_⟩
    rw [Nat.sub_add_cancel (by omega)]
    rfl
  · simp only [Option.bind_eq_some_iff, Prod.exists, Option.some.injEq] at hr
    obtain ⟨e₃, b₃, s₃, ha, rfl⟩ := hr
    obtain ⟨-, -, rfl, hlt', hle'⟩ := clkEdge_some_lockStep (s := (s.allAt e).latch e) hw hl ha
    exact ⟨e, e, e₃, hlt, le_refl _, le_of_lt hlt', hle', rfl⟩

/-- The ADDRESS loop in lock-step. It commits an address whose last latch lies behind the cursors,
and may leave an interruption pending at the sample the cursors stand at; or it faults there. -/
theorem addressLoop_lockStep {fuel k bits : Nat} {v : BitVec 32} {s t : State} {p : Nat}
    (hw : s.cfg.wf = true) (h : LockStep s p) (hr : addressLoop fuel k bits v s = some t) :
    (∃ v' q latch pending stop,
      ((q = p ∧ latch = s.lastLatch) ∨ (p < latch ∧ latch < q ∧ q ≤ s.horizon)) ∧
      ((pending = s.intPending ∧ stop = s.intEnd) ∨ (pending = true ∧ stop = q ∧ latch < q)) ∧
      t = commitAddress v' { s.allAt q with
        lastLatch := latch, intPending := pending, intEnd := stop }) ∨
    (∃ q latch, p < q ∧ q ≤ s.horizon ∧ (latch = s.lastLatch ∨ (p < latch ∧ latch < q)) ∧
      t = raiseFault .addrInterrupt q { s.allAt q with lastLatch := latch }) := by
  induction fuel generalizing k bits v s p with
  | zero =>
    simp only [addressLoop, Option.some.injEq] at hr
    refine .inl ⟨v, p, s.lastLatch, _, _, .inl ⟨rfl, rfl⟩, .inl ⟨rfl, rfl⟩, ?_⟩
    rw [allAt_of_lockStep h]
    exact hr.symm
  | succ fuel ih =>
    unfold addressLoop at hr
    split at hr
    · simp only [Option.bind_eq_bind, Option.bind_eq_some_iff, Prod.exists] at hr
      obtain ⟨e₁, i₁, s₁, hc, hr⟩ := hr
      obtain ⟨-, -, rfl, hlt, hle⟩ := clkEdge_some_lockStep hw h hc
      split at hr
      · rw [Option.some.injEq] at hr
        exact .inr ⟨e₁, s.lastLatch, hlt, hle, .inl rfl, hr.symm⟩
      · simp only [Option.bind_eq_some_iff, Prod.exists] at hr
        obtain ⟨b, -, e₂, i₂, s₃, hc', hr⟩ := hr
        obtain ⟨-, -, rfl, hlt', hle'⟩ := clkEdge_some_lockStep (s := (s.allAt e₁).latch e₁) hw
          (lockStep_allAt s e₁) hc'
        generalize (if k + 1 = 8 ∧ longMarker (shiftIn v b) = true then 32 else bits) = bits' at hr
        split at hr
        · split at hr
          · rename_i heq
            rw [addressLoop_done (by omega), Option.some.injEq] at hr
            exact .inl ⟨_, e₂, e₁, true, e₂, .inr ⟨hlt, hlt', hle'⟩, .inr ⟨rfl, rfl, hlt'⟩,
              hr.symm⟩
          · rw [Option.some.injEq] at hr
            exact .inr ⟨e₂, e₁, by omega, hle', .inr ⟨hlt, hlt'⟩, hr.symm⟩
        · rcases ih (s := (s.allAt e₂).latch e₁) (p := e₂) hw (lockStep_allAt s e₂) hr with
            ⟨v', q, l, pd, st, hq, hpd, ht⟩ | ⟨q, l, hq, hq', hl, ht⟩
          · refine .inl ⟨v', q, l, pd, st, ?_, hpd, ht⟩
            rcases hq with ⟨rfl, rfl⟩ | ⟨h1, h2, h3⟩
            · exact .inr ⟨hlt, hlt', hle'⟩
            · exact .inr ⟨by omega, h2, h3⟩
          · refine .inr ⟨q, l, by omega, hq', .inr ?_, ht⟩
            rcases hl with rfl | ⟨h1, h2⟩
            · exact ⟨hlt, lt_trans hlt' hq⟩
            · exact ⟨by omega, h2⟩
    · rw [Option.some.injEq] at hr
      refine .inl ⟨v, p, s.lastLatch, _, _, .inl ⟨rfl, rfl⟩, .inl ⟨rfl, rfl⟩, ?_⟩
      rw [allAt_of_lockStep h]
      exact hr.symm

/-- ADDRESS in lock-step: at least one bit was latched before it commits. -/
theorem addressPhase_lockStep {s t : State} {p : Nat} (hw : s.cfg.wf = true) (h : LockStep s p)
    (hr : addressPhase s = some t) :
    (∃ v' q latch pending stop, p < latch ∧ latch < q ∧ q ≤ s.horizon ∧
      ((pending = s.intPending ∧ stop = s.intEnd) ∨ (pending = true ∧ stop = q)) ∧
      t = commitAddress v' { s.allAt q with
        lastLatch := latch, intPending := pending, intEnd := stop }) ∨
    (∃ q latch, p < q ∧ q ≤ s.horizon ∧ (latch = s.lastLatch ∨ (p < latch ∧ latch < q)) ∧
      t = raiseFault .addrInterrupt q { s.allAt q with lastLatch := latch }) := by
  unfold addressPhase addressLoop at hr
  rw [if_pos (by decide)] at hr
  simp only [Option.bind_eq_bind, Option.bind_eq_some_iff, Prod.exists] at hr
  obtain ⟨e₁, i₁, s₁, hc, hr⟩ := hr
  obtain ⟨-, -, rfl, hlt, hle⟩ := clkEdge_some_lockStep hw h hc
  split at hr
  · rw [Option.some.injEq] at hr
    exact .inr ⟨e₁, s.lastLatch, hlt, hle, .inl rfl, hr.symm⟩
  · simp only [Option.bind_eq_some_iff, Prod.exists] at hr
    obtain ⟨b, -, e₂, i₂, s₃, hc', hr⟩ := hr
    obtain ⟨-, -, rfl, hlt', hle'⟩ := clkEdge_some_lockStep (s := (s.allAt e₁).latch e₁) hw
      (lockStep_allAt s e₁) hc'
    rw [if_neg (show ¬ (0 + 1 = 8 ∧ longMarker (shiftIn 0#32 b) = true) by omega)] at hr
    split at hr
    · rw [if_neg (by omega), Option.some.injEq] at hr
      exact .inr ⟨e₂, e₁, by omega, hle', .inr ⟨hlt, hlt'⟩, hr.symm⟩
    · rcases addressLoop_lockStep (s := (s.allAt e₂).latch e₁) (p := e₂) hw (lockStep_allAt s e₂)
        hr with ⟨v', q, l, pd, st, hq, hpd, ht⟩ | ⟨q, l, hq, hq', hl, ht⟩
      · have key : p < l ∧ l < q ∧ q ≤ s.horizon := by
          rcases hq with ⟨rfl, rfl⟩ | ⟨h1, h2, h3⟩
          · exact ⟨hlt, hlt', hle'⟩
          · exact ⟨by omega, h2, h3⟩
        refine .inl ⟨v', q, l, pd, st, key.1, key.2.1, key.2.2, ?_, ht⟩
        rcases hpd with h1 | ⟨h1, h2, -⟩
        · exact .inl h1
        · exact .inr ⟨h1, h2⟩
      · refine .inr ⟨q, l, by omega, hq', .inr ?_, ht⟩
        rcases hl with rfl | ⟨h1, h2⟩
        · exact ⟨hlt, lt_trans hlt' hq⟩
        · exact ⟨by omega, h2⟩

/-- The DATA loop in lock-step. -/
theorem dataLoop_lockStep {left : Nat} {v : BitVec 8} {s t : State} {p : Nat}
    (hw : s.cfg.wf = true) (h : LockStep s p) (hr : dataLoop left v s = some t) :
    (∃ v' q latch pending stop,
      ((left = 0 ∧ q = p ∧ latch = s.lastLatch) ∨ (p < latch ∧ latch < q ∧ q ≤ s.horizon)) ∧
      ((pending = s.intPending ∧ stop = s.intEnd) ∨ (pending = true ∧ stop = q ∧ latch < q)) ∧
      t = commitData v' { s.allAt q with
        lastLatch := latch, intPending := pending, intEnd := stop }) ∨
    (∃ q latch, p < q ∧ q ≤ s.horizon ∧ (latch = s.lastLatch ∨ (p < latch ∧ latch < q)) ∧
      t = commitInterrupt q { s.allAt q with lastLatch := latch }) := by
  induction left generalizing v s p with
  | zero =>
    simp only [dataLoop, Option.some.injEq] at hr
    refine .inl ⟨v, p, s.lastLatch, _, _, .inl ⟨rfl, rfl, rfl⟩, .inl ⟨rfl, rfl⟩, ?_⟩
    rw [allAt_of_lockStep h]
    exact hr.symm
  | succ left ih =>
    simp only [dataLoop, Option.bind_eq_bind, Option.bind_eq_some_iff, Prod.exists] at hr
    obtain ⟨e₁, i₁, s₁, hc, hr⟩ := hr
    obtain ⟨-, -, rfl, hlt, hle⟩ := clkEdge_some_lockStep hw h hc
    split at hr
    · rw [Option.some.injEq] at hr
      exact .inr ⟨e₁, s.lastLatch, hlt, hle, .inl rfl, hr.symm⟩
    · simp only [Option.bind_eq_some_iff, Prod.exists] at hr
      obtain ⟨b, -, e₂, i₂, s₃, hc', hr⟩ := hr
      obtain ⟨-, -, rfl, hlt', hle'⟩ := clkEdge_some_lockStep (s := (s.allAt e₁).latch e₁) hw
        (lockStep_allAt s e₁) hc'
      split at hr
      · split at hr
        · rw [Option.some.injEq] at hr
          exact .inl ⟨_, e₂, e₁, true, e₂, .inr ⟨hlt, hlt', hle'⟩, .inr ⟨rfl, rfl, hlt'⟩, hr.symm⟩
        · rw [Option.some.injEq] at hr
          exact .inr ⟨e₂, e₁, by omega, hle', .inr ⟨hlt, hlt'⟩, hr.symm⟩
      · rcases ih (s := (s.allAt e₂).latch e₁) (p := e₂) hw (lockStep_allAt s e₂) hr with
          ⟨v', q, l, pd, st, hq, hpd, ht⟩ | ⟨q, l, hq, hq', hl, ht⟩
        · refine .inl ⟨v', q, l, pd, st, .inr ?_, hpd, ht⟩
          rcases hq with ⟨-, rfl, rfl⟩ | ⟨h1, h2, h3⟩
          · exact ⟨hlt, hlt', hle'⟩
          · exact ⟨by omega, h2, h3⟩
        · refine .inr ⟨q, l, by omega, hq', .inr ?_, ht⟩
          rcases hl with rfl | ⟨h1, h2⟩
          · exact ⟨hlt, lt_trans hlt' hq⟩
          · exact ⟨by omega, h2⟩

/-! ## Whole operations in lock-step -/

section
variable {s t : State} {p : Nat}

/-- ARBITRATION in lock-step. -/
theorem arbitrationPhase_lockStep (hw : s.cfg.wf = true) (hl : LockStep s p)
    (h : arbitrationPhase s = some t) :
    ∃ e q, p < e ∧ e < q ∧ q ≤ s.horizon ∧
      t = complete ((emitFrame .arbitration
        (arbitrationFlags (arbitrationMatches s.cfg.n (s.datLevels e))) s.mark e
        (arbitrationValue (arbitrationMatches s.cfg.n (s.datLevels e))) 0#64 (e + 1)
        (setWinner (arbitrationMatches s.cfg.n (s.datLevels e))
          ((s.allAt q).latch e))).goto PhaseCode.priority) := by
  simp only [arbitrationPhase, Option.bind_eq_bind, Option.bind_eq_some_iff, Prod.exists,
    Option.some.injEq] at h
  obtain ⟨e, lv, s₂, hc, rfl⟩ := h
  obtain ⟨rfl, q, h1, h2, h3, rfl⟩ := arbiterCell_lockStep hw hl hc
  exact ⟨e, q, h1, h2, h3, rfl⟩

/-- PRIORITY in lock-step. -/
theorem priorityPhase_lockStep (hw : s.cfg.wf = true) (hl : LockStep s p)
    (h : priorityPhase s = some t) :
    ∃ e q ms, p < e ∧ e < q ∧ q ≤ s.horizon ∧
      ms = priorityMatches s.cfg.n (s.datLevels e) s.tx.toNat ∧
      t = complete ((
        if s.txValid then
          emitFrame .priorityArbitration (priorityFlags ms) s.mark e
            (nodeVector ms ||| (replaceWinner ms ((s.allAt q).latch e)).tx.setWidth 64) 0#64
            (e + 1) (replaceWinner ms ((s.allAt q).latch e))
        else
          emitFrame .priorityArbitration Flag.noWinner s.mark e 0#64 0#64 (e + 1)
            ((s.allAt q).latch e)).goto PhaseCode.reserved) := by
  simp only [priorityPhase, Option.bind_eq_bind, Option.bind_eq_some_iff, Prod.exists,
    Option.some.injEq] at h
  obtain ⟨e, lv, s₂, hc, rfl⟩ := h
  obtain ⟨rfl, q, h1, h2, h3, rfl⟩ := arbiterCell_lockStep hw hl hc
  exact ⟨e, q, _, h1, h2, h3, rfl, rfl⟩

/-- CONTROL0 in lock-step. -/
theorem control0Phase_lockStep (hw : s.cfg.wf = true) (hl : LockStep s p)
    (h : control0Phase s = some t) :
    ∃ e q, p < e ∧ e < q ∧ q ≤ s.horizon ∧
      t = complete ((emitFrame .controlBit0 (noWinnerFlag s) s.mark e (bitField 64 (tapLevel s e))
        0#64 (e + 1) { (s.allAt q).latch e with cb0 := tapLevel s e }).goto
          PhaseCode.control1) := by
  simp only [control0Phase, Option.bind_eq_bind, Option.bind_eq_some_iff, Prod.exists,
    Option.some.injEq] at h
  obtain ⟨e, b, s₂, hc, rfl⟩ := h
  obtain ⟨rfl, q, h1, h2, h3, rfl⟩ := controlCell_lockStep hw hl hc
  exact ⟨e, q, h1, h2, h3, rfl⟩

/-- CONTROL1 in lock-step: the cursors stop at the silent edge. -/
theorem control1Phase_lockStep (hw : s.cfg.wf = true) (hl : LockStep s p)
    (h : control1Phase s = some t) :
    ∃ e q, p < e ∧ e < q ∧ q ≤ s.horizon ∧
      t = complete ((emitFrame .controlBit1 (noWinnerFlag s) s.mark e (bitField 64 (tapLevel s e))
        0#64 (q + 1) ((s.allAt q).latch e)).goto PhaseCode.request) := by
  simp only [control1Phase, Option.bind_eq_bind, Option.bind_eq_some_iff, Prod.exists,
    Option.some.injEq] at h
  obtain ⟨e, b, s₂, hc, e₃, b₃, s₃, hc', rfl⟩ := h
  obtain ⟨rfl, q, h1, h2, h3, rfl⟩ := controlCell_lockStep hw hl hc
  obtain ⟨-, -, rfl, hlt, hle⟩ := clkEdge_some_lockStep (s := (s.allAt q).latch e) hw
    (lockStep_allAt s q) hc'
  exact ⟨e, e₃, h1, by omega, hle, rfl⟩

/-- DATA in lock-step. -/
theorem dataPhase_lockStep (hw : s.cfg.wf = true) (hl : LockStep s p)
    (h : dataPhase s = some t) :
    (s.intPending = true ∧ t = { commitInterrupt s.intEnd s with intPending := false }) ∨
    (s.intPending = false ∧ ∃ v' q latch pending stop,
      p < latch ∧ latch < q ∧ q ≤ s.horizon ∧
      ((pending = false ∧ stop = s.intEnd) ∨ (pending = true ∧ stop = q)) ∧
      t = commitData v' { s.allAt q with
        lastLatch := latch, intPending := pending, intEnd := stop }) ∨
    (s.intPending = false ∧ ∃ q latch, p < q ∧ q ≤ s.horizon ∧
      (latch = s.lastLatch ∨ (p < latch ∧ latch < q)) ∧
      t = commitInterrupt q { s.allAt q with lastLatch := latch }) := by
  unfold dataPhase at h
  cases hp : s.intPending with
  | true =>
    rw [hp, if_pos rfl, Option.some.injEq] at h
    exact .inl ⟨rfl, h.symm⟩
  | false =>
    rw [hp, if_neg (by simp)] at h
    rcases dataLoop_lockStep hw hl h with ⟨v, q, l, pd, st, h1, h2, rfl⟩ | ⟨q, l, h1, h2, h3, rfl⟩
    · rcases h1 with ⟨h1, -⟩ | ⟨h1, h3, h4⟩
      · cases h1
      · rw [hp] at h2
        refine .inr (.inl ⟨rfl, v, q, l, pd, st, h1, h3, h4, ?_, rfl⟩)
        rcases h2 with h2 | ⟨h2, h5, -⟩
        · exact .inl h2
        · exact .inr ⟨h2, h5⟩
    · exact .inr (.inr ⟨rfl, q, l, h1, h2, h3, rfl⟩)

end

end Sys2Proof.Machine
end

