-- ==== Sys2Proof/Tests/Slice0.lean ====
section
/-! SUPPORT. The model's own tests. Expected values come from the rules and the vectors of spec/ (named
at each test), never from a run of the model. For each statement with hypotheses a `witness_` theorem
shows values that meet all of them together. -/

namespace Sys2Proof.Tests

open Sys2Proof Sys2Proof.Machine

-- One theorem at a time: each is small, and together their threads would need much memory.
set_option Elab.async false

/-! ## Helpers -/

/-- `count` samples from `a` in steps of `d`: the spec's `a..b/d`. -/
def every (a d count : Nat) : List Nat := (List.range count).map (fun i => a + d * i)

/-- A capture of `dats.length` nodes whose CLK lines are all equal, in the order of
`Config.interleaved`; every line starts HIGH. -/
def captureOf (clk : List Nat) (dats : List (List Nat)) (h : Nat) (final : Bool) : Capture :=
  { signals := dats.flatMap (fun d => [⟨HIGH, clk⟩, ⟨HIGH, d⟩])
    horizon := h
    final := final }

/-- A state in the middle of a transaction sent by node 1: every cursor at `pos`. -/
def stateAt (cap : Capture) (n : Nat) (phase : BitVec 4) (pos mark latch : Nat) : State :=
  { resetWith (Config.interleaved n) cap false with
    phase := phase
    nodes := List.replicate n ⟨pos, pos⟩
    txValid := true
    tx := 1#5
    firstReq := false
    mark := mark
    lastLatch := latch }

/-- The state a step answers, if it answers one. -/
def nextOf (o : Host.Outcome State Fault Refusal) : Option State :=
  match o with
  | .next t => some t
  | .fault _ => none
  | .refused _ => none

/-- Why a host action was refused. -/
def refusalOf (o : Host.Outcome State Fault Refusal) : Option Refusal :=
  match o with
  | .next _ => none
  | .fault _ => none
  | .refused r => some r

/-- The last frame in the sink after an operation. -/
def frameOf (o : Host.Outcome State Fault Refusal) : Option Frame :=
  (nextOf o).bind (fun t => t.sink.getLast?)

/-- Phase, `mark`, `last_latch` and the cursors after an operation. -/
def placesOf (o : Host.Outcome State Fault Refusal) :
    Option (BitVec 4 × Nat × Nat × List NodeCursors) :=
  (nextOf o).map (fun t => (t.phase, t.mark, t.lastLatch, t.nodes))

/-- The fault registers after an operation. -/
def faultOf (o : Host.Outcome State Fault Refusal) : Option (BitVec 4 × BitVec 2 × Nat) :=
  (nextOf o).map (fun t => (t.phase, t.errCode.code, t.errSample))

/-! ## Captures (spec/95_test_vectors.md part 3) -/

def p1Dat0 : List Nat :=
  [282, 302, 322] ++ every 362 20 4 ++ [462, 542] ++ every 572 2 7 ++ [622, 642]

/-- Program P1. -/
def p1 : Capture :=
  captureOf (every 200 10 38 ++ every 600 10 6) [p1Dat0, [100, 242] ++ p1Dat0] 750 true

/-- Program P1 cut at `H = 645` (V-CTL-3), and not final. -/
def p1Cut : Capture :=
  captureOf (every 200 10 38 ++ every 600 10 5) [p1Dat0, [100, 242] ++ p1Dat0] 645 false

/-- Program P2, up to the address (a long one, 0xF0000123). -/
def p2 : Capture :=
  captureOf (every 200 10 86) [[342, 722, 742, 782, 802, 862], [100, 242, 342, 722, 742, 782, 802, 862]]
    1060 true

def p5Dat0 : List Nat :=
  [282, 302, 322] ++ every 362 20 4 ++ [462, 542, 582, 602, 622] ++ every 634 2 6 ++ [662, 702]

/-- Program P5. -/
def p5 : Capture :=
  captureOf (every 200 10 44 ++ every 660 10 6) [p5Dat0, [100, 242] ++ p5Dat0] 810 true

def p9Dat0 : List Nat :=
  [282, 302, 322] ++ every 332 2 7 ++ every 362 20 5 ++ [482, 562, 602, 622, 642]

/-- Program P9. -/
def p9 : Capture :=
  captureOf (every 200 10 14 ++ every 360 10 30) [p9Dat0, [100, 242] ++ p9Dat0] 750 true

/-- The reserved-slot cut, V-RSV-2, up to the address. -/
def vRsv2 : Capture :=
  captureOf (every 200 10 6 ++ every 280 10 3) [every 254 2 6, [100, 242] ++ every 254 2 6] 300 true

def vAdr3Dat0 : List Nat := [342, 402] ++ every 414 2 6 ++ [442]

/-- V-ADR-3, up to the fault. -/
def vAdr3 : Capture :=
  captureOf (every 200 10 22 ++ [440, 450]) [vAdr3Dat0, [100, 242] ++ vAdr3Dat0] 455 true

def vDat3Dat0 : List Nat :=
  [282, 302, 322] ++ every 362 20 4 ++ [462, 542, 582, 602] ++ every 603 1 6 ++ [622, 662, 682]

/-- V-DAT-3. -/
def vDat3 : Capture :=
  captureOf (every 200 10 50) [vDat3Dat0, [100, 242] ++ vDat3Dat0] 790 true

/-- Two clock edges 10 and 20 and given DAT lines, for the match tables: a line that starts HIGH is
LOW from sample 5 on when its entry is `true`. -/
def lowLines (low : List Bool) : Capture :=
  captureOf [10, 20] (low.map (fun b => if b then [5] else [])) 30 true

/-- The `k` cells from latch edge `l` on, with edges 10 apart. -/
def cellsAt (l k : Nat) : List BitCell := (List.range k).map (fun i => ⟨l + 20 * i, l + 10 + 20 * i⟩)

/-! ## Well-formedness -/

theorem test_wf_refuses_code_of_other_mask :
    (Instr.reservedPhase101x 0xC#4).wf = false ∧ (Instr.reservedPhase11xx 0xB#4).wf = false ∧
      (Instr.reservedPhase101x 0x9#4).wf = false := by decide

theorem test_wf_accepts_codes_of_its_mask :
    (Instr.reservedPhase101x 0xB#4).wf = true ∧ (Instr.reservedPhase11xx 0xC#4).wf = true := by
  decide

theorem test_config_refuses_one_node : (Config.interleaved 1).wf = false := by decide
theorem test_config_refuses_33_nodes : (Config.interleaved 33).wf = false := by decide
theorem test_config_accepts_2_and_32_nodes :
    (Config.interleaved 2).wf = true ∧ (Config.interleaved 32).wf = true := by decide
theorem test_config_refuses_threshold_0 :
    { Config.interleaved 2 with intThreshold := 0 }.wf = false := by decide
theorem test_config_refuses_threshold_6 :
    { Config.interleaved 2 with intThreshold := 6 }.wf = false := by decide
theorem test_config_refuses_short_clk_binding :
    { Config.interleaved 2 with clkBind := [0] }.wf = false := by decide
theorem test_config_refuses_long_dat_binding :
    { Config.interleaved 2 with datBind := [1, 3, 5] }.wf = false := by decide

theorem test_capture_refuses_transition_0 : (captureOf [0, 4] [[], []] 9 true).wf = false := by
  decide
theorem test_capture_refuses_unsorted : (captureOf [6, 4] [[], []] 9 true).wf = false := by decide
theorem test_capture_refuses_repeat : (captureOf [4, 4] [[], []] 9 true).wf = false := by decide
theorem test_capture_refuses_above_horizon :
    (captureOf [4, 10] [[], []] 9 true).wf = false := by decide
theorem test_capture_refuses_horizon_too_big :
    (captureOf [] [[], []] (2 ^ 64 - 1) true).wf = false := by decide
theorem test_capture_refuses_unbound_signal :
    (captureOf [] [[]] 9 true).admittedFor (Config.interleaved 2) = false := by decide
theorem test_capture_p1_admitted : p1.admittedFor (Config.interleaved 2) = true := by decide +kernel

/-! ## Decoding: words written out from rule R80's table, R81 and R103 -/

theorem test_decode_request : decodeTableWord 8 0b00000000 = some .request := by decide
theorem test_decode_arbitration : decodeTableWord 8 0b00000001 = some .arbitration := by decide
theorem test_decode_priority : decodeTableWord 8 0b00000010 = some .priority := by decide
theorem test_decode_reserved : decodeTableWord 8 0b00000011 = some .reserved := by decide
theorem test_decode_address : decodeTableWord 8 0b00000100 = some .address := by decide
theorem test_decode_data : decodeTableWord 8 0b00000101 = some .data := by decide
theorem test_decode_control0 : decodeTableWord 8 0b00000110 = some .control0 := by decide
theorem test_decode_control1 : decodeTableWord 8 0b00000111 = some .control1 := by decide
theorem test_decode_halted : decodeTableWord 8 0b00001000 = some .halted := by decide
theorem test_decode_fault : decodeTableWord 8 0b00001001 = some .fault := by decide
theorem test_decode_101x :
    decodeTableWord 8 0b00001010 = some (.reservedPhase101x 0b1010#4) ∧
      decodeTableWord 8 0b00001011 = some (.reservedPhase101x 0b1011#4) := by decide
theorem test_decode_11xx :
    decodeTableWord 8 0b00001100 = some (.reservedPhase11xx 0b1100#4) ∧
      decodeTableWord 8 0b00001111 = some (.reservedPhase11xx 0b1111#4) := by decide
theorem test_decode_table_bits : decodeTableWord 4 0b0101 = some .data := by decide

/-- A byte with a bit above the four of the register is refused by name. -/
theorem test_decode_refuses_high_nibble :
    decodeBytes [0x15#8] = .error (.notAPhaseCode 0x15#8) ∧ decodeBytes [] = .error .noByte := by
  decide

/-- Rule R103: every 4-bit value matches exactly one of the twelve rows (mask, match). -/
theorem test_every_code_matches_one_row :
    ∀ c : BitVec 4,
      (([(0xF#4, 0#4), (0xF#4, 1#4), (0xF#4, 2#4), (0xF#4, 3#4), (0xF#4, 4#4), (0xF#4, 5#4),
        (0xF#4, 6#4), (0xF#4, 7#4), (0xF#4, 8#4), (0xF#4, 9#4), (0xE#4, 0xA#4), (0xC#4, 0xC#4)] :
        List (BitVec 4 × BitVec 4)).countP (fun r => c &&& r.1 == r.2)) = 1 := by decide

/-! ## Frame words (spec/95_test_vectors.md, frame word packing) -/

theorem test_word_arbitration :
    Frame.word ⟨.arbitration, 0x00#8, 201, 210, 0x0000000200000001#64, 0#64⟩ =
      0x0000000000000000000000020000000100000000000000D200000000000000C9001#268 := by
  decide +kernel
theorem test_word_address :
    Frame.word ⟨.address, 0x00#8, 251, 410, 0xA5#64, 1#64⟩ =
      0x000000000000000100000000000000A5000000000000019A00000000000000FB004#268 := by
  decide +kernel
theorem test_word_request_quirk :
    Frame.word ⟨.request, 0x04#8, 651, 800, 0x0000000100000000#64, 0#64⟩ =
      0x000000000000000000000001000000000000000000000320000000000000028B040#268 := by
  decide +kernel
theorem test_word_reserved_kind_refused : Frame.ofWord 9#268 = none := by decide +kernel

/-! ## Match tables (spec/95_test_vectors.md part 2) -/

/-- V-REQ-6, V-REQ-7, V-REQ-10 and V-REQ-11: the requesters from the fall samples. -/
theorem test_requesters :
    requesters 3 [⟨false, 201⟩, ⟨true, 100⟩, ⟨true, 101⟩] = [1] ∧
      requesters 3 [⟨false, 201⟩, ⟨true, 100⟩, ⟨true, 99⟩] = [1, 2] ∧
      requesters 4 [⟨false, 201⟩, ⟨true, 100⟩, ⟨true, 101⟩, ⟨true, 100⟩] = [1, 3] ∧
      requesters 4 [⟨true, 120⟩, ⟨true, 110⟩, ⟨true, 105⟩, ⟨true, 130⟩] = [0, 1, 2] := by decide

/-- V-ARB-3, 4, 5, 7 and 11. -/
theorem test_arbitration_matches :
    arbitrationMatches 2 [LOW, HIGH] = [0] ∧ arbitrationMatches 2 [HIGH, HIGH] = [] ∧
      arbitrationMatches 4 [HIGH, LOW, HIGH, LOW] = [1, 3] ∧
      arbitrationMatches 3 [LOW, HIGH, LOW] = [0] ∧
      arbitrationMatches 5 [HIGH, HIGH, LOW, HIGH, LOW] = [2, 4] := by decide

/-- V-PRI-2, 3, 8, 9, 10 and 11, in scan order. -/
theorem test_priority_matches :
    priorityMatches 2 [LOW, HIGH] 1 = [0] ∧ priorityMatches 2 [LOW, LOW] 1 = [] ∧
      priorityMatches 3 [LOW, HIGH, LOW] 1 = [2] ∧
      priorityMatches 4 [HIGH, HIGH, LOW, HIGH] 2 = [] ∧
      priorityMatches 4 [HIGH, LOW, HIGH, LOW] 0 = [1, 3] ∧
      priorityMatches 4 [LOW, HIGH, LOW, HIGH] 3 = [0, 2] := by decide

/-- V-ADR-2 and V-DAT-1, bits first latched first. -/
theorem test_msb_first :
    shiftIn (shiftIn (shiftIn 0#8 HIGH) LOW) HIGH = 0b101#8 ∧ longMarker 0xF0#32 = true ∧
      longMarker 0xEF#32 = false := by decide

/-! ## One step of each operation -/

/-- P1, frame 1. -/
theorem test_request_p1 :
    frameOf (step (resetWith (Config.interleaved 2) p1 false)) =
      some ⟨.request, 0x00#8, 0, 200, 0x0000000200000000#64, 0#64⟩ := by decide +kernel

/-- V-REQ-12 and V-REQ-4: a later Request frame carries the quirk flag. -/
theorem test_request_quirk :
    frameOf (exec .request
        (stateAt (captureOf [200] [[101], [100]] 300 true) 2 0#4 0 7 0)) =
      some ⟨.request, 0x04#8, 7, 200, 0x0000000300000000#64, 0#64⟩ := by decide +kernel

/-- P1, frame 2, and the registers of V-STP-1. -/
theorem test_arbitration_p1 :
    frameOf (exec .arbitration (stateAt p1 2 1#4 200 201 0)) =
        some ⟨.arbitration, 0x00#8, 201, 210, 0x0000000200000001#64, 0#64⟩ ∧
      placesOf (exec .arbitration (stateAt p1 2 1#4 200 201 0)) =
        some (2#4, 211, 210, [⟨220, 220⟩, ⟨220, 220⟩]) := by decide +kernel

/-- V-ARB-5 and V-ARB-4: the flags, and `tx` without a winner. -/
theorem test_arbitration_flags :
    frameOf (exec .arbitration (stateAt (lowLines [false, true, false, true]) 4 1#4 0 0 0)) =
        some ⟨.arbitration, 0x01#8, 0, 10, 0x0000000A00000001#64, 0#64⟩ ∧
      (nextOf (exec .arbitration (stateAt (lowLines [false, false]) 2 1#4 0 0 0))).map
          (fun t => (t.txValid, t.tx, t.sink.map Frame.flags)) =
        some (false, 1#5, [0x02#8]) := by decide +kernel

/-- V-PRI-2 (the master takes priority) and V-PRI-13. -/
theorem test_priority_replaces :
    (nextOf (exec .priority (stateAt (lowLines [true, false]) 2 2#4 0 0 0))).map
        (fun t => (t.tx, t.sink)) =
        some (0#5, [⟨.priorityArbitration, 0x00#8, 0, 10, 0x0000000100000000#64, 0#64⟩]) ∧
      (nextOf (exec .priority
          { stateAt (lowLines [true, false]) 2 2#4 0 0 0 with txValid := false })).map
        (fun t => (t.tx, t.sink)) =
        some (1#5, [⟨.priorityArbitration, 0x02#8, 0, 10, 0#64, 0#64⟩]) := by decide +kernel

/-- V-PRI-11: the scan wraps past the last node. -/
theorem test_priority_wraps :
    (nextOf (exec .priority
        { stateAt (lowLines [true, false, true, false]) 4 2#4 0 0 0 with tx := 3#5 })).map
        (fun t => (t.tx, t.sink)) =
      some (0#5, [⟨.priorityArbitration, 0x01#8, 0, 10, 0x0000000500000000#64, 0#64⟩]) := by
  decide +kernel

/-- V-RSV-1. -/
theorem test_reserved_whole :
    frameOf (exec .reserved (stateAt p1 2 3#4 240 231 230)) =
        some ⟨.reservedBit, 0x00#8, 231, 250, 0#64, 0#64⟩ ∧
      placesOf (exec .reserved (stateAt p1 2 3#4 240 231 230)) =
        some (4#4, 251, 250, [⟨260, 260⟩, ⟨260, 260⟩]) := by decide +kernel

/-- V-RSV-2. -/
theorem test_reserved_cut :
    frameOf (exec .reserved (stateAt vRsv2 2 3#4 240 231 230)) =
        some ⟨.reservedBit, 0x00#8, 231, 253, 0#64, 0#64⟩ ∧
      placesOf (exec .reserved (stateAt vRsv2 2 3#4 240 231 230)) =
        some (4#4, 254, 250, [⟨253, 253⟩, ⟨253, 253⟩]) := by decide +kernel

/-- P1 and P2, frame 5. -/
theorem test_address_formats :
    frameOf (exec .address (stateAt p1 2 4#4 260 251 250)) =
        some ⟨.address, 0x00#8, 251, 410, 0xA5#64, 1#64⟩ ∧
      frameOf (exec .address (stateAt p2 2 4#4 260 251 250)) =
        some ⟨.address, 0x00#8, 251, 890, 0xF0000123#64, 1#64⟩ := by decide +kernel

/-- P9 and V-ADR-3: the two faults, with what is kept. -/
theorem test_address_faults :
    faultOf (exec .address (stateAt p9 2 4#4 260 251 250)) = some (9#4, 2#2, 360) ∧
      placesOf (exec .address (stateAt p9 2 4#4 260 251 250)) =
        some (9#4, 251, 330, [⟨360, 360⟩, ⟨360, 360⟩]) ∧
      faultOf (exec .address (stateAt vAdr3 2 4#4 260 251 250)) = some (9#4, 2#2, 440) := by
  decide +kernel

/-- P1, frame 6: a whole byte, and the interruption left pending. -/
theorem test_data_byte_p1 :
    (nextOf (exec .data (stateAt p1 2 5#4 420 411 410))).map
        (fun t => (t.sink, t.phase, t.intPending, t.intEnd)) =
      some ([⟨.data, 0x00#8, 411, 570, 0x3C#64, 1#64⟩], 5#4, true, 600) := by decide +kernel

/-- P5, frame 7 (found at a drive edge), and V-DAT-3, frame 7 (at a latch edge). -/
theorem test_data_interrupted :
    frameOf (exec .data (stateAt p5 2 5#4 580 571 570)) =
        some ⟨.interrupt, 0x00#8, 631, 660, 0#64, 0#64⟩ ∧
      frameOf (exec .data (stateAt vDat3 2 5#4 580 571 570)) =
        some ⟨.interrupt, 0x00#8, 591, 610, 0#64, 0#64⟩ := by decide +kernel

/-- P1, frames 8 and 9; `mark` ends past the silent edge (V-CTL-2). -/
theorem test_control0_p1 :
    frameOf (exec .control0 (stateAt p1 2 6#4 600 601 570)) =
        some ⟨.controlBit0, 0x00#8, 601, 610, 1#64, 0#64⟩ ∧
      (nextOf (exec .control0 (stateAt p1 2 6#4 600 601 570))).map State.cb0 = some HIGH := by
  decide +kernel
theorem test_control1_p1 :
    frameOf (exec .control1 (stateAt p1 2 7#4 620 611 610)) =
        some ⟨.controlBit1, 0x00#8, 611, 630, 0#64, 0#64⟩ ∧
      placesOf (exec .control1 (stateAt p1 2 7#4 620 611 610)) =
        some (0#4, 651, 630, [⟨650, 650⟩, ⟨650, 650⟩]) := by decide +kernel

/-- V-CTL-3: with the silent edge beyond the horizon nothing happens. -/
theorem test_control1_holds :
    nextOf (exec .control1 (stateAt p1Cut 2 7#4 620 611 610)) =
      some { stateAt p1Cut 2 7#4 620 611 610 with outcome := .hold } := by decide +kernel

/-- V-BAD-1. -/
theorem test_bad_state :
    faultOf (step { stateAt p1 2 0#4 330 0 0 with phase := 12#4 }) = some (9#4, 3#2, 330) := by
  decide +kernel

/-- V-STP-2 and V-STP-3. -/
theorem test_stop :
    (nextOf (step { State.reset with stop := true })).map State.phase = some 8#4 ∧
      (nextOf (step { State.reset with stop := true, phase := 9#4 })).map State.phase =
        some 9#4 := by decide +kernel

/-- V-CTL-1. -/
theorem test_outcomes :
    transactionOutcome HIGH LOW = .endOfMessageAck ∧ transactionOutcome HIGH HIGH = .endOfMessageNak ∧
      transactionOutcome LOW HIGH = .errorNode ∧ transactionOutcome LOW LOW = .errorInterrupted := by
  decide

/-- P10: DAT_1 LOW at sample 0, with the idle check on and off. -/
theorem test_reset_not_idle :
    faultOf (hostReset (Config.interleaved 2)
        { signals := [⟨HIGH, []⟩, ⟨HIGH, []⟩, ⟨HIGH, []⟩, ⟨LOW, [242]⟩], horizon := 750, final := true }
        State.reset) = some (9#4, 1#2, 0) ∧
      faultOf (hostReset { Config.interleaved 2 with idleCheck := false }
        { signals := [⟨HIGH, []⟩, ⟨HIGH, []⟩, ⟨HIGH, []⟩, ⟨LOW, [242]⟩], horizon := 750, final := true }
        State.reset) = some (0#4, 0#2, 0) := by decide +kernel

/-- The word placed for a fetch is the one the next step decodes, whatever `stop` was. -/
theorem test_withFetchWord :
    fetch (State.reset.withFetchWord 8 5) = .data ∧
      stopTakes ({ State.reset with stop := true }.withFetchWord 8 5) .data = false := by decide

/-! ## Witnesses: values that meet the hypotheses of each statement -/

/-- A frame of the last kind with an end sample at the bound, and a word with a reserved kind code. -/
theorem witness_FrameWordRoundTrip :
    (⟨.controlBit1, 0x00#8, 251, 2 ^ 64 - 1, 1#64, 0#64⟩ : Frame).startSample < 2 ^ 64 ∧
      (⟨.controlBit1, 0x00#8, 251, 2 ^ 64 - 1, 1#64, 0#64⟩ : Frame).endSample < 2 ^ 64 ∧
      9#4 ≤ (9#268).extractLsb' 0 4 := by decide +kernel

theorem witness_StepRunsTheDecodedOperation :
    (decodeBytes [State.reset.phase.setWidth 8] = .ok (.request, []) ∧ State.reset.stop = false) ∧
      decodeBytes [({ State.reset with stop := true, phase := 9#4 } : State).phase.setWidth 8] =
        .ok (.fault, []) := by decide

theorem witness_StopIsSampledFirst :
    State.reset.phase ≠ 0b1000#4 ∧ State.reset.phase ≠ 0b1001#4 ∧
      ({ State.reset with stop := true } : State).stop = true ∧
      ({ State.reset with phase := 8#4 } : State).phase = 0b1000#4 := by decide

theorem witness_ReservedCodesFault :
    0b1010#4 &&& 0b1110#4 = 0b1010#4 ∧ 0b1011#4 &&& 0b1110#4 = 0b1010#4 ∧
      0b1100#4 &&& 0b1100#4 = 0b1100#4 ∧ 0b1111#4 &&& 0b1100#4 = 0b1100#4 := by decide

theorem witness_StepOnReservedCodeFaults :
    0b1010#4 ≤ ({ State.reset with phase := 10#4 } : State).phase ∧
      0b1010#4 ≤ ({ State.reset with phase := 15#4 } : State).phase ∧
      State.reset.stop = false := by decide

/-- The reset state's capture holds no edge, so its first step holds. -/
theorem witness_HeldOperationChangesNothing :
    nextOf (exec .request State.reset) = some { State.reset with outcome := .hold } := by decide

theorem witness_OperationsHoldWithoutClockEdge :
    State.reset.cfg.wf = true ∧ LockStep State.reset 0 ∧ refEdge State.reset 0 = none ∧
      State.reset.intPending = false := by decide

theorem witness_OperationsHoldWithoutDriveEdge :
    (stateAt p1 2 1#4 640 611 610).cfg.wf = true ∧ LockStep (stateAt p1 2 1#4 640 611 610) 640 ∧
      refEdge (stateAt p1 2 1#4 640 611 610) 640 = some 650 ∧
      refEdge (stateAt p1 2 1#4 640 611 610) 650 = none := by decide +kernel

/-- Both ways to run out of edges, after no cell and after one. -/
theorem witness_BitLoopsHoldMidway :
    let s := stateAt p1 2 5#4 620 611 610
    s.cfg.wf = true ∧ LockStep s 620 ∧ cellsFrom s 620 1 = some [⟨630, 640⟩] ∧
      quietCells s 620 [⟨630, 640⟩] = true ∧ refEdge s 640 = some 650 ∧
      interruptedIn s 640 650 = false ∧ refEdge s 650 = none ∧
      addressWidth (latchedBits s [⟨630, 640⟩]) = 8 ∧ s.intPending = false ∧
      LockStep (stateAt p1 2 5#4 650 611 610) 650 ∧
      refEdge (stateAt p1 2 5#4 650 611 610) 650 = none := by decide +kernel

/-- Each outcome of a step: next, hold, fault, no step, and the entry into HALTED. -/
theorem witness_PhaseFollowsTheCycle :
    (nextOf (step (stateAt p1 2 5#4 420 411 410))).map (fun t => (t.outcome, t.phase)) =
        some (.next, 5#4) ∧
      (nextOf (step (stateAt p1 2 7#4 620 611 610))).map (fun t => (t.outcome, t.phase)) =
        some (.next, 0#4) ∧
      (nextOf (step State.reset)).map State.outcome = some .hold ∧
      (nextOf (step { State.reset with phase := 9#4 })).map State.outcome = some .noStep ∧
      (nextOf (step { State.reset with stop := true })).map (fun t => (t.outcome, t.phase)) =
        some (.next, 8#4) ∧
      (nextOf (step (stateAt p9 2 4#4 260 251 250))).map (fun t => (t.outcome, t.phase)) =
        some (.fault, 9#4) := by decide +kernel

theorem witness_FaultEntryFrame :
    (nextOf (step (stateAt p9 2 4#4 260 251 250))).map State.outcome = some .fault ∧
      (nextOf (step { State.reset with phase := 10#4 })).map State.outcome = some .fault := by
  decide +kernel

theorem witness_FaultAndHaltedAreTerminal :
    ({ State.reset with phase := 9#4 } : State).phase = 0b1001#4 ∧
      ({ State.reset with phase := 8#4 } : State).phase = 0b1000#4 := by decide

/-- The state right after a reset on program P1. -/
def afterResetP1 : State := resetWith (Config.interleaved 2) p1 false

theorem witness_RequestCompletes :
    afterResetP1.cfg.wf = true ∧ afterResetP1.capture.admittedFor afterResetP1.cfg = true ∧
      LockStep afterResetP1 0 ∧ refEdge afterResetP1 0 = some 200 := by decide +kernel

/-- Bits 32 and 33, the first and the last of two nodes, and bit 63. -/
theorem witness_RequestVectorMarksRequesters :
    afterResetP1.cfg.wf = true ∧
      (requestVector afterResetP1 0 200).getLsbD 32 = false ∧
      (requestVector afterResetP1 0 200).getLsbD 33 = true ∧
      (requestVector afterResetP1 0 200).getLsbD 63 = false := by decide +kernel

theorem witness_FallSampleIsFirstInWindow :
    afterResetP1.capture.admittedFor afterResetP1.cfg = true ∧
      participates afterResetP1 0 200 1 = true ∧ participates afterResetP1 0 200 0 = false := by
  decide +kernel

theorem witness_ArbitrationCompletes :
    let s := stateAt p1 2 1#4 200 201 0
    s.cfg.wf = true ∧ LockStep s 200 ∧ refEdge s 200 = some 210 ∧ refEdge s 210 = some 220 := by
  decide +kernel

/-- A LOW master, and a HIGH one with two matches. -/
theorem witness_ArbitrationMatchSet :
    (stateAt (lowLines [true, true]) 2 1#4 0 0 0).cfg.wf = true ∧
      ((stateAt (lowLines [true, true]) 2 1#4 0 0 0).dat 0).levelAt 10 = LOW ∧
      (stateAt (lowLines [false, true, false, true]) 4 1#4 0 0 0).cfg.wf = true ∧
      arbitrationMatches 4 ((stateAt (lowLines [false, true, false, true]) 4 1#4 0 0 0).datLevels 10) =
        [1, 3] := by decide +kernel

theorem witness_PriorityCompletesWithTransmitter :
    let s := stateAt p1 2 2#4 220 211 210
    s.cfg.wf = true ∧ LockStep s 220 ∧ refEdge s 220 = some 230 ∧ refEdge s 230 = some 240 ∧
      s.txValid = true := by decide +kernel

theorem witness_PriorityCompletesWithoutTransmitter :
    let s := { stateAt p1 2 2#4 220 211 210 with txValid := false }
    s.cfg.wf = true ∧ LockStep s 220 ∧ refEdge s 220 = some 230 ∧ refEdge s 230 = some 240 ∧
      s.txValid = false := by decide +kernel

/-- The first and the last transmitter of four nodes. -/
theorem witness_PriorityScanFollowsTheRing :
    let s := stateAt (lowLines [true, false, true, false]) 4 2#4 0 0 0
    s.cfg.wf = true ∧ 0 < s.cfg.n ∧ 3 < s.cfg.n ∧
      priorityMatches 4 (s.datLevels 10) 3 = [0, 2] := by decide +kernel

theorem witness_NodeVectorBits :
    (nodeVector [0, 31]).getLsbD 32 = true ∧ (nodeVector [0, 31]).getLsbD 63 = true ∧
      (nodeVector [0, 31]).getLsbD 0 = false := by decide

/-- With no `DAT_K` edge in the cell, and with one exactly at the drive edge (V-RSV-3). -/
theorem witness_ReservedWholeCell :
    let s := stateAt (captureOf [10, 20] [[], [20]] 30 true) 2 3#4 0 0 0
    (s.cfg.wf = true ∧ LockStep s 0 ∧ refEdge s 0 = some 10 ∧ refEdge s 10 = some 20 ∧
      ∀ t ∈ (s.dat (s.cfg.n - 1)).trans, 10 < t → 20 ≤ t) ∧
    ∀ t ∈ ((stateAt (captureOf [10, 20] [[], [10]] 30 true) 2 3#4 0 0 0).dat 1).trans,
      10 < t → 20 ≤ t := by decide +kernel

/-- The `DAT_K` edge right after the latch edge, and right before the drive edge. -/
theorem witness_ReservedCutBeforeDatEdge :
    let s := stateAt (captureOf [10, 20] [[], [11]] 30 true) 2 3#4 0 0 0
    let u := stateAt (captureOf [10, 20] [[], [19]] 30 true) 2 3#4 0 0 0
    s.cfg.wf = true ∧ s.capture.admittedFor s.cfg = true ∧ LockStep s 0 ∧
      refEdge s 0 = some 10 ∧ refEdge s 10 = some 20 ∧
      nextEdge s.capture.horizon (s.dat (s.cfg.n - 1)) 10 = some 11 ∧
      u.capture.admittedFor u.cfg = true ∧
      nextEdge u.capture.horizon (u.dat (u.cfg.n - 1)) 10 = some 19 := by decide +kernel

/-- A short address (P1) and a long one (P2). -/
theorem witness_AddressCompletes :
    let s := stateAt p1 2 4#4 260 251 250
    let u := stateAt p2 2 4#4 260 251 250
    (s.cfg.wf = true ∧ LockStep s 260 ∧ cellsFrom s 260 8 = some (cellsAt 270 8) ∧
      addressWidth (latchedBits s (cellsAt 270 8)) = 8 ∧
      quietButLastDrive s 260 (cellsAt 270 8) = true) ∧
    u.cfg.wf = true ∧ LockStep u 260 ∧ cellsFrom u 260 32 = some (cellsAt 270 32) ∧
      addressWidth (latchedBits u (cellsAt 270 32)) = 32 ∧
      quietButLastDrive u 260 (cellsAt 270 32) = true := by decide +kernel

/-- Reference edges every 10 samples, and six `DAT_1` edges right after sample `start`. -/
def burst (start : Nat) : Capture := captureOf (every 10 10 20) [[], every (start + 1) 1 6] 300 true

/-- At the first latch edge, and at the last of a short address. -/
theorem witness_AddressInterruptedAtLatchFaults :
    let s := stateAt (burst 0) 2 4#4 0 0 0
    let u := stateAt (burst 140) 2 4#4 0 0 0
    (s.cfg.wf = true ∧ LockStep s 0 ∧ cellsFrom s 0 0 = some [] ∧
      0 < addressWidth (latchedBits s []) ∧ quietCells s 0 [] = true ∧ refEdge s 0 = some 10 ∧
      interruptedIn s 0 10 = true) ∧
    LockStep u 0 ∧ cellsFrom u 0 7 = some (cellsAt 10 7) ∧
      7 < addressWidth (latchedBits u (cellsAt 10 7)) ∧ quietCells u 0 (cellsAt 10 7) = true ∧
      refEdge u (lastDrive 0 (cellsAt 10 7)) = some 150 ∧
      interruptedIn u (lastDrive 0 (cellsAt 10 7)) 150 = true := by decide +kernel

/-- At the fourth drive edge (P9), and at bit 8 of a long address (V-ADR-3). -/
theorem witness_AddressInterruptedAtDriveFaults :
    let s := stateAt p9 2 4#4 260 251 250
    let u := stateAt vAdr3 2 4#4 260 251 250
    (s.cfg.wf = true ∧ LockStep s 260 ∧
      cellsFrom s 260 4 = some (cellsAt 270 3 ++ [⟨330, 360⟩]) ∧
      4 < addressWidth (latchedBits s (cellsAt 270 3 ++ [⟨330, 360⟩])) ∧
      quietCells s 260 (cellsAt 270 3) = true ∧
      interruptedIn s (lastDrive 260 (cellsAt 270 3)) 330 = false ∧
      interruptedIn s 330 360 = true) ∧
    LockStep u 260 ∧ cellsFrom u 260 8 = some (cellsAt 270 7 ++ [⟨410, 440⟩]) ∧
      8 < addressWidth (latchedBits u (cellsAt 270 7 ++ [⟨410, 440⟩])) ∧
      quietCells u 260 (cellsAt 270 7) = true ∧
      interruptedIn u (lastDrive 260 (cellsAt 270 7)) 410 = false ∧
      interruptedIn u 410 440 = true := by decide +kernel

/-- 0xEF is short, and 0xF0 followed by 24 zeros is long. -/
theorem witness_AddressTopNibbleTellsItsWidth :
    ([HIGH, HIGH, HIGH, LOW, HIGH, HIGH, HIGH, HIGH] : List Level).length =
        addressWidth [HIGH, HIGH, HIGH, LOW, HIGH, HIGH, HIGH, HIGH] ∧
      ([HIGH, HIGH, HIGH, HIGH] ++ List.replicate 28 LOW).length =
        addressWidth ([HIGH, HIGH, HIGH, HIGH] ++ List.replicate 28 LOW) := by decide

/-- With an interruption at the last drive edge (P1), and without one (P5). -/
theorem witness_DataByteCompletes :
    let s := stateAt p1 2 5#4 420 411 410
    let u := stateAt p5 2 5#4 420 411 410
    (s.cfg.wf = true ∧ LockStep s 420 ∧ s.intPending = false ∧
      cellsFrom s 420 8 = some (cellsAt 430 7 ++ [⟨570, 600⟩]) ∧
      quietButLastDrive s 420 (cellsAt 430 7 ++ [⟨570, 600⟩]) = true ∧
      interruptedIn s 570 600 = true) ∧
    LockStep u 420 ∧ cellsFrom u 420 8 = some (cellsAt 430 8) ∧
      quietButLastDrive u 420 (cellsAt 430 8) = true ∧ interruptedIn u 570 580 = false := by
  decide +kernel

/-- Before any bit, after one (V-DAT-3), and before the last. -/
theorem witness_DataInterruptedAtLatch :
    let s := stateAt (burst 0) 2 5#4 0 0 0
    let u := stateAt vDat3 2 5#4 580 571 570
    let w := stateAt (burst 140) 2 5#4 0 0 0
    (s.cfg.wf = true ∧ LockStep s 0 ∧ s.intPending = false ∧ refEdge s 0 = some 10 ∧
      interruptedIn s 0 10 = true) ∧
    (LockStep u 580 ∧ cellsFrom u 580 1 = some [⟨590, 600⟩] ∧
      quietCells u 580 [⟨590, 600⟩] = true ∧ refEdge u 600 = some 610 ∧
      interruptedIn u 600 610 = true) ∧
    LockStep w 0 ∧ cellsFrom w 0 7 = some (cellsAt 10 7) ∧ quietCells w 0 (cellsAt 10 7) = true ∧
      refEdge w (lastDrive 0 (cellsAt 10 7)) = some 150 ∧
      interruptedIn w (lastDrive 0 (cellsAt 10 7)) 150 = true := by decide +kernel

/-- At the first drive edge, at the third (P5), and at the seventh. -/
theorem witness_DataInterruptedAtDrive :
    let s := stateAt (burst 10) 2 5#4 0 0 0
    let u := stateAt p5 2 5#4 580 571 570
    let w := stateAt (burst 130) 2 5#4 0 0 0
    (s.cfg.wf = true ∧ LockStep s 0 ∧ s.intPending = false ∧ cellsFrom s 0 1 = some [⟨10, 20⟩] ∧
      interruptedIn s 0 10 = false ∧ interruptedIn s 10 20 = true) ∧
    (LockStep u 580 ∧ cellsFrom u 580 3 = some (cellsAt 590 2 ++ [⟨630, 660⟩]) ∧
      quietCells u 580 (cellsAt 590 2) = true ∧
      interruptedIn u (lastDrive 580 (cellsAt 590 2)) 630 = false ∧
      interruptedIn u 630 660 = true) ∧
    LockStep w 0 ∧ cellsFrom w 0 7 = some (cellsAt 10 6 ++ [⟨130, 140⟩]) ∧
      quietCells w 0 (cellsAt 10 6) = true ∧
      interruptedIn w (lastDrive 0 (cellsAt 10 6)) 130 = false ∧
      interruptedIn w 130 140 = true := by decide +kernel

theorem witness_PendingInterruptIsEmitted :
    ({ stateAt p1 2 5#4 600 571 570 with intPending := true, intEnd := 600 } : State).intPending =
      true := by decide

theorem witness_Control0Completes :
    let s := stateAt p1 2 6#4 600 601 570
    s.cfg.wf = true ∧ LockStep s 600 ∧ refEdge s 600 = some 610 ∧ refEdge s 610 = some 620 := by
  decide +kernel

theorem witness_Control1Completes :
    let s := stateAt p1 2 7#4 620 611 610
    s.cfg.wf = true ∧ LockStep s 620 ∧ refEdge s 620 = some 630 ∧ refEdge s 630 = some 640 ∧
      refEdge s 640 = some 650 := by decide +kernel

theorem witness_Control1WaitsForSilentEdge :
    let s := stateAt p1Cut 2 7#4 620 611 610
    s.cfg.wf = true ∧ LockStep s 620 ∧ refEdge s 620 = some 630 ∧ refEdge s 630 = some 640 ∧
      refEdge s 640 = none := by decide +kernel

theorem witness_TransactionOutcomeTable :
    (nextOf (exec .control0 (stateAt p1 2 6#4 600 601 570))).map State.sink =
      some ((stateAt p1 2 6#4 600 601 570).sink ++
        [⟨.controlBit0, 0x00#8, 601, 610, 1#64, 0#64⟩]) := by decide +kernel

/-- The last transition at the horizon. -/
theorem witness_NextEdgeIsTheSmallest :
    (⟨HIGH, [1, 4, 9]⟩ : Channel).wf 9 = true ∧ nextEdge 9 ⟨HIGH, [1, 4, 9]⟩ 4 = some 9 ∧
      nextEdge 9 ⟨HIGH, [1, 4, 9]⟩ 9 = none := by decide

/-- An empty window, one that ends at a transition, and one after it. -/
theorem witness_LevelsToggleOncePerTransition :
    (4 ≤ 4 ∧ 4 ≤ 9) ∧ (⟨HIGH, [1, 4, 9]⟩ : Channel).countIn 4 4 = 0 ∧
      (⟨HIGH, [1, 4, 9]⟩ : Channel).countIn 4 9 = 1 ∧
      (⟨HIGH, [1, 4, 9]⟩ : Channel).levelAt 9 = LOW := by decide

/-- A target at the horizon, and one just beyond it. -/
theorem witness_AdvanceAllMovesEveryCursor :
    750 ≤ afterResetP1.capture.horizon ∧ afterResetP1.capture.horizon < 751 ∧
      ∃ nd ∈ afterResetP1.nodes, nd.clkPos < 751 ∨ nd.datPos < 751 := by decide +kernel

/-- A step that answers a state and appends a frame, for the statements about every step. -/
theorem witness_steps :
    (nextOf (step afterResetP1)).map (fun t => t.sink.length) = some (afterResetP1.sink.length + 1) := by
  decide +kernel

/-- The first and the last phase that propagate the flag, and REQUEST. -/
theorem witness_NoWinnerFlagPropagates :
    let s := { stateAt p1 2 2#4 220 211 210 with txValid := false }
    let u := { stateAt p1 2 7#4 620 611 610 with txValid := false }
    (nextOf (step s)).map State.sink =
        some (s.sink ++ [⟨.priorityArbitration, 0x02#8, 211, 230, 0#64, 0#64⟩]) ∧
      (nextOf (step u)).map State.sink =
        some (u.sink ++ [⟨.controlBit1, 0x02#8, 611, 630, 0#64, 0#64⟩]) ∧
      (nextOf (step afterResetP1)).map State.sink =
        some (afterResetP1.sink ++ [⟨.request, 0x00#8, 0, 200, 0x0000000200000000#64, 0#64⟩]) := by
  decide +kernel

theorem witness_TransmitterSelectsNoChannel :
    Instr.address ≠ .priority ∧ Instr.address ≠ .arbitration ∧
      (nextOf (exec .address (stateAt p1 2 4#4 260 251 250))).isSome = true := by decide +kernel

/-- The cut capture is extended by the whole one. -/
theorem witness_Extends : Extends p1Cut p1 :=
  ⟨[[650], [], [650], []], by decide +kernel, by decide +kernel, by decide +kernel,
    by decide +kernel⟩

theorem witness_ExtensionDoesNotChangeAnOperation :
    (stateAt p1Cut 2 6#4 600 601 570).capture = p1Cut ∧
      (nextOf (exec .control0 (stateAt p1Cut 2 6#4 600 601 570))).map State.outcome =
        some .next := by decide +kernel

/-- An idle reset, and one whose idle check fails. -/
theorem witness_ResetLoadsEveryRegister :
    (Config.interleaved 2).wf = true ∧ p1.admittedFor (Config.interleaved 2) = true ∧
      idleCheckFails (Config.interleaved 2) p1 = false ∧
      idleCheckFails (Config.interleaved 2)
        { p1 with signals := p1.signals.map (fun ch => { ch with init := LOW }) } = true ∧
      Capture.admittedFor { p1 with signals := p1.signals.map (fun ch => { ch with init := LOW }) }
        (Config.interleaved 2) = true := by decide +kernel

/-- One refusal of each kind, and for an extension one at each bound. -/
theorem witness_HostActionsRefuseWhatIsNotAdmitted :
    (Config.interleaved 1).wf = false ∧
      refusalOf (hostReset (Config.interleaved 3) p1 State.reset) = some .captureNotAdmitted ∧
      refusalOf (hostExtend 0 [[], [], [], []] State.reset) = some .captureChangeNotAdmitted ∧
      refusalOf (hostExtend 9 [[], [0], [], []] State.reset) = some .captureChangeNotAdmitted ∧
      refusalOf (hostExtend 9 [[], [4, 4], [], []] State.reset) = some .captureChangeNotAdmitted ∧
      refusalOf (hostExtend 9 [[], [], []] State.reset) = some .captureChangeNotAdmitted ∧
      refusalOf (hostExtend (2 ^ 64 - 1) [[], [], [], []] State.reset) =
        some .captureChangeNotAdmitted ∧
      refusalOf (hostExtend 9 [[], [10], [], []] State.reset) = some .captureChangeNotAdmitted ∧
      refusalOf (hostSetFinal afterResetP1) = some .captureChangeNotAdmitted := by decide +kernel

/-- An extension and a `final` that the host may make, at the bounds of the new transitions. -/
theorem witness_AcceptedHostActionsExtendTheCapture :
    State.reset.capture.final = false ∧
      (nextOf (hostExtend 9 [[], [1, 9], [], []] State.reset)).map (fun t => t.capture.horizon) = some 9 ∧
      (nextOf (hostSetFinal State.reset)).map (fun t => t.capture.final) = some true := by decide

/-- A hold while `final = 0` ends no run, whatever the host then does, and the step is retried (rules
R55 and R235): P1 without its last edge, which then comes. -/
theorem test_wait_is_not_end :
    let s := stateAt p1Cut 2 7#4 620 611 610
    let held := nextOf (step s)
    let extended := held.bind (fun t => nextOf (hostExtend 750 [[650], [], [650], []] t))
    let last := extended.bind (fun t => nextOf (hostSetFinal t))
    held.map (fun t => (t.outcome, t.ended)) = some (.hold, false) ∧
      last.map (fun t => (t.capture.final, t.outcome, t.ended)) = some (true, .hold, false) ∧
      (last.bind (fun t => nextOf (step t))).map (fun t => (t.outcome, t.phase, t.ended)) =
        some (.next, 0#4, false) := by decide +kernel

/-- A hold while `final = 1` is the end (rule R216), which no extension can undo. -/
theorem witness_RunEndsAtFaultHaltOrFinalHold :
    let s := { stateAt p1Cut 2 7#4 620 611 610 with capture := { p1Cut with final := true } }
    s.ended = false ∧ s.capture.final = true ∧
      (nextOf (step s)).map (fun t => (t.outcome, t.phase, t.ended)) = some (.hold, 7#4, true) ∧
      ((nextOf (step s)).bind (fun t =>
        refusalOf (hostExtend 750 [[650], [], [650], []] t))) =
          some .captureChangeNotAdmitted := by decide +kernel

theorem witness_HostResetMeetsInvariants :
    nextOf (hostReset (Config.interleaved 2) p1 State.reset) = some afterResetP1 := by
  decide +kernel

/-- The state before P1's first step meets both invariants, and the step answers a state. -/
theorem witness_StepKeepsSessionInvariant :
    SessionInv afterResetP1 ∧ (nextOf (step afterResetP1)).isSome = true :=
  ⟨by constructor <;> decide +kernel, by decide +kernel⟩

/-- P1's start, before the whole of it is known: the host may change this capture. -/
theorem witness_HostActionsKeepInvariants :
    let s := resetWith (Config.interleaved 2) p1Cut false
    SessionInv s ∧ SinkInv s ∧
      (nextOf (hostExtend 750 [[650], [], [650], []] s)).isSome = true ∧
      (nextOf (hostSetFinal s)).isSome = true :=
  ⟨by constructor <;> decide +kernel,
    { ordered := ⟨by decide +kernel, by decide +kernel⟩
      behindMark := by decide +kernel
      formatted := by decide +kernel
      grammar := ⟨PhaseCode.request, by decide +kernel, .inl (by decide +kernel)⟩
      firstRequest := by decide +kernel
      quirk := by decide +kernel },
    by decide +kernel, by decide +kernel⟩

theorem witness_StepKeepsSinkInvariant : SinkInv afterResetP1 where
  ordered := ⟨by decide +kernel, by decide +kernel⟩
  behindMark := by decide +kernel
  formatted := by decide +kernel
  grammar := ⟨PhaseCode.request, by decide +kernel, .inl (by decide +kernel)⟩
  firstRequest := by decide +kernel
  quirk := by decide +kernel

theorem witness_EverySessionStateMeetsInvariants : InSession afterResetP1 :=
  .reset (Config.interleaved 2) p1 State.reset afterResetP1 rfl

end Sys2Proof.Tests
end

section
/-! What a step can answer (spec/00_scope.md rules R14 and R15): the operations that hold, the
outcomes of a step, and the bound on the samples of a session. -/

namespace Sys2Proof.Machine

open Sys2Proof

/-! ## How an operation that did not hold ended -/

/-- A phase operation that did not hold either completed, emitting its one frame, or faulted and
emitted none (rules R14, R67 and R203). DATA may leave `phase` as it was (rule R168). -/
inductive Finished (s t : State) : Prop
  | completed (f : Frame) (outcome : t.outcome = .next) (sink : t.sink = s.sink ++ [f])
      (phase : t.phase = s.phase ∨ t.phase ≠ PhaseCode.fault)
  | faulted (outcome : t.outcome = .fault) (sink : t.sink = s.sink)
      (phase : t.phase = PhaseCode.fault)

/-- The end that every completing operation but DATA shares: one frame, then a phase other than
FAULT. -/
theorem finished_of_emit {s u : State} {k : FrameKind} {fl : BitVec 8} {a b m : Nat}
    {vp vs : BitVec 64} {ph : BitVec 4} (hu : u.sink = s.sink) (hph : ph ≠ PhaseCode.fault) :
    Finished s (complete ((emitFrame k fl a b vp vs m u).goto ph)) :=
  .completed _ rfl (congrArg (· ++ [_]) hu) (.inr hph)

/-- ARBITRATION's choice of a transmitter writes `tx_valid` and `tx` alone (rule R134). -/
theorem setWinner_eq (ms : List Nat) (s : State) :
    ∃ v x, setWinner ms s = { s with txValid := v, tx := x } := by
  cases ms with
  | nil => exact ⟨false, s.tx, rfl⟩
  | cons winner rest => exact ⟨true, BitVec.ofNat 5 winner, rfl⟩

/-- PRIORITY's choice of a transmitter writes `tx` alone (rule R142). -/
theorem replaceWinner_eq (ms : List Nat) (s : State) :
    ∃ x, replaceWinner ms s = { s with tx := x } := by
  cases ms with
  | nil => exact ⟨s.tx, rfl⟩
  | cons winner rest => exact ⟨BitVec.ofNat 5 winner, rfl⟩

section
variable {s t : State}

theorem requestPhase_finished (h : requestPhase s = some t) : Finished s t := by
  obtain ⟨e, probes, ns, -, -, rfl⟩ := requestPhase_effect h
  exact .completed _ rfl rfl (.inr (show PhaseCode.arbitration ≠ PhaseCode.fault by decide))

theorem arbitrationPhase_finished (h : arbitrationPhase s = some t) : Finished s t := by
  obtain ⟨e, ns, -, -, rfl⟩ := arbitrationPhase_effect h
  obtain ⟨v, x, hx⟩ := setWinner_eq (arbitrationMatches s.cfg.n (s.datLevels e))
    ((s.setNodes ns).latch e)
  rw [hx]
  exact finished_of_emit rfl (by decide)

theorem priorityPhase_finished (h : priorityPhase s = some t) : Finished s t := by
  obtain ⟨e, ns, -, -, rfl⟩ := priorityPhase_effect h
  obtain ⟨x, hx⟩ := replaceWinner_eq (priorityMatches s.cfg.n (s.datLevels e) s.tx.toNat)
    ((s.setNodes ns).latch e)
  rw [hx]
  split <;> exact finished_of_emit rfl (by decide)

theorem reservedPhase_finished (h : reservedPhase s = some t) : Finished s t := by
  obtain ⟨e, stop, ns, -, -, rfl⟩ := reservedPhase_effect h
  exact finished_of_emit rfl (by decide)

theorem addressPhase_finished (h : addressPhase s = some t) : Finished s t := by
  obtain ⟨v, ns, latch, pending, stop, -, rfl⟩ | ⟨e, ns, latch, -, rfl⟩ := addressLoop_effect h
  · exact finished_of_emit rfl (by decide)
  · exact .faulted rfl rfl rfl

theorem dataPhase_finished (h : dataPhase s = some t) : Finished s t := by
  obtain ⟨-, rfl⟩ | ⟨v, ns, latch, pending, stop, -, -, rfl⟩ | ⟨e, ns, latch, -, -, rfl⟩ :=
    dataPhase_effect h
  · exact .completed _ rfl rfl (.inr (show PhaseCode.control0 ≠ PhaseCode.fault by decide))
  · exact .completed _ rfl rfl (.inl rfl)
  · exact finished_of_emit rfl (by decide)

theorem control0Phase_finished (h : control0Phase s = some t) : Finished s t := by
  obtain ⟨e, ns, -, -, rfl⟩ := control0Phase_effect h
  exact finished_of_emit rfl (by decide)

theorem control1Phase_finished (h : control1Phase s = some t) : Finished s t := by
  obtain ⟨e, e₃, ns, -, -, rfl⟩ := control1Phase_effect h
  exact finished_of_emit rfl (by decide)

theorem badState_finished (h : badState s = .next t) : Finished s t := by
  cases Host.Outcome.next.inj h
  exact .faulted rfl rfl rfl

/-- A phase operation held, or it finished. -/
theorem finishStep_cases {r : Option State} (hr : ∀ u, r = some u → Finished s u)
    (h : finishStep s r = .next t) : t = s.withHold ∨ Finished s t := by
  obtain hsome | ⟨-, hold⟩ := finishStep_eq_next h
  · exact .inr (hr t hsome)
  · exact .inl hold

/-! ## What an operation and a step can answer -/

/-- Rule R14: an operation is a no-step, holds, or finishes; the no-steps are HALTED and FAULT. -/
theorem exec_cases {i : Instr} (h : exec i s = .next t) :
    ((i = .halted ∨ i = .fault) ∧ t = s.withOutcome .noStep) ∨
      (i ≠ .halted ∧ i ≠ .fault ∧ (t = s.withHold ∨ Finished s t)) := by
  cases i with
  | request => exact .inr ⟨nofun, nofun, finishStep_cases (fun _ => requestPhase_finished) h⟩
  | arbitration =>
    exact .inr ⟨nofun, nofun, finishStep_cases (fun _ => arbitrationPhase_finished) h⟩
  | priority => exact .inr ⟨nofun, nofun, finishStep_cases (fun _ => priorityPhase_finished) h⟩
  | reserved => exact .inr ⟨nofun, nofun, finishStep_cases (fun _ => reservedPhase_finished) h⟩
  | address => exact .inr ⟨nofun, nofun, finishStep_cases (fun _ => addressPhase_finished) h⟩
  | data => exact .inr ⟨nofun, nofun, finishStep_cases (fun _ => dataPhase_finished) h⟩
  | control0 => exact .inr ⟨nofun, nofun, finishStep_cases (fun _ => control0Phase_finished) h⟩
  | control1 => exact .inr ⟨nofun, nofun, finishStep_cases (fun _ => control1Phase_finished) h⟩
  | halted => exact .inl ⟨.inl rfl, (Host.Outcome.next.inj h).symm⟩
  | fault => exact .inl ⟨.inr rfl, (Host.Outcome.next.inj h).symm⟩
  | reservedPhase101x code => exact .inr ⟨nofun, nofun, .inr (badState_finished h)⟩
  | reservedPhase11xx code => exact .inr ⟨nofun, nofun, .inr (badState_finished h)⟩

/-- No operation stops the machine: every one answers a next state. -/
theorem exec_next (i : Instr) (s : State) : ∃ t, exec i s = .next t := by
  cases i with
  | request | arbitration | priority | reserved | address | data | control0 | control1 =>
    exact finishStep_next s _
  | halted | fault | reservedPhase101x | reservedPhase11xx => exact ⟨_, rfl⟩

theorem step_next (s : State) : ∃ t, step s = .next t := by
  unfold step
  split
  · exact ⟨_, rfl⟩
  · exact exec_next _ s

/-- The codes of the two phases without a step (rule R80). -/
theorem decode_noStep_iff (c : BitVec 4) :
    (decode c = .halted ∨ decode c = .fault) ↔ (c = 8#4 ∨ c = 9#4) := by
  revert c
  decide

/-- Rules R14 and R209: a step is a no-step, in HALTED and FAULT; elsewhere it enters HALTED, holds
or finishes an operation. -/
theorem step_outcomes (h : step s = .next t) :
    ((s.phase = 8#4 ∨ s.phase = 9#4) ∧ t = s.withOutcome .noStep) ∨
      (¬ (s.phase = 8#4 ∨ s.phase = 9#4) ∧
        (t = enterHalted s ∨ t = s.withHold ∨ Finished s t)) := by
  unfold step at h
  split at h
  · rename_i hstop
    obtain ⟨-, h8, h9⟩ := (stopTakes_fetch s).1 hstop
    exact .inr ⟨not_or.2 ⟨h8, h9⟩, .inl (Host.Outcome.next.inj h).symm⟩
  · obtain ⟨hi, ht⟩ | ⟨h8, h9, ht⟩ := exec_cases h
    · exact .inl ⟨(decode_noStep_iff s.phase).1 hi, ht⟩
    · exact .inr ⟨fun hp => not_or.2 ⟨h8, h9⟩ ((decode_noStep_iff s.phase).2 hp), .inr ht⟩

end

/-- Settles O9: of the ways a step can go, only a no-step records `noStep`, and only a finished
operation that faulted records `fault`. -/
theorem everyStepHasOneOfFourOutcomes : Obligations.EveryStepHasOneOfFourOutcomes := by
  intro s
  obtain ⟨t, ht⟩ := step_next s
  refine ⟨t, ht, ?_⟩
  obtain ⟨hp, rfl⟩ | ⟨hp, rfl | rfl | hf⟩ := step_outcomes ht
  · refine ⟨nofun, ⟨fun _ => hp, fun _ => rfl⟩, nofun, fun ⟨hne, heq⟩ => absurd heq hne⟩
  · have hph : PhaseCode.halted ≠ PhaseCode.fault := by decide
    exact ⟨nofun, ⟨nofun, fun h => absurd h hp⟩, nofun, fun ⟨_, h⟩ => absurd h hph⟩
  · exact ⟨nofun, ⟨nofun, fun h => absurd h hp⟩, nofun, fun ⟨hne, heq⟩ => absurd heq hne⟩
  · have hne : s.phase ≠ 9#4 := fun h => hp (.inr h)
    cases hf with
    | completed f ho hs hph =>
      have htp : t.phase ≠ 9#4 := hph.elim (fun h => h ▸ hne) id
      simp [ho, hp, htp]
    | faulted ho hs hph =>
      refine ⟨by simp [ho], by simp [ho, hp], fun _ => ⟨hne, hph⟩, fun _ => ho⟩

/-- Settles O10: what finishes records `next` or `fault`, so what records `hold` held. -/
theorem heldOperationChangesNothing : Obligations.HeldOperationChangesNothing := by
  intro i s t h hold
  obtain ⟨-, rfl⟩ | ⟨-, -, rfl | hf⟩ := exec_cases h
  · cases hold
  · rfl
  · cases hf with
    | completed f ho hs hph => rw [ho] at hold; cases hold
    | faulted ho hs hph => rw [ho] at hold; cases hold

/-- Settles O44: only a completed operation writes the sink, and it emits one frame. -/
theorem sinkGrowsByAtMostOneFrame : Obligations.SinkGrowsByAtMostOneFrame := by
  intro s t h
  obtain ⟨-, rfl⟩ | ⟨-, rfl | rfl | hf⟩ := step_outcomes h
  · exact .inl rfl
  · exact .inl rfl
  · exact .inl rfl
  · cases hf with
    | completed f ho hs hph => exact .inr ⟨f, hs⟩
    | faulted ho hs hph => exact .inl hs

/-! ## Cells whose edges the capture does not hold -/

section
variable {s : State} {p e : Nat} (hw : s.cfg.wf = true) (hl : LockStep s p)
  (h1 : refEdge s p = some e) (h2 : refEdge s e = none)

include hw h2

/-- After the latch edge of a cell without its drive edge, the reference clock has no edge to peek
at. -/
theorem peekClkEdge_drive_none : peekClkEdge ((s.allAt e).latch e) = none :=
  (peekClkEdge_lockStep (s := (s.allAt e).latch e) hw (lockStep_allAt s e)).trans h2

theorem clkEdge_drive_none : clkEdge ((s.allAt e).latch e) = none :=
  clkEdge_lockStep_none (s := (s.allAt e).latch e) hw (lockStep_allAt s e) h2

include hl h1

theorem arbiterCell_drive_none : arbiterCell s = none := by
  simp [arbiterCell, clkEdge_lockStep hw hl h1, clkEdge_drive_none hw h2]

theorem controlCell_drive_none : controlCell s = none := by
  simp [controlCell, clkEdge_lockStep hw hl h1, clkEdge_drive_none hw h2]

/-- RESERVED needs the drive edge even where a `DAT_K` edge would cut the cell (rule R234). -/
theorem reservedPhase_drive_none : reservedPhase s = none := by
  simp [reservedPhase, clkEdge_lockStep hw hl h1, peekClkEdge_drive_none hw h2]

end

/-- Settles O12: the cell of each operation needs its drive edge. -/
theorem operationsHoldWithoutDriveEdge : Obligations.OperationsHoldWithoutDriveEdge := by
  rintro s p e i hw hl h1 h2 (rfl | rfl | rfl | rfl | rfl)
  · have hnone : arbitrationPhase s = none := by
      simp [arbitrationPhase, arbiterCell_drive_none hw hl h1 h2]
    exact congrArg (finishStep s) hnone
  · have hnone : priorityPhase s = none := by
      simp [priorityPhase, arbiterCell_drive_none hw hl h1 h2]
    exact congrArg (finishStep s) hnone
  · exact congrArg (finishStep s) (reservedPhase_drive_none hw hl h1 h2)
  · have hnone : control0Phase s = none := by
      simp [control0Phase, controlCell_drive_none hw hl h1 h2]
    exact congrArg (finishStep s) hnone
  · have hnone : control1Phase s = none := by
      simp [control1Phase, controlCell_drive_none hw hl h1 h2]
    exact congrArg (finishStep s) hnone

section
variable {s : State} {p : Nat} {cells : List BitCell} (hw : s.cfg.wf = true) (hl : LockStep s p)
  (hc : cellsFrom s p cells.length = some cells) (hq : quietCells s p cells = true)
  (hend : refEdge s (lastDrive p cells) = none ∨
    ∃ e, refEdge s (lastDrive p cells) = some e ∧
      interruptedIn s (lastDrive p cells) e = false ∧ refEdge s e = none)

include hw hl hc hq hend

/-- ADDRESS after quiet cells that do not complete the address, without the next cell's edges. -/
theorem addressPhase_midway_none (hlt : cells.length < addressWidth (latchedBits s cells)) :
    addressPhase s = none := by
  have h32 : cells.length < 32 := by
    rcases addressWidth_eq (latchedBits s cells) with h | h <;> omega
  have hrun := addressLoop_quietCells (fuel := 31 - cells.length + 1) (bits := []) hw hl hc hq
    (by simpa using hlt.le)
  rw [show 31 - cells.length + 1 + cells.length = 32 by omega,
    addressLoop_none (s := s.afterCells p cells) hw (lockStep_afterCells s p cells)
      (by simpa using hlt) hend] at hrun
  exact hrun

/-- DATA after quiet cells that do not complete the byte, without the next cell's edges. -/
theorem dataPhase_midway_none (hlt : cells.length < 8) (hp : s.intPending = false) :
    dataPhase s = none := by
  have hrun := dataLoop_quietCells (left := 7 - cells.length + 1) (bits := []) hw hl hc hq
  rw [show 7 - cells.length + 1 + cells.length = 8 by omega,
    dataLoop_none (s := s.afterCells p cells) hw (lockStep_afterCells s p cells) hend] at hrun
  rw [dataPhase, hp]
  exact hrun

end

/-- Settles O13: the quiet cells lead to a lock-step state from which the next bit holds. -/
theorem bitLoopsHoldMidway : Obligations.BitLoopsHoldMidway := by
  intro s p cells hw hl hc hq hend
  constructor
  · intro hlt
    exact congrArg (finishStep s) (addressPhase_midway_none hw hl hc hq hend hlt)
  · intro hlt hp
    exact congrArg (finishStep s) (dataPhase_midway_none hw hl hc hq hend hlt hp)

/-! ## The samples of a session -/

/-- Every cursor stands at sample `p` of an admitted capture, and no sample register or frame bound
is past `p + 1` (rules R29 to R31, R38, R69 and R202). -/
structure SamplesBehind (s : State) (p : Nat) : Prop where
  config : s.cfg.wf = true
  capture : s.capture.admittedFor s.cfg = true
  lockStep : LockStep s p
  inCapture : p ≤ s.horizon
  mark : s.mark ≤ p + 1
  lastLatch : s.lastLatch ≤ p
  intEnd : s.intEnd ≤ p
  errSample : s.errSample ≤ p
  frames : ∀ f ∈ s.sink, f.startSample ≤ p + 1 ∧ f.endSample ≤ p

/-- REQUEST in lock-step: the cursors stop at the edge that ends the window (rules R110 and
R111). -/
theorem requestPhase_lockStep {s t : State} {p : Nat} (hw : s.cfg.wf = true)
    (ha : s.capture.admittedFor s.cfg = true) (hl : LockStep s p) (h : requestPhase s = some t) :
    ∃ e probes, p < e ∧ e ≤ s.horizon ∧
      t = complete ({ emitFrame .request (requestFlags s) s.mark e
          (nodeVector (requesters s.cfg.n probes)) 0#64 (e + 1) (s.allAt e) with
        firstReq := false, txValid := false }.goto PhaseCode.arbitration) := by
  simp only [requestPhase, Option.bind_eq_bind, Option.bind_eq_some_iff, Prod.exists,
    Option.some.injEq] at h
  obtain ⟨e, he, probes, nds, hprobe, s₂, b, hadv, rfl⟩ := h
  rw [peekClkEdge_lockStep hw hl] at he
  obtain ⟨hlt, hle⟩ := refEdge_some he
  have hnodes : ∀ nd ∈ (setReferenceClk e s).nodes, nd.datPos = p ∧ nd.clkPos ≤ e := by
    intro nd hnd
    obtain ⟨j, hj⟩ := List.getElem?_of_mem hnd
    rw [setReferenceClk, setNodes_nodes, hl, List.getElem?_modify, Option.map_eq_map,
      Option.map_eq_some_iff] at hj
    obtain ⟨x, hx, rfl⟩ := hj
    obtain rfl := List.eq_of_mem_replicate (List.mem_of_getElem? hx)
    split
    · exact ⟨rfl, le_refl e⟩
    · exact ⟨rfl, le_of_lt hlt⟩
  obtain ⟨nds', hprobe', hmoved⟩ := probeNodes_window (s := setReferenceClk e s) ha (le_of_lt hlt)
    hle _ 0 hnodes
  rw [hprobe', Option.some.injEq, Prod.mk.injEq] at hprobe
  obtain ⟨-, rfl⟩ := hprobe
  obtain ⟨rfl, -⟩ := advanceAllTo_some hadv
  refine ⟨e, probes, hlt, hle, ?_⟩
  have hlen : (setReferenceClk e s).nodes.length = s.cfg.n := by simp [setReferenceClk, hl]
  rw [setNodes_nodes, hmoved, hlen]
  rfl

/-- The part of a state that `SamplesBehind` reads. -/
def State.samples (s : State) :
    Config × Capture × List NodeCursors × Nat × Nat × Nat × Nat × List Frame :=
  (s.cfg, s.capture, s.nodes, s.mark, s.lastLatch, s.intEnd, s.errSample, s.sink)

section
variable {s t : State} {p q : Nat}

/-- Nothing else of the state matters. -/
theorem SamplesBehind.congr (h : SamplesBehind s p) (heq : t.samples = s.samples) :
    SamplesBehind t p := by
  cases s
  cases t
  simp only [State.samples, Prod.mk.injEq] at heq
  obtain ⟨rfl, rfl, rfl, rfl, rfl, rfl, rfl, rfl⟩ := heq
  exact ⟨h.config, h.capture, h.lockStep, h.inCapture, h.mark, h.lastLatch, h.intEnd,
    h.errSample, h.frames⟩

/-- The cursors go on to `q`, and a latch and an interruption no later than `q` are recorded. -/
theorem SamplesBehind.advance (h : SamplesBehind s p) (hpq : p ≤ q) (hq : q ≤ s.horizon)
    {latch stop : Nat} (hlatch : latch ≤ q) (hstop : stop ≤ q) (pending : Bool) :
    SamplesBehind
      { s.allAt q with lastLatch := latch, intPending := pending, intEnd := stop } q where
  config := h.config
  capture := h.capture
  lockStep := rfl
  inCapture := hq
  mark := h.mark.trans (Nat.succ_le_succ hpq)
  lastLatch := hlatch
  intEnd := hstop
  errSample := h.errSample.trans hpq
  frames := fun f hf =>
    ⟨(h.frames f hf).1.trans (Nat.succ_le_succ hpq), (h.frames f hf).2.trans hpq⟩

/-- The cursors go on to `q` past a latch edge. -/
theorem SamplesBehind.advance_latch (h : SamplesBehind s p) (hpq : p ≤ q) (hq : q ≤ s.horizon)
    {latch : Nat} (hlatch : latch ≤ q) : SamplesBehind ((s.allAt q).latch latch) q :=
  (h.advance hpq hq hlatch (h.intEnd.trans hpq) s.intPending).congr rfl

/-- A frame that starts at most one sample past the cursors and ends behind them. -/
theorem SamplesBehind.emit (h : SamplesBehind s p) {start stop m : Nat} (hstart : start ≤ p + 1)
    (hstop : stop ≤ p) (hm : m ≤ p + 1) (k : FrameKind) (fl : BitVec 8) (vp vs : BitVec 64) :
    SamplesBehind (emitFrame k fl start stop vp vs m s) p where
  config := h.config
  capture := h.capture
  lockStep := h.lockStep
  inCapture := h.inCapture
  mark := hm
  lastLatch := h.lastLatch
  intEnd := h.intEnd
  errSample := h.errSample
  frames := by
    intro f hf
    rw [emitFrame_sink, List.mem_append, List.mem_singleton] at hf
    obtain hf | rfl := hf
    · exact h.frames f hf
    · exact ⟨hstart, hstop⟩

/-- The usual frame: from `mark` to `stop`, the next one to start right after `last`. -/
theorem SamplesBehind.emit_mark (h : SamplesBehind s p) {stop last : Nat} (hstop : stop ≤ p)
    (hlast : last ≤ p) (k : FrameKind) (fl : BitVec 8) (vp vs : BitVec 64) :
    SamplesBehind (emitFrame k fl s.mark stop vp vs (last + 1) s) p :=
  h.emit h.mark hstop (Nat.succ_le_succ hlast) k fl vp vs

theorem SamplesBehind.raiseFault (h : SamplesBehind s p) {sample : Nat} (hs : sample ≤ p)
    (code : ErrCode) : SamplesBehind (raiseFault code sample s) p where
  config := h.config
  capture := h.capture
  lockStep := h.lockStep
  inCapture := h.inCapture
  mark := h.mark
  lastLatch := h.lastLatch
  intEnd := h.intEnd
  errSample := hs
  frames := h.frames

/-- The Interrupt frame starts right after the last latch (rule R169). -/
theorem SamplesBehind.commitInterrupt (h : SamplesBehind s p) {stop : Nat} (hs : stop ≤ p) :
    SamplesBehind (commitInterrupt stop s) p :=
  (h.emit (Nat.succ_le_succ h.lastLatch) hs (Nat.succ_le_succ hs) .interrupt (noWinnerFlag s)
    0#64 0#64).congr rfl

/-! ## Every operation keeps the bound -/

theorem SamplesBehind.request (h : SamplesBehind s p) (hr : requestPhase s = some t) :
    ∃ q, SamplesBehind t q := by
  obtain ⟨e, probes, hlt, hle, rfl⟩ := requestPhase_lockStep h.config h.capture h.lockStep hr
  have moved : SamplesBehind (s.allAt e) e :=
    (h.advance_latch hlt.le hle (h.lastLatch.trans hlt.le)).congr rfl
  exact ⟨e, (moved.emit_mark le_rfl le_rfl _ _ _ _).congr rfl⟩

theorem SamplesBehind.arbitration (h : SamplesBehind s p) (hr : arbitrationPhase s = some t) :
    ∃ q, SamplesBehind t q := by
  obtain ⟨e, q, hpe, heq, hq, rfl⟩ := arbitrationPhase_lockStep h.config h.lockStep hr
  obtain ⟨v, x, hx⟩ := setWinner_eq (arbitrationMatches s.cfg.n (s.datLevels e))
    ((s.allAt q).latch e)
  rw [hx]
  have moved := h.advance_latch (hpe.trans heq).le hq heq.le
  exact ⟨q, (moved.emit_mark heq.le heq.le _ _ _ _).congr rfl⟩

theorem SamplesBehind.priority (h : SamplesBehind s p) (hr : priorityPhase s = some t) :
    ∃ q, SamplesBehind t q := by
  obtain ⟨e, q, ms, hpe, heq, hq, -, rfl⟩ := priorityPhase_lockStep h.config h.lockStep hr
  obtain ⟨x, hx⟩ := replaceWinner_eq ms ((s.allAt q).latch e)
  rw [hx]
  have moved := h.advance_latch (hpe.trans heq).le hq heq.le
  refine ⟨q, ?_⟩
  split <;> exact (moved.emit_mark heq.le heq.le _ _ _ _).congr rfl

theorem SamplesBehind.reserved (h : SamplesBehind s p) (hr : reservedPhase s = some t) :
    ∃ q, SamplesBehind t q := by
  obtain ⟨e, stop, q, hpe, hes, hsq, hq, rfl⟩ := reservedPhase_lockStep h.config h.lockStep hr
  have heq : e ≤ q := hes.trans hsq
  have moved := h.advance_latch (hpe.le.trans heq) hq heq
  exact ⟨q, (moved.emit_mark hsq hsq _ _ _ _).congr rfl⟩

theorem SamplesBehind.address (h : SamplesBehind s p) (hr : addressPhase s = some t) :
    ∃ q, SamplesBehind t q := by
  obtain ⟨v, q, latch, pending, stop, hpl, hlq, hq, hstop, rfl⟩ |
    ⟨q, latch, hpq, hq, hlatch, rfl⟩ := addressPhase_lockStep h.config h.lockStep hr
  · have hstop : stop ≤ q := by have := h.intEnd; omega
    have moved := h.advance (hpl.trans hlq).le hq hlq.le hstop pending
    exact ⟨q, (moved.emit_mark hlq.le hlq.le _ _ _ _).congr rfl⟩
  · have hlatch : latch ≤ q := by have := h.lastLatch; omega
    exact ⟨q, (h.advance_latch hpq.le hq hlatch).raiseFault le_rfl _⟩

theorem SamplesBehind.data (h : SamplesBehind s p) (hr : dataPhase s = some t) :
    ∃ q, SamplesBehind t q := by
  obtain ⟨-, rfl⟩ | ⟨-, v, q, latch, pending, stop, hpl, hlq, hq, hstop, rfl⟩ |
    ⟨-, q, latch, hpq, hq, hlatch, rfl⟩ := dataPhase_lockStep h.config h.lockStep hr
  · exact ⟨p, (h.commitInterrupt h.intEnd).congr rfl⟩
  · have hstop : stop ≤ q := by have := h.intEnd; omega
    have moved := h.advance (hpl.trans hlq).le hq hlq.le hstop pending
    exact ⟨q, (moved.emit_mark hlq.le hlq.le _ _ _ _).congr rfl⟩
  · have hlatch : latch ≤ q := by have := h.lastLatch; omega
    exact ⟨q, (h.advance_latch hpq.le hq hlatch).commitInterrupt le_rfl⟩

theorem SamplesBehind.control0 (h : SamplesBehind s p) (hr : control0Phase s = some t) :
    ∃ q, SamplesBehind t q := by
  obtain ⟨e, q, hpe, heq, hq, rfl⟩ := control0Phase_lockStep h.config h.lockStep hr
  have moved := h.advance_latch (hpe.trans heq).le hq heq.le
  exact ⟨q, (moved.emit_mark heq.le heq.le _ _ _ _).congr rfl⟩

theorem SamplesBehind.control1 (h : SamplesBehind s p) (hr : control1Phase s = some t) :
    ∃ q, SamplesBehind t q := by
  obtain ⟨e, q, hpe, heq, hq, rfl⟩ := control1Phase_lockStep h.config h.lockStep hr
  have moved := h.advance_latch (hpe.trans heq).le hq heq.le
  exact ⟨q, (moved.emit_mark heq.le le_rfl _ _ _ _).congr rfl⟩

/-- An operation that holds keeps every sample. -/
theorem SamplesBehind.finishStep (h : SamplesBehind s p) {r : Option State}
    (hr : ∀ u, r = some u → ∃ q, SamplesBehind u q) (hf : finishStep s r = .next t) :
    ∃ q, SamplesBehind t q := by
  obtain hsome | ⟨-, rfl⟩ := finishStep_eq_next hf
  · exact hr t hsome
  · exact ⟨p, h.congr rfl⟩

theorem SamplesBehind.step (h : SamplesBehind s p) (hs : step s = .next t) :
    ∃ q, SamplesBehind t q := by
  obtain ⟨-, rfl⟩ | ⟨-, -, -, rfl⟩ | ⟨-, -, rfl⟩ | ⟨-, hop⟩ := step_cases hs
  · exact ⟨p, h.congr rfl⟩
  · exact ⟨p, h.congr rfl⟩
  · exact ⟨p, h.raiseFault (h.lockStep.clkPos (lastNode_lt h.config)).le _⟩
  · obtain ⟨-, hf⟩ | ⟨-, hf⟩ | ⟨-, hf⟩ | ⟨-, hf⟩ | ⟨-, hf⟩ | ⟨-, hf⟩ | ⟨-, hf⟩ | ⟨-, hf⟩ := hop
    · exact h.finishStep (fun _ => h.request) hf
    · exact h.finishStep (fun _ => h.arbitration) hf
    · exact h.finishStep (fun _ => h.priority) hf
    · exact h.finishStep (fun _ => h.reserved) hf
    · exact h.finishStep (fun _ => h.address) hf
    · exact h.finishStep (fun _ => h.data) hf
    · exact h.finishStep (fun _ => h.control0) hf
    · exact h.finishStep (fun _ => h.control1) hf

/-! ## So does the host -/

/-- A reset puts every sample register at 0 (rule R230), whether or not the idle check fails. -/
theorem samplesBehind_resetWith {cfg : Config} {cap : Capture} (hw : cfg.wf = true)
    (ha : cap.admittedFor cfg = true) (stop : Bool) : SamplesBehind (resetWith cfg cap stop) 0 := by
  have registers : SamplesBehind (resetRegisters cfg cap stop) 0 :=
    { config := hw
      capture := ha
      lockStep := rfl
      inCapture := Nat.zero_le _
      mark := Nat.zero_le _
      lastLatch := le_rfl
      intEnd := le_rfl
      errSample := le_rfl
      frames := nofun }
  unfold resetWith
  split
  · exact registers.congr rfl
  · exact registers

/-- A capture admitted for the same configuration that knows no fewer samples. -/
theorem SamplesBehind.withCapture (h : SamplesBehind s p) {cap : Capture}
    (ha : cap.admittedFor s.cfg = true) (hh : s.horizon ≤ cap.horizon) :
    SamplesBehind (s.withCapture cap) p :=
  { h with capture := ha, inCapture := h.inCapture.trans hh }

theorem inSession_samplesBehind (h : InSession s) : ∃ p, SamplesBehind s p := by
  induction h with
  | reset cfg cap before s hr =>
    obtain ⟨hw, ha, rfl⟩ := hostReset_eq_next.1 hr
    exact ⟨0, samplesBehind_resetWith hw ha _⟩
  | step s t _ hs ih =>
    obtain ⟨p, h⟩ := ih
    exact h.step hs
  | extend horizon' more s t _ he ih =>
    obtain ⟨p, h⟩ := ih
    obtain ⟨hm, rfl⟩ := hostExtend_eq_next.1 he
    have hlt := ((Capture.mayExtend_iff s.capture horizon' more).1 hm).2.1
    exact ⟨p, h.withCapture (Capture.extend_admittedFor h.capture hm) hlt.le⟩
  | final s t _ hf ih =>
    obtain ⟨p, h⟩ := ih
    obtain ⟨-, rfl⟩ := hostSetFinal_eq_next.1 hf
    exact ⟨p, h.withCapture (cap := { s.capture with final := true }) h.capture le_rfl⟩
  | stop b s _ ih =>
    obtain ⟨p, h⟩ := ih
    exact ⟨p, h.congr rfl⟩

/-! ## The bound in numbers -/

/-- Rule R239: the horizon of an admitted capture. -/
theorem horizon_le_of_admittedFor {cap : Capture} {cfg : Config}
    (h : cap.admittedFor cfg = true) : cap.horizon ≤ 2 ^ 64 - 2 := by
  have hw := Capture.wf_of_admittedFor h
  simp only [Capture.wf, Bool.and_eq_true, decide_eq_true_eq] at hw
  exact hw.1

/-- In lock-step no cursor is past `p`; a place outside the register file reads as 0. -/
theorem cursors_le_of_lockStep (h : LockStep s p) (i : Nat) : s.clkPos i ≤ p ∧ s.datPos i ≤ p := by
  by_cases hi : i < s.cfg.n
  · exact ⟨(h.clkPos hi).le, (h.datPos hi).le⟩
  · have hnone : s.nodes[i]? = none := by
      rw [h, List.getElem?_eq_none_iff, List.length_replicate]
      exact Nat.le_of_not_lt hi
    simp [State.clkPos, State.datPos, List.getD_eq_getElem?_getD, hnone]

end

/-- Settles O60: every sample is at most one past the cursors, which stay within the horizon. -/
theorem samplesFitSixtyFourBits : Obligations.SamplesFitSixtyFourBits := by
  intro s hs
  obtain ⟨p, h⟩ := inSession_samplesBehind hs
  have hp : p + 1 < 2 ^ 64 := by
    have hin : p ≤ s.capture.horizon := h.inCapture
    have := horizon_le_of_admittedFor h.capture
    omega
  have hp' : p < 2 ^ 64 := Nat.lt_of_succ_lt hp
  refine ⟨fun i => ?_, h.mark.trans_lt hp, h.lastLatch.trans_lt hp', h.intEnd.trans_lt hp',
    h.errSample.trans_lt hp', fun f hf => ?_⟩
  · obtain ⟨hclk, hdat⟩ := cursors_le_of_lockStep h.lockStep i
    exact ⟨hclk.trans_lt hp', hdat.trans_lt hp'⟩
  · obtain ⟨hstart, hend⟩ := h.frames f hf
    exact ⟨hstart.trans_lt hp, hend.trans_lt hp'⟩

end Sys2Proof.Machine
end

section
/-! What every step leaves and where it goes (spec/10_state.md rules R21 to R25): the operation that is
dispatched, the inputs, the cursors and the cycle of phases. -/

namespace Sys2Proof.Machine

open Sys2Proof

/-- Settles O4: the byte laid out from the phase register decodes to what the step fetches. -/
theorem stepRunsTheDecodedOperation : Obligations.StepRunsTheDecodedOperation := by
  intro s i hdec hstop
  rw [decodeBytes_code, Except.ok.injEq, Prod.mk.injEq] at hdec
  obtain ⟨rfl, -⟩ := hdec
  rw [decode_noStep_iff] at hstop
  exact step_of_not_stop hstop

/-! ## What holds of every answer of a step -/

/-- A property holds of what a step answers if it holds of each way a step can go: a no-step, the
entry into HALTED, the fault of a reserved code, a hold, and each phase operation that did not
hold. -/
theorem step_elim {P : State → Prop} {s t : State} (h : step s = .next t)
    (noStep : s.phase = 8#4 ∨ s.phase = 9#4 → P (s.withOutcome .noStep))
    (halt : s.stop = true → s.phase ≠ 8#4 → s.phase ≠ 9#4 → P (enterHalted s))
    (badCode : s.stop = false → 10#4 ≤ s.phase →
      P (raiseFault .badState (s.clkPos s.lastNode) s))
    (hold : s.stop = false → P s.withHold)
    (request : s.stop = false → s.phase = 0#4 → requestPhase s = some t → P t)
    (arbitration : s.stop = false → s.phase = 1#4 → arbitrationPhase s = some t → P t)
    (priority : s.stop = false → s.phase = 2#4 → priorityPhase s = some t → P t)
    (reserved : s.stop = false → s.phase = 3#4 → reservedPhase s = some t → P t)
    (address : s.stop = false → s.phase = 4#4 → addressPhase s = some t → P t)
    (data : s.stop = false → s.phase = 5#4 → dataPhase s = some t → P t)
    (control0 : s.stop = false → s.phase = 6#4 → control0Phase s = some t → P t)
    (control1 : s.stop = false → s.phase = 7#4 → control1Phase s = some t → P t) : P t := by
  have finish : ∀ {r}, s.stop = false → finishStep s r = .next t → (r = some t → P t) → P t := by
    intro r hs hf hr
    obtain hsome | ⟨-, rfl⟩ := finishStep_eq_next hf
    · exact hr hsome
    · exact hold hs
  obtain ⟨hp, rfl⟩ | ⟨hs, h8, h9, rfl⟩ | ⟨hs, hp, rfl⟩ | ⟨hs, hop⟩ := step_cases h
  · exact noStep hp
  · exact halt hs h8 h9
  · exact badCode hs hp
  · obtain ⟨hp, hf⟩ | ⟨hp, hf⟩ | ⟨hp, hf⟩ | ⟨hp, hf⟩ | ⟨hp, hf⟩ | ⟨hp, hf⟩ | ⟨hp, hf⟩ | ⟨hp, hf⟩ :=
      hop
    · exact finish hs hf (request hs hp)
    · exact finish hs hf (arbitration hs hp)
    · exact finish hs hf (priority hs hp)
    · exact finish hs hf (reserved hs hp)
    · exact finish hs hf (address hs hp)
    · exact finish hs hf (data hs hp)
    · exact finish hs hf (control0 hs hp)
    · exact finish hs hf (control1 hs hp)

/-! ## Inputs and cursors -/

/-- The inputs are as they were, and no cursor is behind where it was. -/
structure MovesOn (s t : State) : Prop where
  cfg : t.cfg = s.cfg
  capture : t.capture = s.capture
  stop : t.stop = s.stop
  nodes : CursorsLe s.nodes t.nodes

/-- A state whose cursors moved on, whatever other registers were written. -/
theorem MovesOn.of_nodes {s t : State} {ns : List NodeCursors} (hn : CursorsLe s.nodes ns)
    (ht : (t.cfg, t.capture, t.stop, t.nodes) = (s.cfg, s.capture, s.stop, ns)) : MovesOn s t := by
  simp only [Prod.mk.injEq] at ht
  obtain ⟨hcfg, hcap, hstop, hnodes⟩ := ht
  exact ⟨hcfg, hcap, hstop, hnodes ▸ hn⟩

/-- Rules R21, R50 and R61: what every step leaves. -/
theorem step_movesOn {s t : State} (h : step s = .next t) : MovesOn s t := by
  refine step_elim h ?noStep ?halt ?badCode ?hold ?request ?arbitration ?priority ?reserved
    ?address ?data ?control0 ?control1
  case noStep => exact fun _ => .of_nodes (.refl _) rfl
  case halt => exact fun _ _ _ => .of_nodes (.refl _) rfl
  case badCode => exact fun _ _ => .of_nodes (.refl _) rfl
  case hold => exact fun _ => .of_nodes (.refl _) rfl
  case request =>
    intro _ _ hr
    obtain ⟨e, probes, ns, -, hn, rfl⟩ := requestPhase_effect hr
    exact .of_nodes hn rfl
  case arbitration =>
    intro _ _ hr
    obtain ⟨e, ns, -, hn, rfl⟩ := arbitrationPhase_effect hr
    obtain ⟨v, x, hx⟩ := setWinner_eq (arbitrationMatches s.cfg.n (s.datLevels e))
      ((s.setNodes ns).latch e)
    rw [hx]
    exact .of_nodes hn rfl
  case priority =>
    intro _ _ hr
    obtain ⟨e, ns, -, hn, rfl⟩ := priorityPhase_effect hr
    obtain ⟨x, hx⟩ := replaceWinner_eq (priorityMatches s.cfg.n (s.datLevels e) s.tx.toNat)
      ((s.setNodes ns).latch e)
    rw [hx]
    split <;> exact .of_nodes hn rfl
  case reserved =>
    intro _ _ hr
    obtain ⟨e, stop, ns, -, hn, rfl⟩ := reservedPhase_effect hr
    exact .of_nodes hn rfl
  case address =>
    intro _ _ hr
    obtain ⟨v, ns, latch, pending, stop, hn, rfl⟩ | ⟨e, ns, latch, hn, rfl⟩ :=
      addressLoop_effect hr
    · exact .of_nodes hn rfl
    · exact .of_nodes hn rfl
  case data =>
    intro _ _ hr
    obtain ⟨-, rfl⟩ | ⟨v, ns, latch, pending, stop, -, hn, rfl⟩ | ⟨e, ns, latch, -, hn, rfl⟩ :=
      dataPhase_effect hr
    · exact .of_nodes (.refl _) rfl
    · exact .of_nodes hn rfl
    · exact .of_nodes hn rfl
  case control0 =>
    intro _ _ hr
    obtain ⟨e, ns, -, hn, rfl⟩ := control0Phase_effect hr
    exact .of_nodes hn rfl
  case control1 =>
    intro _ _ hr
    obtain ⟨e, e₃, ns, -, hn, rfl⟩ := control1Phase_effect hr
    exact .of_nodes hn rfl

/-- Settles O43: a place of the register file keeps its cursors in order. -/
theorem cursorsNeverMoveBack : Obligations.CursorsNeverMoveBack := by
  intro s t h
  have moves := step_movesOn h
  exact ⟨moves.nodes.length_eq.symm, fun i => moves.nodes.getD i⟩

/-- Settles O45: what moves in a step is cursors and registers, none of them an input. -/
theorem stepWritesNoInput : Obligations.StepWritesNoInput := by
  intro s t h
  have moves := step_movesOn h
  exact ⟨moves.cfg, moves.capture, moves.stop⟩

/-! ## The cycle of phases -/

/-- What a step does to `phase`: it leaves it, in a hold or a no-step, enters HALTED because of `stop`
(rule R209), emits one frame and goes on as the transaction grammar says (rules R24 and R89), or
faults, in ADDRESS or on a reserved code (rule R202). -/
inductive Transition (s t : State) : Prop
  | kept (phase : t.phase = s.phase) (outcome : t.outcome = .hold ∨ t.outcome = .noStep)
  | halted (stop : s.stop = true) (outcome : t.outcome = .next) (phase : t.phase = PhaseCode.halted)
  | emitted (f : Frame) (stop : s.stop = false) (outcome : t.outcome = .next)
      (sink : t.sink = s.sink ++ [f]) (phase : phaseAfter s.phase f.kind = some t.phase)
  | faulted (stop : s.stop = false) (outcome : t.outcome = .fault)
      (source : s.phase = PhaseCode.address ∨ 10#4 ≤ s.phase)
      (phase : t.phase = PhaseCode.fault)

/-- The end of an operation that emits a frame and writes the next phase. -/
theorem transition_of_emit {s u : State} {k : FrameKind} {fl : BitVec 8} {a b m : Nat}
    {vp vs : BitVec 64} {ph : BitVec 4} (hs : s.stop = false) (hu : u.sink = s.sink)
    (hph : phaseAfter s.phase k = some ph) :
    Transition s (complete ((emitFrame k fl a b vp vs m u).goto ph)) :=
  .emitted _ hs rfl (congrArg (· ++ [_]) hu) hph

theorem step_transition {s t : State} (h : step s = .next t) : Transition s t := by
  refine step_elim h ?noStep ?halt ?badCode ?hold ?request ?arbitration ?priority ?reserved
    ?address ?data ?control0 ?control1
  case noStep => exact fun _ => .kept rfl (.inr rfl)
  case halt => exact fun hs _ _ => .halted hs rfl rfl
  case badCode => exact fun hs hp => .faulted hs rfl (.inr hp) rfl
  case hold => exact fun _ => .kept rfl (.inl rfl)
  case request =>
    intro hs hp hr
    obtain ⟨e, probes, ns, -, -, rfl⟩ := requestPhase_effect hr
    exact .emitted _ hs rfl rfl (if_pos hp)
  case arbitration =>
    intro hs hp hr
    obtain ⟨e, ns, -, -, rfl⟩ := arbitrationPhase_effect hr
    obtain ⟨v, x, hx⟩ := setWinner_eq (arbitrationMatches s.cfg.n (s.datLevels e))
      ((s.setNodes ns).latch e)
    rw [hx]
    exact transition_of_emit hs rfl (if_pos hp)
  case priority =>
    intro hs hp hr
    obtain ⟨e, ns, -, -, rfl⟩ := priorityPhase_effect hr
    obtain ⟨x, hx⟩ := replaceWinner_eq (priorityMatches s.cfg.n (s.datLevels e) s.tx.toNat)
      ((s.setNodes ns).latch e)
    rw [hx]
    split <;> exact transition_of_emit hs rfl (if_pos hp)
  case reserved =>
    intro hs hp hr
    obtain ⟨e, stop, ns, -, -, rfl⟩ := reservedPhase_effect hr
    exact transition_of_emit hs rfl (if_pos hp)
  case address =>
    intro hs hp hr
    obtain ⟨v, ns, latch, pending, stop, -, rfl⟩ | ⟨e, ns, latch, -, rfl⟩ :=
      addressLoop_effect hr
    · exact transition_of_emit hs rfl (if_pos hp)
    · exact .faulted hs rfl (.inl hp) rfl
  case data =>
    intro hs hp hr
    obtain ⟨-, rfl⟩ | ⟨v, ns, latch, pending, stop, -, -, rfl⟩ | ⟨e, ns, latch, -, -, rfl⟩ :=
      dataPhase_effect hr
    · exact .emitted _ hs rfl rfl (if_pos hp)
    · exact .emitted _ hs rfl rfl ((if_pos hp).trans (congrArg some hp.symm))
    · exact transition_of_emit hs rfl (if_pos hp)
  case control0 =>
    intro hs hp hr
    obtain ⟨e, ns, -, -, rfl⟩ := control0Phase_effect hr
    exact transition_of_emit hs rfl (if_pos hp)
  case control1 =>
    intro hs hp hr
    obtain ⟨e, e₃, ns, -, -, rfl⟩ := control1Phase_effect hr
    exact transition_of_emit hs rfl (if_pos hp)

/-- The grammar of rule R89 follows the cycle of rule R24, but for the Data frame. -/
theorem phaseAfter_cycle {ph ph' : BitVec 4} {k : FrameKind} (h : phaseAfter ph k = some ph') :
    ph ≤ 7#4 ∧ (ph' = (ph + 1#4) &&& 7#4 ∨ (ph = 5#4 ∧ ph' = ph ∧ k = .data)) := by
  cases k <;>
    simp only [phaseAfter, Option.ite_none_right_eq_some, Option.some.injEq] at h <;>
    obtain ⟨rfl, rfl⟩ := h <;> decide

/-- Settles O14: the frame a completed operation emits says where the cycle goes. -/
theorem phaseFollowsTheCycle : Obligations.PhaseFollowsTheCycle := by
  intro s t h
  cases step_transition h with
  | kept hphase hout => obtain hout | hout := hout <;> simp [hout, hphase]
  | halted hs hout hphase => exact ⟨fun _ => .inl ⟨hs, hphase⟩, by simp [hout], by simp [hout]⟩
  | emitted f hs hout hsink hphase =>
    obtain ⟨hle, hnext⟩ := phaseAfter_cycle hphase
    refine ⟨fun _ => .inr ⟨hs, hle, hnext.imp id ?_⟩, by simp [hout], by simp [hout]⟩
    rintro ⟨h5, hsame, hkind⟩
    exact ⟨h5, hsame, f, hsink, hkind⟩
  | faulted hs hout hsource hphase =>
    exact ⟨by simp [hout], fun _ => ⟨hs, hsource, hphase⟩, by simp [hout]⟩

end Sys2Proof.Machine
end

section
/-! The transmitter's index (spec/10_state.md rule R27): the operations that resolve no transmitter
run on the index as on any other value. -/

namespace Sys2Proof.Machine

open Sys2Proof

/-- The state with another transmitter index. -/
def State.withTx (s : State) (x : BitVec 5) : State := { s with tx := x }

section
variable (s : State) (x : BitVec 5)

@[simp] theorem withTx_tx : (s.withTx x).tx = x := rfl
@[simp] theorem withTx_cfg : (s.withTx x).cfg = s.cfg := rfl
@[simp] theorem withTx_nodes : (s.withTx x).nodes = s.nodes := rfl
@[simp] theorem withTx_mark : (s.withTx x).mark = s.mark := rfl
@[simp] theorem withTx_intPending : (s.withTx x).intPending = s.intPending := rfl
@[simp] theorem withTx_horizon : (s.withTx x).horizon = s.horizon := rfl
@[simp] theorem withTx_lastNode : (s.withTx x).lastNode = s.lastNode := rfl
@[simp] theorem withTx_clk (i : Nat) : (s.withTx x).clk i = s.clk i := rfl
@[simp] theorem withTx_dat (i : Nat) : (s.withTx x).dat i = s.dat i := rfl
@[simp] theorem withTx_datPos (i : Nat) : (s.withTx x).datPos i = s.datPos i := rfl
@[simp] theorem withTx_noWinnerFlag : noWinnerFlag (s.withTx x) = noWinnerFlag s := rfl
@[simp] theorem withTx_peekClkEdge : peekClkEdge (s.withTx x) = peekClkEdge s := rfl
@[simp] theorem withTx_bitAt (e : Nat) : bitAt (s.withTx x) e = bitAt s e := rfl

/-- No field but `tx` is written, so an update of the others commutes with it. -/
@[simp] theorem withTx_latch (e : Nat) : (s.withTx x).latch e = (s.latch e).withTx x := rfl
@[simp] theorem withTx_setPending (e : Nat) :
    (s.withTx x).setPending e = (s.setPending e).withTx x := rfl

/-! ## The shared operations -/

@[simp] theorem advanceNodes_withTx (target i : Nat) (nds : List NodeCursors) :
    advanceNodes (s.withTx x) target i nds = advanceNodes s target i nds := by
  induction nds generalizing i with
  | nil => rfl
  | cons nd rest ih =>
    simp only [advanceNodes, ih, withTx_horizon, withTx_clk, withTx_dat]
    rfl

@[simp] theorem advanceAllTo_withTx (target : Nat) :
    advanceAllTo target (s.withTx x) =
      (advanceAllTo target s).map fun (t, b) => (t.withTx x, b) := by
  simp only [advanceAllTo, advanceNodes_withTx, withTx_nodes]
  cases advanceNodes s target 0 s.nodes <;> rfl

@[simp] theorem clkEdge_withTx :
    clkEdge (s.withTx x) = (clkEdge s).map fun (e, b, t) => (e, b, t.withTx x) := by
  simp only [clkEdge, withTx_peekClkEdge, advanceAllTo_withTx]
  cases peekClkEdge s with
  | none => rfl
  | some e => cases h : advanceAllTo e s <;> simp [h]

@[simp] theorem probeNodes_withTx (e i : Nat) (nds : List NodeCursors) :
    probeNodes (s.withTx x) e i nds = probeNodes s e i nds := by
  induction nds generalizing i with
  | nil => rfl
  | cons nd rest ih => simp only [probeNodes, probeNode, ih, withTx_horizon, withTx_dat]

@[simp] theorem controlCell_withTx :
    controlCell (s.withTx x) = (controlCell s).map fun (e, b, t) => (e, b, t.withTx x) := by
  simp only [controlCell, clkEdge_withTx]
  cases clkEdge s with
  | none => rfl
  | some r =>
    obtain ⟨e, b, u⟩ := r
    cases hb : bitAt u e with
    | none => simp [hb]
    | some l => cases hc : clkEdge (u.latch e) <;> simp [hb, hc]

/-! ## The phase operations

Each answers the same with another index, and leaves it: pushing the change of index outward through
the binds of the operation meets no read of `tx`. -/

theorem requestPhase_withTx :
    requestPhase (s.withTx x) = (requestPhase s).map (·.withTx x) := by
  have href (e : Nat) : setReferenceClk e (s.withTx x) = (setReferenceClk e s).withTx x := rfl
  have hset (u : State) (ns : List NodeCursors) :
    (u.withTx x).setNodes ns = (u.setNodes ns).withTx x := rfl
  simp only [requestPhase, href, hset, withTx_peekClkEdge, withTx_nodes, probeNodes_withTx,
    advanceAllTo_withTx, Option.bind_eq_bind, Option.bind_map, Option.map_bind, Option.map_some,
    Function.comp_def]
  rfl

theorem reservedPhase_withTx :
    reservedPhase (s.withTx x) = (reservedPhase s).map (·.withTx x) := by
  simp only [reservedPhase, clkEdge_withTx, withTx_latch, withTx_peekClkEdge, withTx_horizon,
    withTx_lastNode, withTx_dat, withTx_datPos, advanceAllTo_withTx, Option.bind_eq_bind,
    Option.bind_map, Option.map_bind, Option.map_some, apply_ite (Option.map _), Function.comp_def]
  rfl

theorem addressLoop_withTx (fuel k bits : Nat) (v : BitVec 32) :
    addressLoop fuel k bits v (s.withTx x) = (addressLoop fuel k bits v s).map (·.withTx x) := by
  induction fuel generalizing k bits v s with
  | zero => rfl
  | succ fuel ih =>
    simp only [addressLoop, clkEdge_withTx, withTx_bitAt, withTx_latch, withTx_setPending, ih,
      Option.bind_eq_bind, Option.bind_map, Option.map_bind, Option.map_some,
      apply_ite (Option.map _), Function.comp_def]
    rfl

theorem dataLoop_withTx (left : Nat) (v : BitVec 8) :
    dataLoop left v (s.withTx x) = (dataLoop left v s).map (·.withTx x) := by
  induction left generalizing v s with
  | zero => rfl
  | succ left ih =>
    simp only [dataLoop, clkEdge_withTx, withTx_bitAt, withTx_latch, withTx_setPending, ih,
      Option.bind_eq_bind, Option.bind_map, Option.map_bind, Option.map_some,
      apply_ite (Option.map _), Function.comp_def]
    rfl

theorem dataPhase_withTx : dataPhase (s.withTx x) = (dataPhase s).map (·.withTx x) := by
  unfold dataPhase
  rw [dataLoop_withTx, withTx_intPending]
  split <;> rfl

theorem control0Phase_withTx :
    control0Phase (s.withTx x) = (control0Phase s).map (·.withTx x) := by
  simp only [control0Phase, controlCell_withTx, Option.bind_eq_bind, Option.bind_map,
    Option.map_bind, Option.map_some, Function.comp_def]
  rfl

theorem control1Phase_withTx :
    control1Phase (s.withTx x) = (control1Phase s).map (·.withTx x) := by
  simp only [control1Phase, controlCell_withTx, clkEdge_withTx, Option.bind_eq_bind,
    Option.bind_map, Option.map_bind, Option.map_some, Function.comp_def]
  rfl

/-! ## Operations -/

variable {s x} {t : State}

/-- An operation that answers the same with another index does so when it holds as well. -/
theorem finishStep_withTx {op : State → Option State}
    (hop : op (s.withTx x) = (op s).map (·.withTx x)) (h : finishStep s (op s) = .next t) :
    finishStep (s.withTx x) (op (s.withTx x)) = .next (t.withTx x) := by
  rw [hop]
  obtain hsome | ⟨hnone, rfl⟩ := finishStep_eq_next h
  · rw [hsome]
    rfl
  · rw [hnone]
    rfl

theorem exec_withTx {i : Instr} (hp : i ≠ .priority) (ha : i ≠ .arbitration)
    (h : exec i s = .next t) : exec i (s.withTx x) = .next (t.withTx x) := by
  cases i with
  | request => exact finishStep_withTx (requestPhase_withTx s x) h
  | arbitration => exact absurd rfl ha
  | priority => exact absurd rfl hp
  | reserved => exact finishStep_withTx (reservedPhase_withTx s x) h
  | address => exact finishStep_withTx (addressLoop_withTx s x 32 0 8 0#32) h
  | data => exact finishStep_withTx (dataPhase_withTx s x) h
  | control0 => exact finishStep_withTx (control0Phase_withTx s x) h
  | control1 => exact finishStep_withTx (control1Phase_withTx s x) h
  | halted => cases Host.Outcome.next.inj h; rfl
  | fault => cases Host.Outcome.next.inj h; rfl
  | reservedPhase101x code => cases Host.Outcome.next.inj h; rfl
  | reservedPhase11xx code => cases Host.Outcome.next.inj h; rfl

end

/-- Settles O47: that `tx` is left follows from the other half, at the index the state holds. -/
theorem transmitterSelectsNoChannel : Obligations.TransmitterSelectsNoChannel := by
  intro i s t x hp ha h
  refine ⟨?_, exec_withTx hp ha h⟩
  have same : exec i s = .next (t.withTx s.tx) := exec_withTx (x := s.tx) hp ha h
  have heq : t = t.withTx s.tx := Host.Outcome.next.inj (h.symm.trans same)
  exact (congrArg State.tx heq).trans (withTx_tx t s.tx)

end Sys2Proof.Machine
end

section
/-! The session invariant (spec/10_state.md rule R38): every step keeps it, and emits at most one frame,
in the format and at the place of rules R69 and R85 to R88. -/

namespace Sys2Proof.Machine

open Sys2Proof

/-! ## Reading the invariant -/

section
variable {s t : State} {q : Nat}

/-- In lock-step the progress output is the sample the cursors hold (rule R214). -/
theorem LockStep.progress (hw : s.cfg.wf = true) (h : LockStep s q) : s.progress = q :=
  h.clkPos (lastNode_lt hw)

/-- Rule R232: how many nodes an admitted bus has, as far as a node's index needs it. -/
theorem Config.n_bounds_of_wf {cfg : Config} (h : cfg.wf = true) : 0 < cfg.n ∧ cfg.n ≤ 32 := by
  simp only [Config.wf, Bool.and_eq_true, decide_eq_true_eq] at h
  omega

/-- Only DATA and HALTED are entered with an interruption pending (rule R31). -/
theorem SessionInv.intPending_eq_false (h : SessionInv s) {ph : BitVec 4} (hp : s.phase = ph)
    (hph : ph ≠ PhaseCode.data ∧ ph ≠ PhaseCode.halted) : s.intPending = false := by
  refine Bool.eq_false_iff.2 fun hpend => ?_
  obtain hd | hh := (h.pending hpend).1
  · exact hph.1 (hp.symm.trans hd)
  · exact hph.2 (hp.symm.trans hh)

end

/-! ## Completed operations

Every completed operation ends in one shape: from a state `u` with the cursors at `q` it emits its one
frame, writes `mark` and goes to the next phase. -/

/-- The registers an operation leaves until it emits its frame, and the lock-step at `q`. -/
def State.keptAt (s : State) (q : Nat) :
    Config × Capture × List NodeCursors × ErrCode × Nat × Bool :=
  (s.cfg, s.capture, List.replicate s.cfg.n ⟨q, q⟩, s.errCode, s.errSample, s.atEnd)

section
variable {s u : State} {q m a b : Nat} {k : FrameKind} {fl : BitVec 8} {vp vs : BitVec 64}
  {src ph : BitVec 4} (h : SessionInv s)
include h

/-- From a state of the invariant, an operation that moved the cursors on to `q`, wrote no sample past
them and goes to a phase of the cycle. -/
theorem SessionInv.completed (hs : s.phase ≠ PhaseCode.fault) (hph : ph ≤ PhaseCode.control1)
    (hpq : s.progress ≤ q) (hq : q ≤ s.horizon)
    (hkept : (u.cfg, u.capture, u.nodes, u.errCode, u.errSample, u.atEnd) = s.keptAt q)
    (htx : u.tx.toNat < s.cfg.n) (hm : m ≤ q + 1) (hlatch : u.lastLatch ≤ q)
    (hint : u.intEnd ≤ q) (hdata : ph = PhaseCode.data → m = u.lastLatch + 1)
    (hpend : u.intPending = true → ph = PhaseCode.data ∧ u.lastLatch < u.intEnd) :
    SessionInv (complete ((emitFrame k fl a b vp vs m u).goto ph)) := by
  simp only [State.keptAt, Prod.mk.injEq] at hkept
  obtain ⟨hcfg, hcap, hnodes, hcode, hsample, hend⟩ := hkept
  have hw : u.cfg.wf = true := hcfg ▸ h.config
  have hl : LockStep u q := by rw [LockStep, hnodes, hcfg]
  have hprog : (complete ((emitFrame k fl a b vp vs m u).goto ph)).progress = q := hl.progress hw
  have hnone : s.errCode = .none := Classical.not_not.1 (mt h.faulted.2 hs)
  have hnf : ph ≠ PhaseCode.fault := by
    rintro rfl
    exact absurd hph (by decide)
  exact
    { config := hw
      capture := by simpa [hcap, hcfg] using h.capture
      lockStep := by rw [hprog]; exact hl
      inCapture := by simpa [hprog, State.horizon, hcap] using hq
      legalPhase := BitVec.le_trans hph (by decide)
      faulted := by simp [hnf, hcode, hnone]
      noFault := fun _ => hsample.trans (h.noFault hnone)
      transmitter := by simpa [hcfg] using htx
      markBehind := hm.trans_eq (congrArg (· + 1) hprog.symm)
      latchBehind := hlatch.trans_eq hprog.symm
      intEndBehind := hint.trans_eq hprog.symm
      errBehind := (hsample.trans_le (h.errBehind.trans hpq)).trans_eq hprog.symm
      dataMark := hdata
      pending := fun hp => (hpend hp).imp_left .inl
      endFinal := by simpa [hend, hcap] using h.endFinal }

/-- The same for an operation that neither starts nor ends in DATA, nor writes what rule R31 leaves to
DATA. -/
theorem SessionInv.completed_cell (hp : s.phase = src)
    (hph : src ≠ PhaseCode.fault ∧ (src ≠ PhaseCode.data ∧ src ≠ PhaseCode.halted) ∧
      ph ≤ PhaseCode.control1 ∧ ph ≠ PhaseCode.data)
    (hpq : s.progress ≤ q) (hq : q ≤ s.horizon)
    (hkept : (u.cfg, u.capture, u.nodes, u.errCode, u.errSample, u.atEnd) = s.keptAt q)
    (hint : (u.intPending, u.intEnd) = (s.intPending, s.intEnd)) (htx : u.tx.toNat < s.cfg.n)
    (hm : m ≤ q + 1) (hlatch : u.lastLatch ≤ q) :
    SessionInv (complete ((emitFrame k fl a b vp vs m u).goto ph)) := by
  obtain ⟨hfault, hsrc, hle, hdata⟩ := hph
  obtain ⟨hpend, hend⟩ := Prod.mk.inj hint
  refine h.completed (hp ▸ hfault) hle hpq hq hkept htx hm hlatch
    (hend ▸ h.intEndBehind.trans hpq) (fun hd => absurd hd hdata) ?_
  rw [hpend, h.intPending_eq_false hp hsrc]
  exact nofun

end

/-! ## Formats of frames -/

/-- Rule R87: every bit set stands for a node of the list. -/
theorem nodeVector_bit {ms : List Nat} {j : Nat} (h : (nodeVector ms).getLsbD j = true) :
    ∃ i ∈ ms, j = 32 + i := by
  induction ms with
  | nil => simp [nodeVector] at h
  | cons m ms ih =>
    rw [nodeVector, BitVec.getLsbD_or, Bool.or_eq_true] at h
    obtain h | h := h
    · simp only [BitVec.getLsbD_shiftLeft, BitVec.getLsbD_one, Bool.and_eq_true,
        Bool.not_eq_true', decide_eq_true_eq, decide_eq_false_iff_not] at h
      exact ⟨m, List.mem_cons_self, by omega⟩
    · obtain ⟨i, hi, hj⟩ := ih h
      exact ⟨i, List.mem_cons_of_mem m hi, hj⟩

/-- The low half is free for an index (rule R86). -/
theorem nodeVector_or_low (ms : List Nat) (w : BitVec 64) :
    (nodeVector ms ||| w).extractLsb' 0 32 = w.extractLsb' 0 32 := by
  refine BitVec.eq_of_getLsbD_eq fun j hj => ?_
  have hbit : (nodeVector ms).getLsbD j = false := by
    refine Bool.eq_false_iff.2 fun hb => ?_
    obtain ⟨i, -, hi⟩ := nodeVector_bit hb
    omega
  simp [hbit]

/-- No bit above those of the nodes is set. -/
theorem nodeVector_ushiftRight {n : Nat} {ms : List Nat} (hms : ∀ m ∈ ms, m < n) :
    nodeVector ms >>> (32 + n) = 0#64 := by
  refine BitVec.eq_of_getLsbD_eq fun j _ => ?_
  have hbit : (nodeVector ms).getLsbD (32 + n + j) = false := by
    refine Bool.eq_false_iff.2 fun hb => ?_
    obtain ⟨i, hi, heq⟩ := nodeVector_bit hb
    have := hms i hi
    omega
  simp [hbit]

/-- A node vector with an index in its low half, on a bus of `n` nodes (rules R86 and R87). -/
theorem nodeVector_or_index {n : Nat} {ms : List Nat} {w : BitVec 64} (hn : n ≤ 32)
    (hms : ∀ m ∈ ms, m < n) (hw : w.toNat < n) :
    ((nodeVector ms ||| w).extractLsb' 0 32).toNat < n ∧
      (nodeVector ms ||| w) >>> (32 + n) = 0#64 := by
  constructor
  · rw [nodeVector_or_low, BitVec.extractLsb'_toNat, Nat.shiftRight_zero]
    exact (Nat.mod_le _ _).trans_lt hw
  · have hbound : w.toNat < 2 ^ (32 + n) :=
      calc w.toNat < 2 ^ 5 := by omega
        _ ≤ 2 ^ (32 + n) := Nat.pow_le_pow_right (by decide) (by omega)
    have hindex : w >>> (32 + n) = 0#64 := by
      refine BitVec.eq_of_toNat_eq ?_
      rw [BitVec.toNat_ushiftRight, Nat.shiftRight_eq_div_pow, Nat.div_eq_of_lt hbound]
      rfl
    rw [BitVec.ushiftRight_or_distrib, nodeVector_ushiftRight hms, hindex]
    rfl

theorem noWinnerFlag_eq (s : State) :
    noWinnerFlag s = Flag.none ∨ noWinnerFlag s = Flag.noWinner := by
  cases h : s.txValid <;> simp [noWinnerFlag, h]

section
variable {n a b : Nat} {ms : List Nat}

theorem frameFormat_request (s : State) (hms : ∀ m ∈ ms, m < n) :
    frameFormat n ⟨.request, requestFlags s, a, b, nodeVector ms, 0#64⟩ = true := by
  have hlow : (nodeVector ms).extractLsb' 0 32 = 0#32 := by
    rw [← BitVec.or_zero (x := nodeVector ms), nodeVector_or_low]
    decide
  cases hf : s.firstReq <;>
    simp [frameFormat, requestFlags, hf, hlow, nodeVector_ushiftRight hms]

theorem frameFormat_arbitration (hn : n ≤ 32) (hpos : 0 < n) (hms : ∀ m ∈ ms, m < n) :
    frameFormat n ⟨.arbitration, arbitrationFlags ms, a, b, arbitrationValue ms, 0#64⟩ = true := by
  cases ms with
  | nil =>
    obtain ⟨hlow, hhigh⟩ := nodeVector_or_index (w := 0#64) hn hms hpos
    rw [BitVec.or_zero] at hlow hhigh
    simp [frameFormat, arbitrationFlags, multipleFlag, arbitrationValue, hlow, hhigh, Flag.none,
      -BitVec.extractLsb'_toNat]
  | cons m ms =>
    have hm : m < n := hms m List.mem_cons_self
    obtain ⟨hlow, hhigh⟩ := nodeVector_or_index (w := indexField m) hn hms
      (by rw [indexField, BitVec.toNat_ofNat]; omega)
    cases ms <;>
      simp [frameFormat, arbitrationFlags, multipleFlag, arbitrationValue, hlow, hhigh, Flag.none,
        -BitVec.extractLsb'_toNat]

theorem frameFormat_priority {x : BitVec 5} (hn : n ≤ 32) (hms : ∀ m ∈ ms, m < n)
    (hx : x.toNat < n) :
    frameFormat n
      ⟨.priorityArbitration, priorityFlags ms, a, b, nodeVector ms ||| x.setWidth 64, 0#64⟩ =
        true := by
  obtain ⟨hlow, hhigh⟩ := nodeVector_or_index (w := x.setWidth 64) hn hms
    (by rw [BitVec.toNat_setWidth]; omega)
  by_cases hm : 1 < ms.length <;>
    simp [frameFormat, priorityFlags, multipleFlag, hm, hlow, hhigh, -BitVec.extractLsb'_toNat]

theorem frameFormat_priority_none (hpos : 0 < n) :
    frameFormat n ⟨.priorityArbitration, Flag.noWinner, a, b, 0#64, 0#64⟩ = true := by
  simp [frameFormat, hpos]

theorem frameFormat_reserved (s : State) :
    frameFormat n ⟨.reservedBit, noWinnerFlag s, a, b, 0#64, 0#64⟩ = true := by
  obtain h | h := noWinnerFlag_eq s <;> simp [frameFormat, h]

theorem frameFormat_interrupt (s : State) :
    frameFormat n ⟨.interrupt, noWinnerFlag s, a, b, 0#64, 0#64⟩ = true := by
  obtain h | h := noWinnerFlag_eq s <;> simp [frameFormat, h]

/-- A word of `w` bits has nothing above them. -/
theorem setWidth_ushiftRight_self {w : Nat} (v : BitVec w) :
    (v.setWidth 64 : BitVec 64) >>> w = 0#64 := by
  refine BitVec.eq_of_getLsbD_eq fun j _ => ?_
  simp

theorem frameFormat_address (s : State) (v : BitVec 32) :
    frameFormat n ⟨.address, noWinnerFlag s, a, b, v.setWidth 64, 1#64⟩ = true := by
  obtain h | h := noWinnerFlag_eq s <;>
    simp [frameFormat, h, setWidth_ushiftRight_self v]

theorem frameFormat_data (s : State) (v : BitVec 8) :
    frameFormat n ⟨.data, noWinnerFlag s, a, b, v.setWidth 64, 1#64⟩ = true := by
  obtain h | h := noWinnerFlag_eq s <;>
    simp [frameFormat, h, setWidth_ushiftRight_self v]

theorem bitField_ushiftRight_one (l : Level) : bitField 64 l >>> 1 = 0#64 := by
  cases l <;> decide

theorem frameFormat_control (s : State) (l : Level) :
    frameFormat n ⟨.controlBit0, noWinnerFlag s, a, b, bitField 64 l, 0#64⟩ = true ∧
      frameFormat n ⟨.controlBit1, noWinnerFlag s, a, b, bitField 64 l, 0#64⟩ = true := by
  obtain h | h := noWinnerFlag_eq s <;> simp [frameFormat, h, bitField_ushiftRight_one l]

end

/-! ## The nodes of a match set -/

theorem lt_of_mem_requesters {n m : Nat} {probes : List Probe} (h : m ∈ requesters n probes) :
    m < n :=
  List.mem_range.1 (List.mem_filter.1 h).1

theorem lt_of_mem_arbitrationMatches {n m : Nat} {levels : List Level} (hpos : 0 < n)
    (h : m ∈ arbitrationMatches n levels) : m < n := by
  unfold arbitrationMatches at h
  split at h
  · rwa [List.mem_singleton.1 h]
  · exact List.mem_range.1 (List.mem_filter.1 h).1

theorem lt_of_mem_priorityMatches {n m t : Nat} {levels : List Level} (hpos : 0 < n)
    (h : m ∈ priorityMatches n levels t) : m < n := by
  obtain ⟨j, -, rfl⟩ := List.mem_map.1 (List.mem_filter.1 h).1
  exact Nat.mod_lt _ hpos

/-- A winner fits the transmitter register. -/
theorem setWinner_eq_of_lt {n : Nat} {ms : List Nat} {s : State} (hn : n ≤ 32)
    (hms : ∀ m ∈ ms, m < n) (htx : s.tx.toNat < n) :
    ∃ v x, x.toNat < n ∧ setWinner ms s = { s with txValid := v, tx := x } := by
  cases ms with
  | nil => exact ⟨false, s.tx, htx, rfl⟩
  | cons m ms =>
    have hm : m < n := hms m List.mem_cons_self
    exact ⟨true, BitVec.ofNat 5 m, by rw [BitVec.toNat_ofNat]; omega, rfl⟩

theorem replaceWinner_eq_of_lt {n : Nat} {ms : List Nat} {s : State} (hn : n ≤ 32)
    (hms : ∀ m ∈ ms, m < n) (htx : s.tx.toNat < n) :
    ∃ x, x.toNat < n ∧ replaceWinner ms s = { s with tx := x } := by
  cases ms with
  | nil => exact ⟨s.tx, htx, rfl⟩
  | cons m ms =>
    have hm : m < n := hms m List.mem_cons_self
    exact ⟨BitVec.ofNat 5 m, by rw [BitVec.toNat_ofNat]; omega, rfl⟩

/-! ## What a step does to the sink -/

/-- What a step from a state of the session invariant does to the frame sink: nothing, or it emits one
frame, which starts no earlier than `mark` and ends before the next one (rules R67 and R69). -/
inductive SinkStep (s t : State) : Prop
  | quiet (kept : (t.cfg, t.sink, t.mark, t.firstReq) = (s.cfg, s.sink, s.mark, s.firstReq))
      (phase : t.phase = s.phase ∨ t.phase = PhaseCode.halted ∨ t.phase = PhaseCode.fault)
  | emits (f : Frame) (cfg : t.cfg = s.cfg) (sink : t.sink = s.sink ++ [f])
      (firstReq : t.firstReq = (s.firstReq && f.kind != .request))
      (phase : phaseAfter s.phase f.kind = some t.phase) (start : s.mark ≤ f.startSample)
      (span : f.startSample ≤ f.endSample) (ends : f.endSample < t.mark)
      (format : frameFormat s.cfg.n f = true)
      (quirk : f.kind = .request → f.flags = requestFlags s)

/-- The frame of an operation other than REQUEST. -/
theorem SinkStep.of_emit {s u : State} {m a b : Nat} {k : FrameKind} {fl : BitVec 8}
    {vp vs : BitVec 64} {ph : BitVec 4} (hk : k ≠ .request)
    (hphase : phaseAfter s.phase k = some ph)
    (hu : (u.cfg, u.sink, u.firstReq) = (s.cfg, s.sink, s.firstReq)) (hstart : s.mark ≤ a)
    (hspan : a ≤ b) (hend : b < m) (hformat : frameFormat s.cfg.n ⟨k, fl, a, b, vp, vs⟩ = true) :
    SinkStep s (complete ((emitFrame k fl a b vp vs m u).goto ph)) := by
  simp only [Prod.mk.injEq] at hu
  obtain ⟨hcfg, hsink, hfirst⟩ := hu
  exact .emits ⟨k, fl, a, b, vp, vs⟩ hcfg (congrArg (· ++ [_]) hsink) (by simp [hfirst, hk]) hphase
    hstart hspan hend hformat fun h => absurd h hk

/-! ## Every operation keeps the invariant -/

/-- DATA stays in DATA after a Data frame (rule R168), as if it went there. -/
theorem commitData_of_data {u : State} (hu : u.phase = PhaseCode.data) (v : BitVec 8) :
    commitData v u = complete ((emitFrame .data (noWinnerFlag u) u.mark u.lastLatch
      (v.setWidth 64) 1#64 (u.lastLatch + 1) u).goto PhaseCode.data) := by
  rw [← hu]
  rfl

/-- An interruption left pending by the last drive edge of a run of bits is after the last latch; what
was recorded before stays behind the cursors (rule R31). -/
theorem intEnd_after_latch {pending : Bool} {old stop latch q : Nat} (hold : old ≤ q)
    (hlq : latch < q) (h : (pending = false ∧ stop = old) ∨ (pending = true ∧ stop = q)) :
    stop ≤ q ∧ (pending = true → latch < stop) := by
  obtain ⟨rfl, rfl⟩ | ⟨-, rfl⟩ := h
  · exact ⟨hold, nofun⟩
  · exact ⟨le_rfl, fun _ => hlq⟩

section
variable {s t : State} (h : SessionInv s)
include h

theorem SessionInv.request (hp : s.phase = PhaseCode.request) (hr : requestPhase s = some t) :
    SessionInv t ∧ SinkStep s t := by
  obtain ⟨e, probes, hpe, he, rfl⟩ := requestPhase_lockStep h.config h.capture h.lockStep hr
  constructor
  · exact h.completed_cell (u := { s.allAt e with firstReq := false, txValid := false })
      (ph := PhaseCode.arbitration) hp (by decide) hpe.le he rfl rfl h.transmitter le_rfl
      (h.latchBehind.trans hpe.le)
  · exact .emits _ rfl rfl (Bool.and_false _).symm (if_pos hp) le_rfl (h.markBehind.trans hpe)
      (Nat.lt_succ_self e)
      (frameFormat_request s fun _ => lt_of_mem_requesters) fun _ => rfl

theorem SessionInv.arbitration (hp : s.phase = PhaseCode.arbitration)
    (hr : arbitrationPhase s = some t) : SessionInv t ∧ SinkStep s t := by
  obtain ⟨e, q, hpe, heq, hq, rfl⟩ := arbitrationPhase_lockStep h.config h.lockStep hr
  obtain ⟨hpos, hn⟩ := Config.n_bounds_of_wf h.config
  have hms : ∀ m ∈ arbitrationMatches s.cfg.n (s.datLevels e), m < s.cfg.n :=
    fun _ => lt_of_mem_arbitrationMatches hpos
  obtain ⟨v, x, hx, hw⟩ := setWinner_eq_of_lt (s := (s.allAt q).latch e) hn hms h.transmitter
  rw [hw]
  constructor
  · exact h.completed_cell hp (by decide) (hpe.trans heq).le hq rfl rfl hx
      (Nat.succ_le_succ heq.le) heq.le
  · exact .of_emit nofun (if_pos hp) rfl le_rfl (h.markBehind.trans hpe) (Nat.lt_succ_self e)
      (frameFormat_arbitration hn hpos hms)

theorem SessionInv.priority (hp : s.phase = PhaseCode.priority)
    (hr : priorityPhase s = some t) : SessionInv t ∧ SinkStep s t := by
  obtain ⟨e, q, ms, hpe, heq, hq, rfl, rfl⟩ := priorityPhase_lockStep h.config h.lockStep hr
  obtain ⟨hpos, hn⟩ := Config.n_bounds_of_wf h.config
  have hms : ∀ m ∈ priorityMatches s.cfg.n (s.datLevels e) s.tx.toNat, m < s.cfg.n :=
    fun _ => lt_of_mem_priorityMatches hpos
  obtain ⟨x, hx, hw⟩ := replaceWinner_eq_of_lt (s := (s.allAt q).latch e) hn hms h.transmitter
  rw [hw]
  split
  · constructor
    · exact h.completed_cell hp (by decide) (hpe.trans heq).le hq rfl rfl hx
        (Nat.succ_le_succ heq.le) heq.le
    · exact .of_emit nofun (if_pos hp) rfl le_rfl (h.markBehind.trans hpe) (Nat.lt_succ_self e)
        (frameFormat_priority hn hms hx)
  · constructor
    · exact h.completed_cell hp (by decide) (hpe.trans heq).le hq rfl rfl h.transmitter
        (Nat.succ_le_succ heq.le) heq.le
    · exact .of_emit nofun (if_pos hp) rfl le_rfl (h.markBehind.trans hpe) (Nat.lt_succ_self e)
        (frameFormat_priority_none hpos)

theorem SessionInv.reserved (hp : s.phase = PhaseCode.reserved)
    (hr : reservedPhase s = some t) : SessionInv t ∧ SinkStep s t := by
  obtain ⟨e, stop, q, hpe, hes, hsq, hq, rfl⟩ := reservedPhase_lockStep h.config h.lockStep hr
  have heq : e ≤ q := hes.trans hsq
  constructor
  · exact h.completed_cell hp (by decide) (hpe.le.trans heq) hq rfl rfl h.transmitter
      (Nat.succ_le_succ hsq) heq
  · exact .of_emit nofun (if_pos hp) rfl le_rfl ((h.markBehind.trans hpe).trans hes)
      (Nat.lt_succ_self stop) (frameFormat_reserved s)

/-- The fault of ADDRESS (rules R161 and R203): the cursors stand at the interruption. -/
theorem SessionInv.addressFault {q latch : Nat} (hp : s.phase = PhaseCode.address)
    (hpq : s.progress ≤ q) (hq : q ≤ s.horizon) (hlatch : latch ≤ q) :
    SessionInv (raiseFault .addrInterrupt q { s.allAt q with lastLatch := latch }) := by
  have hl : LockStep (s.allAt q) q := lockStep_allAt s q
  have hprog : (s.allAt q).progress = q := hl.progress h.config
  have hpend : s.intPending = false := h.intPending_eq_false hp (by decide)
  exact
    { config := h.config
      capture := h.capture
      lockStep := hprog.symm ▸ hl
      inCapture := hprog.trans_le hq
      legalPhase := BitVec.le_refl PhaseCode.fault
      faulted := ⟨fun _ => nofun, fun _ => rfl⟩
      noFault := nofun
      transmitter := h.transmitter
      markBehind := h.markBehind.trans (Nat.succ_le_succ (hpq.trans hprog.ge))
      latchBehind := hlatch.trans hprog.ge
      intEndBehind := h.intEndBehind.trans (hpq.trans hprog.ge)
      errBehind := hprog.ge
      dataMark := fun hd => absurd hd (show PhaseCode.fault ≠ PhaseCode.data by decide)
      pending := fun hpe => absurd (hpend.symm.trans hpe) nofun
      endFinal := h.endFinal }

theorem SessionInv.address (hp : s.phase = PhaseCode.address)
    (hr : addressPhase s = some t) : SessionInv t ∧ SinkStep s t := by
  have hsrc : s.phase ≠ PhaseCode.fault := hp ▸ by decide
  have hdst : PhaseCode.data ≤ PhaseCode.control1 := by decide
  obtain ⟨v, q, latch, pending, stop, hpl, hlq, hq, hstop, rfl⟩ |
    ⟨q, latch, hpq, hq, hlatch, rfl⟩ := addressPhase_lockStep h.config h.lockStep hr
  · have hpq : s.progress ≤ q := (hpl.trans hlq).le
    rw [h.intPending_eq_false hp (by decide)] at hstop
    obtain ⟨hsq, hafter⟩ := intEnd_after_latch (h.intEndBehind.trans hpq) hlq hstop
    constructor
    · exact h.completed hsrc hdst hpq hq rfl h.transmitter (Nat.succ_le_succ hlq.le) hlq.le hsq
        (fun _ => rfl) fun hpend => ⟨rfl, hafter hpend⟩
    · exact .of_emit nofun (if_pos hp) rfl le_rfl (h.markBehind.trans hpl)
        (Nat.lt_succ_self latch) (frameFormat_address s v)
  · have hlatch : latch ≤ q := by have := h.latchBehind; omega
    exact ⟨h.addressFault hp hpq.le hq hlatch, .quiet rfl (.inr (.inr rfl))⟩

/-- The Interrupt frame starts right after the last latch, which in DATA is no earlier than `mark`
(rules R166, R167 and R169). -/
theorem SessionInv.interrupt {u : State} {q stop : Nat} (hp : s.phase = PhaseCode.data)
    (hpq : s.progress ≤ q) (hq : q ≤ s.horizon)
    (hkept : (u.cfg, u.capture, u.nodes, u.errCode, u.errSample, u.atEnd) = s.keptAt q)
    (hu : (u.cfg, u.sink, u.firstReq) = (s.cfg, s.sink, s.firstReq))
    (htx : u.tx.toNat < s.cfg.n) (hnone : u.intPending = false) (hint : u.intEnd ≤ q)
    (hmono : s.lastLatch ≤ u.lastLatch) (hlt : u.lastLatch < stop) (hsq : stop ≤ q) :
    SessionInv (commitInterrupt stop u) ∧ SinkStep s (commitInterrupt stop u) := by
  have hstart : s.mark ≤ u.lastLatch + 1 := (h.dataMark hp).trans_le (Nat.succ_le_succ hmono)
  have hdst : PhaseCode.control0 ≤ PhaseCode.control1 ∧ PhaseCode.control0 ≠ PhaseCode.data := by
    decide
  constructor
  · exact h.completed (hp ▸ by decide) hdst.1 hpq hq hkept htx (Nat.succ_le_succ hsq)
      (hlt.le.trans hsq) hint (fun hd => absurd hd hdst.2)
      fun hpend => absurd (hnone.symm.trans hpend) nofun
  · exact .of_emit nofun (if_pos hp) hu hstart hlt (Nat.lt_succ_self stop)
      (frameFormat_interrupt u)

theorem SessionInv.data (hp : s.phase = PhaseCode.data)
    (hr : dataPhase s = some t) : SessionInv t ∧ SinkStep s t := by
  have hlast := h.latchBehind
  obtain ⟨hpend, rfl⟩ | ⟨-, v, q, latch, pending, stop, hpl, hlq, hq, hstop, rfl⟩ |
    ⟨hnone, q, latch, hpq, hq, hlatch, rfl⟩ := dataPhase_lockStep h.config h.lockStep hr
  · have hkept : (s.cfg, s.capture, s.nodes, s.errCode, s.errSample, s.atEnd) =
        s.keptAt s.progress := by rw [State.keptAt, ← h.lockStep]
    exact h.interrupt (u := { s with intPending := false }) hp le_rfl h.inCapture hkept rfl
      h.transmitter rfl h.intEndBehind le_rfl (h.pending hpend).2 h.intEndBehind
  · have hpq : s.progress ≤ q := (hpl.trans hlq).le
    obtain ⟨hsq, hafter⟩ := intEnd_after_latch (h.intEndBehind.trans hpq) hlq hstop
    rw [commitData_of_data]
    case hu => exact hp
    constructor
    · exact h.completed (hp ▸ by decide) (by decide) hpq hq rfl h.transmitter
        (Nat.succ_le_succ hlq.le) hlq.le hsq (fun _ => rfl) fun hpend => ⟨rfl, hafter hpend⟩
    · exact .of_emit nofun (if_pos hp) rfl le_rfl (h.markBehind.trans hpl)
        (Nat.lt_succ_self latch) (frameFormat_data s v)
  · have hmono : s.lastLatch ≤ latch := by omega
    have hlq : latch < q := by omega
    exact h.interrupt hp hpq.le hq rfl rfl h.transmitter hnone (h.intEndBehind.trans hpq.le) hmono
      hlq le_rfl

theorem SessionInv.control0 (hp : s.phase = PhaseCode.control0)
    (hr : control0Phase s = some t) : SessionInv t ∧ SinkStep s t := by
  obtain ⟨e, q, hpe, heq, hq, rfl⟩ := control0Phase_lockStep h.config h.lockStep hr
  constructor
  · exact h.completed_cell hp (by decide) (hpe.trans heq).le hq rfl rfl h.transmitter
      (Nat.succ_le_succ heq.le) heq.le
  · exact .of_emit nofun (if_pos hp) rfl le_rfl (h.markBehind.trans hpe) (Nat.lt_succ_self e)
      (frameFormat_control s _).1

theorem SessionInv.control1 (hp : s.phase = PhaseCode.control1)
    (hr : control1Phase s = some t) : SessionInv t ∧ SinkStep s t := by
  obtain ⟨e, q, hpe, heq, hq, rfl⟩ := control1Phase_lockStep h.config h.lockStep hr
  constructor
  · exact h.completed_cell hp (by decide) (hpe.trans heq).le hq rfl rfl h.transmitter le_rfl
      heq.le
  · exact .of_emit nofun (if_pos hp) rfl le_rfl (h.markBehind.trans hpe)
      (heq.trans (Nat.lt_succ_self q)) (frameFormat_control s _).2

end

/-! ## Every step -/

/-- Rule R209: HALTED is entered from any phase but FAULT, and keeps a pending interruption. -/
theorem SessionInv.halt {s : State} (h : SessionInv s) (h9 : s.phase ≠ PhaseCode.fault) :
    SessionInv (enterHalted s) :=
  have hfault : PhaseCode.halted ≠ PhaseCode.fault := by decide
  have hdata : PhaseCode.halted ≠ PhaseCode.data := by decide
  { h with
    legalPhase := (by decide : PhaseCode.halted ≤ PhaseCode.fault)
    faulted := ⟨fun hf => absurd hf hfault, fun hne => absurd (h.faulted.2 hne) h9⟩
    dataMark := fun hd => absurd hd hdata
    pending := fun hp => ⟨.inr rfl, (h.pending hp).2⟩ }

/-- A step from a state of the session invariant keeps it, and does to the sink what `SinkStep`
says. No legal phase is a reserved code, so `ERR_BAD_STATE` is not raised. -/
theorem SessionInv.step {s t : State} (h : SessionInv s) (hs : step s = .next t) :
    SessionInv t ∧ SinkStep s t := by
  refine step_elim (P := fun u => SessionInv u ∧ SinkStep s u) hs ?noStep ?halt ?badCode ?hold
    ?request ?arbitration ?priority ?reserved ?address ?data ?control0 ?control1
  case noStep => exact fun _ => ⟨{ h with }, .quiet rfl (.inl rfl)⟩
  case halt => exact fun _ _ h9 => ⟨h.halt h9, .quiet rfl (.inr (.inl rfl))⟩
  case badCode =>
    intro _ hcode
    exact absurd (BitVec.le_trans hcode h.legalPhase) (by decide)
  case hold => exact fun _ => ⟨{ h with endFinal := id }, .quiet rfl (.inl rfl)⟩
  case request => exact fun _ => h.request
  case arbitration => exact fun _ => h.arbitration
  case priority => exact fun _ => h.priority
  case reserved => exact fun _ => h.reserved
  case address => exact fun _ => h.address
  case data => exact fun _ => h.data
  case control0 => exact fun _ => h.control0
  case control1 => exact fun _ => h.control1

/-- Settles O56: each operation keeps the invariant, from the lock-step it starts in. -/
theorem stepKeepsSessionInvariant : Obligations.StepKeepsSessionInvariant :=
  fun _ _ h hs => (h.step hs).1

end Sys2Proof.Machine
end

section
/-! The sink invariant (spec/20_memory.md rule R69, spec/30_encoding.md rules R85 to R89) and the states
of a session: both invariants hold after a reset and are kept by steps and by the host. -/

namespace Sys2Proof.Machine

open Sys2Proof

/-! ## One more frame -/

theorem phaseOfFrames_append_one (ph : BitVec 4) (fs : List Frame) (f : Frame) :
    phaseOfFrames ph (fs ++ [f]) =
      (phaseOfFrames ph fs).bind fun ph' => phaseAfter ph' f.kind := by
  induction fs generalizing ph with
  | nil =>
    simp only [List.nil_append, phaseOfFrames, Option.bind_some]
    cases phaseAfter ph f.kind <;> rfl
  | cons g fs ih =>
    simp only [List.cons_append, phaseOfFrames]
    cases phaseAfter ph g.kind with
    | none => rfl
    | some ph' => exact ih ph'

/-- The quirk flag of a further Request frame depends on whether one came before it (rule R114). -/
theorem quirkMarked_append_one (seen : Bool) (fs : List Frame) (f : Frame) :
    quirkMarked seen (fs ++ [f]) = true ↔
      quirkMarked seen fs = true ∧ (f.kind = .request →
        f.flags = if seen = true ∨ ∃ g ∈ fs, g.kind = .request then Flag.requestQuirk
          else Flag.none) := by
  induction fs generalizing seen with
  | nil => by_cases hf : f.kind = .request <;> simp [quirkMarked, hf]
  | cons g fs ih =>
    by_cases hg : g.kind = .request <;> simp [quirkMarked, hg, ih, and_assoc]

theorem framesOrdered_append_one {fs : List Frame} {f : Frame} (h : framesOrdered fs)
    (hspan : f.startSample ≤ f.endSample) (hafter : ∀ g ∈ fs, g.endSample < f.startSample) :
    framesOrdered (fs ++ [f]) := by
  obtain ⟨hne, hord⟩ := h
  constructor
  · simpa [or_imp, forall_and] using ⟨hne, hspan⟩
  · simpa [List.pairwise_append] using ⟨hord, hafter⟩

/-! ## Steps -/

/-- In a phase that emits a frame, the frames so far lead to that phase (rule R89). -/
theorem SinkInv.phaseOfFrames_eq {s : State} (h : SinkInv s) {k : FrameKind} {ph : BitVec 4}
    (hk : phaseAfter s.phase k = some ph) :
    phaseOfFrames PhaseCode.request s.sink = some s.phase := by
  have hle := (phaseAfter_cycle hk).1
  obtain ⟨ph', hgrammar, heq | h8 | h9⟩ := h.grammar
  · rw [heq, hgrammar]
  · rw [h8] at hle
    exact absurd hle (by decide)
  · rw [h9] at hle
    exact absurd hle (by decide)

theorem SinkInv.step {s t : State} (h : SinkInv s) (hs : SinkStep s t) : SinkInv t := by
  cases hs with
  | quiet kept phase =>
    simp only [Prod.mk.injEq] at kept
    obtain ⟨hcfg, hsink, hmark, hfirst⟩ := kept
    obtain ⟨ph, hgrammar, hph⟩ := h.grammar
    exact
      { ordered := hsink ▸ h.ordered
        behindMark := by rw [hsink, hmark]; exact h.behindMark
        formatted := by rw [hsink, hcfg]; exact h.formatted
        grammar := by
          refine ⟨ph, hsink ▸ hgrammar, ?_⟩
          obtain hsame | hout := phase
          · rwa [hsame]
          · exact .inr hout
        firstRequest := by rw [hfirst, hsink]; exact h.firstRequest
        quirk := hsink ▸ h.quirk }
  | emits f cfg sink firstReq phase start span ends format quirk =>
    have hafter : ∀ g ∈ s.sink, g.endSample < f.startSample :=
      fun g hg => (h.behindMark g hg).trans_le start
    have hseen : s.firstReq = false ↔ ∃ g ∈ s.sink, g.kind = .request := by
      rw [← Bool.not_eq_true, h.firstRequest]
      simp
    exact
      { ordered := sink ▸ framesOrdered_append_one h.ordered span hafter
        behindMark := by
          rw [sink, List.forall_mem_append, List.forall_mem_singleton]
          exact ⟨fun g hg => (hafter g hg).trans (span.trans_lt ends), ends⟩
        formatted := by
          rw [sink, cfg, List.forall_mem_append, List.forall_mem_singleton]
          exact ⟨h.formatted, format⟩
        grammar := by
          refine ⟨t.phase, ?_, .inl rfl⟩
          rw [sink, phaseOfFrames_append_one, h.phaseOfFrames_eq phase, Option.bind_some, phase]
        firstRequest := by
          rw [sink, firstReq, List.forall_mem_append, List.forall_mem_singleton, Bool.and_eq_true,
            h.firstRequest, bne_iff_ne]
        quirk := by
          rw [sink, quirkMarked_append_one]
          refine ⟨h.quirk, fun hk => (quirk hk).trans ?_⟩
          simp only [← hseen]
          cases hf : s.firstReq <;> simp [requestFlags, hf] }

/-! ## Reset and the host -/

section
variable {s : State} {cfg : Config} {cap : Capture}

theorem sessionInv_resetWith (hw : cfg.wf = true) (ha : cap.admittedFor cfg = true)
    (stop : Bool) : SessionInv (resetWith cfg cap stop) := by
  have hl : LockStep (resetRegisters cfg cap stop) 0 := rfl
  have hprog : (resetRegisters cfg cap stop).progress = 0 := hl.progress hw
  have hfault : PhaseCode.request ≠ PhaseCode.fault := by decide
  have registers : SessionInv (resetRegisters cfg cap stop) :=
    { config := hw
      capture := ha
      lockStep := hprog.symm ▸ hl
      inCapture := hprog.trans_le (Nat.zero_le _)
      legalPhase := (by decide : PhaseCode.request ≤ PhaseCode.fault)
      faulted := ⟨fun hf => absurd hf hfault, fun hne => absurd rfl hne⟩
      noFault := fun _ => rfl
      transmitter := (Config.n_bounds_of_wf hw).1
      markBehind := Nat.zero_le _
      latchBehind := Nat.zero_le _
      intEndBehind := Nat.zero_le _
      errBehind := Nat.zero_le _
      dataMark := fun hd => absurd hd (show PhaseCode.request ≠ PhaseCode.data by decide)
      pending := nofun
      endFinal := nofun }
  unfold resetWith
  split
  · exact
      { registers with
        legalPhase := BitVec.le_refl PhaseCode.fault
        faulted := ⟨fun _ => nofun, fun _ => rfl⟩
        noFault := fun _ => rfl
        dataMark := fun hd => absurd hd (show PhaseCode.fault ≠ PhaseCode.data by decide)
        pending := nofun }
  · exact registers

theorem sinkInv_resetWith (cfg : Config) (cap : Capture) (stop : Bool) :
    SinkInv (resetWith cfg cap stop) := by
  have registers : SinkInv (resetRegisters cfg cap stop) :=
    { ordered := ⟨nofun, .nil⟩
      behindMark := nofun
      formatted := nofun
      grammar := ⟨_, rfl, .inl rfl⟩
      firstRequest := ⟨fun _ => nofun, fun _ => rfl⟩
      quirk := rfl }
  unfold resetWith
  split
  · exact { registers with grammar := ⟨_, rfl, .inr (.inr rfl)⟩ }
  · exact registers

/-- A capture admitted for the same configuration that knows no fewer samples, and is final if the one
before was. -/
theorem SessionInv.withCapture (h : SessionInv s) (ha : cap.admittedFor s.cfg = true)
    (hh : s.horizon ≤ cap.horizon) (hf : s.capture.final = true → cap.final = true) :
    SessionInv (s.withCapture cap) :=
  { h with
    capture := ha
    inCapture := h.inCapture.trans hh
    endFinal := fun he => hf (h.endFinal he) }

theorem SinkInv.withCapture (h : SinkInv s) (cap : Capture) : SinkInv (s.withCapture cap) :=
  { h with }

theorem hostSetStop_keeps (h : SessionInv s) (hk : SinkInv s) (b : Bool) :
    SessionInv (hostSetStop b s) ∧ SinkInv (hostSetStop b s) :=
  ⟨{ h with }, { hk with }⟩

end

/-- Settles O59, by induction on how the session came to the state. -/
theorem everySessionStateMeetsInvariants : Obligations.EverySessionStateMeetsInvariants := by
  intro s hs
  induction hs with
  | reset cfg cap before s hr =>
    obtain ⟨hw, ha, rfl⟩ := hostReset_eq_next.1 hr
    exact ⟨sessionInv_resetWith hw ha _, sinkInv_resetWith cfg cap _⟩
  | step s t _ hs ih =>
    obtain ⟨h, hk⟩ := ih
    obtain ⟨ht, hsink⟩ := h.step hs
    exact ⟨ht, hk.step hsink⟩
  | extend horizon' more s t _ he ih =>
    obtain ⟨h, hk⟩ := ih
    obtain ⟨hm, rfl⟩ := hostExtend_eq_next.1 he
    obtain ⟨-, hlt, -⟩ := (Capture.mayExtend_iff s.capture horizon' more).1 hm
    exact ⟨h.withCapture (Capture.extend_admittedFor h.capture hm) hlt.le id, hk.withCapture _⟩
  | final s t _ hf ih =>
    obtain ⟨h, hk⟩ := ih
    obtain ⟨-, rfl⟩ := hostSetFinal_eq_next.1 hf
    exact ⟨h.withCapture (cap := { s.capture with final := true }) h.capture le_rfl fun _ => rfl,
      hk.withCapture _⟩
  | stop b s _ ih => exact hostSetStop_keeps ih.1 ih.2 b

end Sys2Proof.Machine
end

section
/-! Reading the capture (spec/20_memory.md rules R51 to R63): the smallest next edge, levels and counts,
the bus-wide advance, and the operations that hold for want of a reference-clock edge. -/

namespace Sys2Proof.Machine

open Sys2Proof

/-! ## The next edge of a well-formed channel -/

section
variable {h p t : Nat} {ch : Channel} (hw : ch.wf h = true)
include hw

theorem nextEdge_eq_none_iff : nextEdge h ch p = none ↔ ∀ u ∈ ch.trans, u ≤ p := by
  constructor
  · intro hnone u hu
    by_contra hpu
    obtain ⟨d, hd⟩ := nextEdge_isSome hw hu (not_le.1 hpu)
    exact absurd (hnone.symm.trans hd) nofun
  · intro hall
    refine Option.eq_none_iff_forall_ne_some.2 fun d hd => ?_
    obtain ⟨hmem, hpd, -⟩ := nextEdge_some hd
    exact absurd (hall d hmem) (not_le.2 hpd)

/-- The least transition after `p` is unique, so the one `NextEdge` answers is every such one. -/
theorem nextEdge_eq_some_iff :
    nextEdge h ch p = some t ↔ t ∈ ch.trans ∧ p < t ∧ ∀ u ∈ ch.trans, p < u → t ≤ u := by
  constructor
  · intro he
    obtain ⟨hmem, hpt, -⟩ := nextEdge_some he
    exact ⟨hmem, hpt, nextEdge_least hw he⟩
  · rintro ⟨hmem, hpt, hleast⟩
    obtain ⟨d, hd⟩ := nextEdge_isSome hw hmem hpt
    obtain ⟨hdmem, hpd, -⟩ := nextEdge_some hd
    have heq : d = t := le_antisymm (nextEdge_least hw hd t hmem hpt) (hleast d hdmem hpd)
    rw [hd, heq]

end

/-- Settles O40: `NextEdge` answers the one least transition after the position, if there is any. -/
theorem nextEdgeIsTheSmallest : Obligations.NextEdgeIsTheSmallest :=
  fun _ _ _ hw => ⟨fun _ => nextEdge_eq_some_iff hw, nextEdge_eq_none_iff hw⟩

/-! ## Levels and counts -/

/-- The transitions up to `q` are those up to `p` and those in `(p, q]` (rules R52 and R54). -/
theorem countP_le_eq_add_countIn (ch : Channel) {p q : Nat} (hpq : p ≤ q) :
    ch.trans.countP (fun t => decide (t ≤ q)) =
      ch.trans.countP (fun t => decide (t ≤ p)) + ch.countIn p q := by
  unfold Channel.countIn
  induction ch.trans with
  | nil => rfl
  | cons t rest ih =>
    simp only [List.countP_cons, ih, Bool.and_eq_true, decide_eq_true_eq]
    split_ifs <;> omega

theorem countIn_add_countIn (ch : Channel) {p q r : Nat} (hpq : p ≤ q) (hqr : q ≤ r) :
    ch.countIn p r = ch.countIn p q + ch.countIn q r := by
  have hq := countP_le_eq_add_countIn ch hpq
  have hr := countP_le_eq_add_countIn ch hqr
  have hpr := countP_le_eq_add_countIn ch (hpq.trans hqr)
  omega

theorem odd_add_eq_xor (a b : Nat) :
    ((a + b) % 2 == 1) = xor (a % 2 == 1) (b % 2 == 1) := by
  rcases Nat.mod_two_eq_zero_or_one a with ha | ha <;>
    rcases Nat.mod_two_eq_zero_or_one b with hb | hb <;> simp [Nat.add_mod, ha, hb]

theorem levelAt_eq_xor_countIn (ch : Channel) {p q : Nat} (hpq : p ≤ q) :
    ch.levelAt q = xor (ch.levelAt p) (ch.countIn p q % 2 == 1) := by
  rw [Channel.levelAt, Channel.levelAt, countP_le_eq_add_countIn ch hpq, odd_add_eq_xor,
    Bool.xor_assoc]

/-- Settles O41: both halves count the transitions up to a sample in two parts. -/
theorem levelsToggleOncePerTransition : Obligations.LevelsToggleOncePerTransition :=
  fun ch _ _ _ hpq hqr => ⟨levelAt_eq_xor_countIn ch hpq, countIn_add_countIn ch hpq hqr⟩

/-! ## The bus-wide advance -/

/-- The loop of `advance_all_to` answers only if no cursor has to go beyond the horizon (rules R59 and
R62). -/
theorem advanceNodes_le_horizon {s : State} {target i : Nat} {nds : List NodeCursors}
    {r : List NodeCursors × Bool} (ha : advanceNodes s target i nds = some r)
    (hbehind : ∃ nd ∈ nds, nd.clkPos < target ∨ nd.datPos < target) : target ≤ s.horizon := by
  induction nds generalizing i r with
  | nil =>
    obtain ⟨nd, hnd, -⟩ := hbehind
    cases hnd
  | cons nd rest ih =>
    simp only [advanceNodes, Option.bind_eq_bind, Option.bind_eq_some_iff, Prod.exists] at ha
    obtain ⟨c, mc, hclk, d, md, hdat, r', more, hrest, -⟩ := ha
    obtain ⟨-, -, hclk⟩ := advanceTo_some hclk
    obtain ⟨-, -, hdat⟩ := advanceTo_some hdat
    obtain ⟨x, hx, hlt⟩ := hbehind
    obtain rfl | hx := List.mem_cons.1 hx
    · omega
    · exact ih hrest ⟨x, hx, hlt⟩

theorem advanceAllTo_eq_none {s : State} {target : Nat} (ht : s.horizon < target)
    (hbehind : ∃ nd ∈ s.nodes, nd.clkPos < target ∨ nd.datPos < target) :
    advanceAllTo target s = none := by
  have hnodes : advanceNodes s target 0 s.nodes = none :=
    Option.eq_none_iff_forall_ne_some.2 fun _ hr =>
      absurd (advanceNodes_le_horizon hr hbehind) (not_le.2 ht)
  rw [advanceAllTo, hnodes]
  rfl

theorem advanceAllTo_of_le {s : State} {target : Nat} (ht : target ≤ s.horizon) :
    ∃ b, advanceAllTo target s = some (s.setNodes (s.nodes.map (movedTo target)), b) := by
  obtain ⟨⟨ns, b⟩, hn⟩ := advanceNodes_isSome ht 0 s.nodes
  obtain ⟨rfl, -⟩ := advanceNodes_some hn
  exact ⟨b, by simp [advanceAllTo, hn]⟩

/-- Settles O42: within the horizon every cursor can reach the target, and beyond it the first one
behind the target holds the whole advance. -/
theorem advanceAllMovesEveryCursor : Obligations.AdvanceAllMovesEveryCursor := by
  intro s target
  constructor
  · intro ht
    obtain ⟨b, hb⟩ := advanceAllTo_of_le ht
    exact ⟨b, hb, (advanceAllTo_some hb).2⟩
  · exact advanceAllTo_eq_none

/-! ## Operations without a reference-clock edge -/

section
variable {s : State} {p : Nat} (hw : s.cfg.wf = true) (hl : LockStep s p)
  (hnone : refEdge s p = none)

include hw hl hnone

/-- REQUEST peeks at the edge that ends its window (rule R116). -/
theorem requestPhase_clock_none : requestPhase s = none := by
  simp [requestPhase, peekClkEdge_lockStep hw hl, hnone]

theorem arbiterCell_clock_none : arbiterCell s = none := by
  simp [arbiterCell, clkEdge_lockStep_none hw hl hnone]

theorem controlCell_clock_none : controlCell s = none := by
  simp [controlCell, clkEdge_lockStep_none hw hl hnone]

theorem reservedPhase_clock_none : reservedPhase s = none := by
  simp [reservedPhase, clkEdge_lockStep_none hw hl hnone]

theorem addressPhase_clock_none : addressPhase s = none :=
  addressLoop_none hw hl (by decide) (.inl hnone)

theorem dataPhase_clock_none (hpend : s.intPending = false) : dataPhase s = none := by
  rw [dataPhase, hpend]
  exact dataLoop_none hw hl (.inl hnone)

end

/-- Settles O11: each operation begins with a reference-clock edge, so it answers `none`, and its step
ends in `finishStep s none`. -/
theorem operationsHoldWithoutClockEdge : Obligations.OperationsHoldWithoutClockEdge := by
  rintro s p i hw hl hnone (rfl | rfl | rfl | rfl | rfl | ⟨rfl, hpend⟩ | rfl | rfl)
  · exact congrArg (finishStep s) (requestPhase_clock_none hw hl hnone)
  · have hphase : arbitrationPhase s = none := by
      simp [arbitrationPhase, arbiterCell_clock_none hw hl hnone]
    exact congrArg (finishStep s) hphase
  · have hphase : priorityPhase s = none := by
      simp [priorityPhase, arbiterCell_clock_none hw hl hnone]
    exact congrArg (finishStep s) hphase
  · exact congrArg (finishStep s) (reservedPhase_clock_none hw hl hnone)
  · exact congrArg (finishStep s) (addressPhase_clock_none hw hl hnone)
  · exact congrArg (finishStep s) (dataPhase_clock_none hw hl hnone hpend)
  · have hphase : control0Phase s = none := by
      simp [control0Phase, controlCell_clock_none hw hl hnone]
    exact congrArg (finishStep s) hphase
  · have hphase : control1Phase s = none := by
      simp [control1Phase, controlCell_clock_none hw hl hnone]
    exact congrArg (finishStep s) hphase

end Sys2Proof.Machine
end

section
/-! What the host may do to the capture between steps (spec/20_memory.md rule R56, spec/60_exceptions.md
rule R215), what it may not, and that both invariants are kept by steps and by the host. -/

namespace Sys2Proof.Machine

open Sys2Proof

/-! ## Both invariants are kept -/

/-- Settles O57: a step from a state of the session invariant does to the sink what `SinkStep` says,
and that keeps the sink invariant. -/
theorem stepKeepsSinkInvariant : Obligations.StepKeepsSinkInvariant :=
  fun _ _ h hk hs => hk.step (h.step hs).2

section
variable {s t : State} {h : Nat} {more : List (List Nat)}

theorem hostExtend_keeps (hi : SessionInv s) (hk : SinkInv s) (he : hostExtend h more s = .next t) :
    SessionInv t ∧ SinkInv t := by
  obtain ⟨hm, rfl⟩ := hostExtend_eq_next.1 he
  obtain ⟨-, hlt, -⟩ := (Capture.mayExtend_iff s.capture h more).1 hm
  exact ⟨hi.withCapture (Capture.extend_admittedFor hi.capture hm) hlt.le id, hk.withCapture _⟩

theorem hostSetFinal_keeps (hi : SessionInv s) (hk : SinkInv s) (hf : hostSetFinal s = .next t) :
    SessionInv t ∧ SinkInv t := by
  obtain ⟨-, rfl⟩ := hostSetFinal_eq_next.1 hf
  exact ⟨hi.withCapture (cap := { s.capture with final := true }) hi.capture le_rfl fun _ => rfl,
    hk.withCapture _⟩

end

/-- Settles O58: a host action changes the capture to one that knows no fewer samples, or `stop`. -/
theorem hostActionsKeepInvariants : Obligations.HostActionsKeepInvariants :=
  fun _ hi hk => ⟨fun _ _ _ => hostExtend_keeps hi hk, fun _ => hostSetFinal_keeps hi hk,
    hostSetStop_keeps hi hk⟩

/-! ## Accepted changes of the capture -/

section
variable {cap : Capture} {h : Nat} {more : List (List Nat)}

theorem Capture.extend_signals_getElem? {j : Nat} {ch : Channel} {ts : List Nat}
    (hch : cap.signals[j]? = some ch) (hts : more[j]? = some ts) :
    (cap.extend h more).signals[j]? = some (ch.append ts) := by
  simp [Capture.extend, List.getElem?_zipWith, hch, hts]

/-- An extension the host may make is one in the sense of rule R240. -/
theorem Capture.extends_extend (hm : cap.mayExtend h more = true) :
    Extends cap (cap.extend h more) := by
  obtain ⟨-, hlt, -, hlen, hmore⟩ := (Capture.mayExtend_iff cap h more).1 hm
  exact ⟨more, hlt.le, hlen, fun ts hts t ht => ((hmore ts hts).2 t ht).1, rfl⟩

/-- `final` says nothing about the samples known: every signal is extended by no transition. -/
theorem Capture.extends_withFinal (cap : Capture) (b : Bool) :
    Extends cap { cap with final := b } := by
  refine ⟨cap.signals.map fun _ => [], le_rfl, by simp, by simp, ?_⟩
  simp only [List.zipWith_map_right, List.zipWith_self, Channel.append, List.append_nil,
    List.map_id']

end

theorem hostExtend_accepted {s t : State} {h : Nat} {more : List (List Nat)}
    (he : hostExtend h more s = .next t) :
    t = { s with capture := t.capture } ∧ Extends s.capture t.capture ∧
      s.capture.horizon < h ∧ t.capture.horizon = h ∧
      s.capture.final = false ∧ t.capture.final = false ∧
      t.capture.signals.length = s.capture.signals.length ∧
      ∀ (j : Nat) (ch : Channel), s.capture.signals[j]? = some ch →
        ∃ ts, more[j]? = some ts ∧
          t.capture.signals[j]? = some { init := ch.init, trans := ch.trans ++ ts } := by
  obtain ⟨hm, rfl⟩ := hostExtend_eq_next.1 he
  obtain ⟨hfinal, hlt, -, hlen, -⟩ := (Capture.mayExtend_iff s.capture h more).1 hm
  refine ⟨rfl, Capture.extends_extend hm, hlt, rfl, hfinal, hfinal,
    by simp [Capture.extend, hlen], fun j ch hch => ?_⟩
  obtain ⟨hj, -⟩ := List.getElem?_eq_some_iff.1 hch
  have hts : more[j]? = some (more[j]'(hlen ▸ hj)) := List.getElem?_eq_getElem _
  exact ⟨_, hts, Capture.extend_signals_getElem? hch hts⟩

/-- Settles O52: what is admitted is what `mayExtend` tests, and an accepted change is
`Capture.extend` or the flag alone. -/
theorem acceptedHostActionsExtendTheCapture : Obligations.AcceptedHostActionsExtendTheCapture := by
  intro s t h more
  refine ⟨?extendAccepted, hostExtend_accepted, ?finalAccepted, ?finalEffect⟩
  case extendAccepted =>
    intro hfinal hlt hmax hlen hmore
    have hm := (Capture.mayExtend_iff s.capture h more).2 ⟨hfinal, hlt, hmax, hlen, hmore⟩
    exact ⟨_, hostExtend_eq_next.2 ⟨hm, rfl⟩⟩
  case finalAccepted => exact fun hfinal => ⟨_, hostSetFinal_eq_next.2 ⟨hfinal, rfl⟩⟩
  case finalEffect =>
    intro hf
    obtain ⟨hfinal, rfl⟩ := hostSetFinal_eq_next.1 hf
    exact ⟨hfinal, rfl, Capture.extends_withFinal s.capture true⟩

/-! ## Refused actions -/

theorem hostExtend_refused {s : State} {h : Nat} {more : List (List Nat)}
    (hm : ¬ s.capture.mayExtend h more = true) :
    hostExtend h more s = .refused .captureChangeNotAdmitted :=
  if_neg hm

/-- Settles O51: each refused extension breaks one of the conditions of `Capture.mayExtend_iff`. -/
theorem hostActionsRefuseWhatIsNotAdmitted : Obligations.HostActionsRefuseWhatIsNotAdmitted := by
  intro s cfg cap h more
  refine ⟨fun hw => if_pos hw, ?capture, ?extension, fun hfinal => if_pos hfinal⟩
  case capture =>
    intro hw ha
    rw [hostReset, if_neg (by simp [hw]), if_pos ha]
  case extension =>
    refine fun hbad => hostExtend_refused fun hm => ?_
    obtain ⟨hfinal, hlt, hmax, hlen, hmore⟩ := (Capture.mayExtend_iff s.capture h more).1 hm
    obtain hf | hle | hbig | hne | ⟨ts, hts, hrise⟩ | ⟨ts, hts, u, hu, hout⟩ := hbad
    · exact absurd (hfinal.symm.trans hf) nofun
    · exact absurd hle (not_le.2 hlt)
    · exact absurd hbig (not_lt.2 hmax)
    · exact hne hlen
    · exact hrise (hmore ts hts).1
    · obtain ⟨hlow, hhigh⟩ := (hmore ts hts).2 u hu
      exact hout.elim (not_le.2 hlow) (not_lt.2 hhigh)

end Sys2Proof.Machine
end

section
/-! The encoding of operations, frames and addresses (spec/30_encoding.md rules R80 to R92): the
decoder against the encoder, the fields of the 268-bit frame word, the node vector, and the value of
an address. -/

namespace Sys2Proof.Machine

open Sys2Proof

/-! ## Operations and their codes -/

/-- Rule R103: the per-constructor round trips, put together. -/
theorem roundTrip_of_wf {i : Instr} (h : i.wf = true) :
    decode (encodePhase i) = i ∧ ∀ rest, decodeBytes (encode i ++ rest) = .ok (i, rest) := by
  cases i with
  | request => exact Laws.CodeRoundTrip.request h
  | arbitration => exact Laws.CodeRoundTrip.arbitration h
  | priority => exact Laws.CodeRoundTrip.priority h
  | reserved => exact Laws.CodeRoundTrip.reserved h
  | address => exact Laws.CodeRoundTrip.address h
  | data => exact Laws.CodeRoundTrip.data h
  | control0 => exact Laws.CodeRoundTrip.control0 h
  | control1 => exact Laws.CodeRoundTrip.control1 h
  | halted => exact Laws.CodeRoundTrip.halted h
  | fault => exact Laws.CodeRoundTrip.fault h
  | reservedPhase101x code => exact Laws.CodeRoundTrip.reservedPhase101x code h
  | reservedPhase11xx code => exact Laws.CodeRoundTrip.reservedPhase11xx code h

theorem decode_encodePhase {i : Instr} (h : i.wf = true) : decode (encodePhase i) = i :=
  (roundTrip_of_wf h).1

/-- What a decoded byte string was: one byte with a zero high nibble, then the rest. -/
theorem decodeBytes_eq_ok {bs rest : List Byte} {i : Instr} (h : decodeBytes bs = .ok (i, rest)) :
    ∃ c : BitVec 4, bs = c.setWidth 8 :: rest ∧ i = decode c := by
  cases bs with
  | nil => exact absurd h nofun
  | cons b tail =>
    by_cases hb : b.extractLsb' 4 4 = 0#4
    · have hbyte := byte_of_low_nibble b hb
      rw [hbyte, decodeBytes_code, Except.ok.injEq, Prod.mk.injEq] at h
      obtain ⟨rfl, rfl⟩ := h
      exact ⟨_, congrArg (· :: tail) hbyte, rfl⟩
    · rw [decodeBytes, if_neg hb] at h
      exact absurd h nofun

/-- Settles O1: a decoded byte holds the code that its operation is encoded to, and a well-formed
operation is decoded from its own byte. -/
theorem decoderAcceptsExactlyTheEncodings : Obligations.DecoderAcceptsExactlyTheEncodings := by
  intro bs rest i
  constructor
  · intro h
    obtain ⟨c, rfl, rfl⟩ := decodeBytes_eq_ok h
    obtain ⟨hcode, hwf⟩ := code_of_decode c
    refine ⟨hwf, ?_⟩
    rw [encode, hcode, List.singleton_append]
  · rintro ⟨hwf, rfl⟩
    exact (roundTrip_of_wf hwf).2 rest

/-- Settles O2: each code is the one its operation encodes to. -/
theorem phaseCodesSelectOperations : Obligations.PhaseCodesSelectOperations :=
  ⟨decode_encodePhase (i := .request) rfl, decode_encodePhase (i := .priority) rfl,
    decode_encodePhase (i := .data) rfl, decode_encodePhase (i := .control1) rfl,
    decode_encodePhase (i := .fault) rfl,
    decode_encodePhase (i := .reservedPhase101x 0b1011#4) rfl⟩

/-! ## The reserved phase codes -/

/-- Rule R81: codes 10 to 15 select one of the two reserved rows. -/
theorem decode_of_ten_le {c : BitVec 4} (h : 10#4 ≤ c) :
    decode c = .reservedPhase101x c ∨ decode c = .reservedPhase11xx c := by
  revert c
  decide

/-- Rules R81 and R203: the one fault of both reserved rows, and all that it changes. -/
theorem badState_eq (s : State) :
    badState s = .next
      { s with
        phase := 0b1001#4
        errCode := .badState
        errSample := s.clkPos (s.cfg.n - 1)
        outcome := .fault } := rfl

/-- Settles O7: both rows raise that fault, for any code they carry. -/
theorem reservedCodesFault : Obligations.ReservedCodesFault :=
  fun s _ => ⟨fun _ => badState_eq s, fun _ => badState_eq s⟩

/-- Settles O8: with `stop` low the step runs a reserved row, and either one raises that fault. -/
theorem stepOnReservedCodeFaults : Obligations.StepOnReservedCodeFaults := by
  intro s hcode hstop
  rw [step_of_not_stop (.inl hstop)]
  obtain h | h := decode_of_ten_le hcode
  · rw [h]
    exact badState_eq s
  · rw [h]
    exact badState_eq s

/-! ## The frame word -/

/-- Rule R84: no reserved code stands for a kind. -/
theorem FrameKind.ofCode_of_nine_le {c : BitVec 4} (h : 9#4 ≤ c) : FrameKind.ofCode c = none := by
  revert c
  decide

theorem FrameKind.ofCode_code (k : FrameKind) : FrameKind.ofCode k.code = some k := by
  cases k <;> rfl

section
variable (f : Frame)

/-! Rule R82: each field is read back by dropping the fields below it. -/

theorem Frame.word_kind : f.word.extractLsb' 0 4 = f.kind.code :=
  BitVec.extractLsb'_append_eq_right

theorem Frame.word_flags : f.word.extractLsb' 4 8 = f.flags := by
  unfold Frame.word
  rw [BitVec.extractLsb'_append_eq_of_le (by decide)]
  exact BitVec.extractLsb'_append_eq_right

theorem Frame.word_startSample : f.word.extractLsb' 12 64 = BitVec.ofNat 64 f.startSample := by
  unfold Frame.word
  iterate 2 rw [BitVec.extractLsb'_append_eq_of_le (by decide)]
  exact BitVec.extractLsb'_append_eq_right

theorem Frame.word_endSample : f.word.extractLsb' 76 64 = BitVec.ofNat 64 f.endSample := by
  unfold Frame.word
  iterate 3 rw [BitVec.extractLsb'_append_eq_of_le (by decide)]
  exact BitVec.extractLsb'_append_eq_right

theorem Frame.word_valuePrimary : f.word.extractLsb' 140 64 = f.valuePrimary := by
  unfold Frame.word
  iterate 4 rw [BitVec.extractLsb'_append_eq_of_le (by decide)]
  exact BitVec.extractLsb'_append_eq_right

theorem Frame.word_valueSecondary : f.word.extractLsb' 204 64 = f.valueSecondary := by
  unfold Frame.word
  iterate 4 rw [BitVec.extractLsb'_append_eq_of_le (by decide)]
  exact BitVec.extractLsb'_append_eq_left

end

section
variable {f : Frame}

/-- A sample that rule R10 admits fits its field. -/
theorem Frame.word_startSample_toNat (h : f.startSample < 2 ^ 64) :
    (f.word.extractLsb' 12 64).toNat = f.startSample := by
  rw [Frame.word_startSample, BitVec.toNat_ofNat, Nat.mod_eq_of_lt h]

theorem Frame.word_endSample_toNat (h : f.endSample < 2 ^ 64) :
    (f.word.extractLsb' 76 64).toNat = f.endSample := by
  rw [Frame.word_endSample, BitVec.toNat_ofNat, Nat.mod_eq_of_lt h]

theorem Frame.ofWord_word (hstart : f.startSample < 2 ^ 64) (hend : f.endSample < 2 ^ 64) :
    Frame.ofWord f.word = some f := by
  simp only [Frame.ofWord, Frame.word_kind, FrameKind.ofCode_code, Frame.word_flags,
    Frame.word_startSample_toNat hstart, Frame.word_endSample_toNat hend,
    Frame.word_valuePrimary, Frame.word_valueSecondary]

end

theorem Frame.ofWord_of_nine_le {w : BitVec 268} (h : 9#4 ≤ w.extractLsb' 0 4) :
    Frame.ofWord w = none := by
  rw [Frame.ofWord, FrameKind.ofCode_of_nine_le h]

/-- Rule R83, as its table. -/
theorem FrameKind.code_mem (k : FrameKind) :
    (k, k.code) ∈
      [(.request, 0#4), (.arbitration, 1#4), (.priorityArbitration, 2#4), (.reservedBit, 3#4),
        (.address, 4#4), (.data, 5#4), (.interrupt, 6#4), (.controlBit0, 7#4),
        (.controlBit1, 8#4)] := by
  cases k <;> decide

/-- Settles O3: the fields one by one, and the code of the kind for both readings back. -/
theorem frameWordRoundTrip : Obligations.FrameWordRoundTrip := by
  refine ⟨fun f hstart hend => ⟨?_, f.word_flags, Frame.word_startSample_toNat hstart,
    Frame.word_endSample_toNat hend, f.word_valuePrimary, f.word_valueSecondary,
    Frame.ofWord_word hstart hend⟩, fun w => Frame.ofWord_of_nine_le⟩
  rw [f.word_kind]
  exact f.kind.code_mem

/-! ## The node vector -/

/-- Rule R87: every node of the list has its bit set, as far as the word reaches. -/
theorem nodeVector_bit_of_mem {ms : List Nat} {i : Nat} (hi : i ∈ ms) (hlt : 32 + i < 64) :
    (nodeVector ms).getLsbD (32 + i) = true := by
  induction ms with
  | nil => exact absurd hi List.not_mem_nil
  | cons m ms ih =>
    rw [nodeVector, BitVec.getLsbD_or, Bool.or_eq_true]
    obtain rfl | htail := List.mem_cons.1 hi
    · exact .inl (by simp [hlt])
    · exact .inr (ih htail)

/-- Settles O25: a bit set stands for a node, and a node's bit within the word is set. -/
theorem nodeVectorBits : Obligations.NodeVectorBits := by
  intro ms j hj
  constructor
  · exact nodeVector_bit
  · rintro ⟨i, hi, rfl⟩
    exact nodeVector_bit_of_mem hi hj

/-! ## The value of an address -/

theorem msbValue_append (as bs : List Level) :
    msbValue (as ++ bs) = msbValue as * 2 ^ bs.length + msbValue bs := by
  induction as with
  | nil => simp [msbValue]
  | cons a as ih =>
    simp only [List.cons_append, msbValue, ih, List.length_append, Nat.shiftLeft_eq, pow_add]
    ring

/-- Bits [31:28] of a value, as a quotient. -/
theorem top_nibble_toNat (v : Nat) :
    ((BitVec.ofNat 64 v).extractLsb' 28 4).toNat = v % 2 ^ 64 / 2 ^ 28 % 16 := by
  rw [BitVec.extractLsb'_toNat, BitVec.toNat_ofNat, Nat.shiftRight_eq_div_pow]

/-- Rule R102: 8 bits leave the nibble 0. -/
theorem top_nibble_of_short {bits : List Level} (h : bits.length = 8) :
    (BitVec.ofNat 64 (msbValue bits)).extractLsb' 28 4 = 0#4 := by
  have hlt := msbValue_lt bits
  rw [h] at hlt
  refine BitVec.eq_of_toNat_eq ?_
  rw [top_nibble_toNat, BitVec.toNat_ofNat]
  omega

/-- Rules R91 and R102: the four marker bits of a long address are its top nibble. -/
theorem top_nibble_of_long {bits : List Level} (h : bits.length = 32)
    (hmark : bits.take 4 = [HIGH, HIGH, HIGH, HIGH]) :
    (BitVec.ofNat 64 (msbValue bits)).extractLsb' 28 4 = 0xF#4 := by
  have hlen : (bits.drop 4).length = 28 := by rw [List.length_drop, h]
  have hlow := msbValue_lt (bits.drop 4)
  have hmarker : msbValue [HIGH, HIGH, HIGH, HIGH] = 15 := rfl
  have hvalue :=
    calc msbValue bits = msbValue (bits.take 4 ++ bits.drop 4) := by rw [List.take_append_drop]
      _ = 15 * 2 ^ 28 + msbValue (bits.drop 4) := by rw [msbValue_append, hmark, hmarker, hlen]
  rw [hlen] at hlow
  refine BitVec.eq_of_toNat_eq ?_
  rw [top_nibble_toNat, BitVec.toNat_ofNat]
  omega

/-- Rule R162: a long address begins with the marker. -/
theorem marker_of_addressWidth {bits : List Level} (h : addressWidth bits = 32) :
    bits.take 4 = [HIGH, HIGH, HIGH, HIGH] := by
  unfold addressWidth at h
  split at h
  · next hmark => exact hmark.2
  · exact absurd h (by decide)

/-- Settles O31: by the two widths an address may have. -/
theorem addressTopNibbleTellsItsWidth : Obligations.AddressTopNibbleTellsItsWidth := by
  intro bits hlen
  refine ⟨msbValue_lt bits, ?_⟩
  obtain hw | hw := addressWidth_eq bits
  · rw [top_nibble_of_short (hlen.trans hw), hlen, hw]
    decide
  · rw [top_nibble_of_long (hlen.trans hw) (marker_of_addressWidth hw)]
    exact iff_of_true rfl (hlen.trans hw)

end Sys2Proof.Machine
end

section
/-! REQUEST (spec/40_request.md rules R110 to R116): the fall samples, the requesting vector, and the
whole operation in lock-step. -/

namespace Sys2Proof.Machine

open Sys2Proof

/-! ## Fall samples and requesting nodes -/

section
variable (s : State) (p e : Nat)

/-- Rule R111: to participate is to have a transition in the window. -/
theorem participates_iff (i : Nat) :
    participates s p e i = true ↔ ∃ t ∈ (s.dat i).trans, p < t ∧ t ≤ e := by
  rw [participates, decide_eq_true_eq, countIn_pos_iff]

/-- Rule R112 for the master. -/
theorem isRequesting_zero_iff :
    isRequesting s p e 0 = true ↔ ∃ t ∈ (s.dat 0).trans, p < t ∧ t ≤ e :=
  participates_iff s p e 0

/-- Rule R112 for a member, whose predecessor is the node before it. -/
theorem isRequesting_succ_iff (i : Nat) :
    isRequesting s p e (i + 1) = true ↔ fallSample s p e (i + 1) < fallSample s p e i :=
  decide_eq_true_iff

/-- Rule R113: a bit within the word is set exactly for a requesting node of the bus. -/
theorem requestVector_bit_iff {j : Nat} (hj : j < 64) :
    (requestVector s p e).getLsbD j = true ↔
      ∃ i < s.cfg.n, isRequesting s p e i = true ∧ j = 32 + i := by
  rw [requestVector, nodeVectorBits _ j hj]
  simp only [List.mem_filter, List.mem_range, and_assoc]

end

/-- Settles O19: the fall sample of a participating node is its next edge, the least one on a
well-formed channel. -/
theorem fallSampleIsFirstInWindow : Obligations.FallSampleIsFirstInWindow := by
  intro s p e i ha
  refine ⟨fun hpart => ?_, fallSample_sentinel⟩
  obtain ⟨hnext, hlt, hle⟩ := nextEdge_fallSample ha hpart
  exact ⟨(nextEdge_some hnext).1, hlt, hle, nextEdge_least (dat_wf ha i) hnext⟩

/-- Settles O18: a set bit stands for a requesting node, which is the master or a member. -/
theorem requestVectorMarksRequesters : Obligations.RequestVectorMarksRequesters := by
  intro s p e j _ hj
  rw [requestVector_bit_iff s p e hj]
  constructor
  · rintro ⟨i, hi, hreq, rfl⟩
    refine ⟨Nat.le_add_right 32 i, by omega, ?_⟩
    cases i with
    | zero => exact .inl ⟨rfl, (isRequesting_zero_iff s p e).1 hreq⟩
    | succ k =>
      refine .inr ⟨by omega, ?_⟩
      rw [show 32 + (k + 1) - 32 = k + 1 by omega, show 32 + (k + 1) - 33 = k by omega]
      exact (isRequesting_succ_iff s p e k).1 hreq
  · rintro ⟨hle, hn, ⟨rfl, hmaster⟩ | ⟨hlt, hfall⟩⟩
    · exact ⟨0, hn, (isRequesting_zero_iff s p e).2 hmaster, rfl⟩
    · obtain ⟨k, rfl⟩ := Nat.exists_eq_add_of_lt hlt
      rw [show 32 + k + 1 - 32 = k + 1 by omega] at hn hfall
      rw [show 32 + k + 1 - 33 = k by omega] at hfall
      exact ⟨k + 1, hn, (isRequesting_succ_iff s p e k).2 hfall, by omega⟩

/-! ## The operation in lock-step -/

section
variable {s : State} {p e : Nat} (hl : LockStep s p)
include hl

/-- With the reference cursor at the edge, every DAT cursor is still at the start of the window. -/
theorem setReferenceClk_lockStep (hpe : p ≤ e) :
    ∀ nd ∈ (setReferenceClk e s).nodes, nd.datPos = p ∧ nd.clkPos ≤ e := by
  intro nd hnd
  obtain ⟨j, hj⟩ := List.getElem?_of_mem hnd
  rw [setReferenceClk, setNodes_nodes, hl, List.getElem?_modify, Option.map_eq_map,
    Option.map_eq_some_iff] at hj
  obtain ⟨x, hx, rfl⟩ := hj
  obtain rfl := List.eq_of_mem_replicate (List.mem_of_getElem? hx)
  split
  · exact ⟨rfl, le_rfl⟩
  · exact ⟨rfl, hpe⟩

theorem setReferenceClk_length : (setReferenceClk e s).nodes.length = s.cfg.n := by
  simp [setReferenceClk, hl]

/-- The probe of the whole bus: its requesters are those of rule R112, and the cursors it leaves all
reach the edge in the bus-wide advance. -/
theorem probeNodes_lockStep (ha : s.capture.admittedFor s.cfg = true) (hpe : p ≤ e)
    (heh : e ≤ s.horizon) :
    ∃ probes nodes,
      probeNodes (setReferenceClk e s) e 0 (setReferenceClk e s).nodes = some (probes, nodes) ∧
      requesters s.cfg.n probes = (List.range s.cfg.n).filter (isRequesting s p e) ∧
      nodes.map (movedTo e) = List.replicate s.cfg.n { clkPos := e, datPos := e } := by
  obtain ⟨nodes, hprobe, hmoved⟩ := probeNodes_window (s := setReferenceClk e s) ha hpe heh _ 0
    (setReferenceClk_lockStep hl hpe)
  simp only [Nat.zero_add, setReferenceClk_length hl] at hprobe hmoved
  exact ⟨_, nodes, hprobe, requesters_window s p e, hmoved⟩

/-- Rules R110 to R115: REQUEST in lock-step, with the reference edge that ends its window. -/
theorem requestPhase_refEdge (hw : s.cfg.wf = true) (ha : s.capture.admittedFor s.cfg = true)
    (he : refEdge s p = some e) :
    requestPhase s = some (complete ({ emitFrame .request (requestFlags s) s.mark e
        (requestVector s p e) 0#64 (e + 1) (s.allAt e) with
      firstReq := false, txValid := false }.goto PhaseCode.arbitration)) := by
  obtain ⟨hlt, hle⟩ := refEdge_some he
  obtain ⟨probes, nodes, hprobe, hreq, hmoved⟩ := probeNodes_lockStep hl ha hlt.le hle
  obtain ⟨b, hadv⟩ := advanceAllTo_of_le (s := (setReferenceClk e s).setNodes nodes) hle
  rw [setNodes_nodes, hmoved] at hadv
  simp only [requestPhase, peekClkEdge_lockStep hw hl, he, hprobe, hadv, hreq,
    Option.bind_eq_bind, Option.bind_some]
  rfl

end

/-- Settles O17: REQUEST ends in the state that its phase operation answers. -/
theorem requestCompletes : Obligations.RequestCompletes :=
  fun s _ _ hw ha hl he => congrArg (finishStep s) (requestPhase_refEdge hl hw ha he)

end Sys2Proof.Machine
end

section
/-! ARBITRATION and PRIORITY (spec/41_arbitration.md rules R130 to R145): the match sets, the winners
and both operations in lock-step. -/

namespace Sys2Proof.Machine

open Sys2Proof

/-! ## Match sets -/

/-- Rule R65: the level vector holds the level of every node of the bus. -/
theorem levelOf_datLevels (s : State) (e : Nat) {i : Nat} (hi : i < s.cfg.n) :
    levelOf (s.datLevels e) i = (s.dat i).levelAt e := by
  simp [levelOf, State.datLevels, hi]

/-- Rule R131 for a member, whose predecessor is the node before it. -/
theorem arbitrationMatch_datLevels_iff (s : State) (e : Nat) {i : Nat} (hi : i < s.cfg.n) :
    arbitrationMatch (s.datLevels e) i = true ↔
      1 ≤ i ∧ (s.dat i).levelAt e = LOW ∧ (s.dat (i - 1)).levelAt e = HIGH := by
  simp only [arbitrationMatch, Bool.and_eq_true, decide_eq_true_eq, beq_iff_eq, and_assoc,
    levelOf_datLevels s e hi, levelOf_datLevels s e ((Nat.sub_le i 1).trans_lt hi)]

/-- Rule R131: a LOW master matches alone. -/
theorem arbitrationMatches_of_low {n : Nat} {levels : List Level} (h : levelOf levels 0 = LOW) :
    arbitrationMatches n levels = [0] :=
  if_pos h

/-- Rule R131: below a HIGH master the members are searched in ring order. -/
theorem arbitrationMatches_of_not_low {n : Nat} {levels : List Level}
    (h : levelOf levels 0 ≠ LOW) :
    arbitrationMatches n levels = (List.range n).filter (arbitrationMatch levels) :=
  if_neg h

theorem arbitrationMatches_pairwise (n : Nat) (levels : List Level) :
    (arbitrationMatches n levels).Pairwise (· < ·) := by
  by_cases h : levelOf levels 0 = LOW
  · rw [arbitrationMatches_of_low h]
    exact List.pairwise_singleton _ _
  · rw [arbitrationMatches_of_not_low h]
    exact List.pairwise_lt_range.filter _

/-- The first match of a rising list is the lowest. -/
theorem headD_le_of_pairwise {ms : List Nat} (h : ms.Pairwise (· < ·)) {i d : Nat} (hi : i ∈ ms) :
    ms.headD d ≤ i := by
  cases h with
  | nil => cases hi
  | cons hlt _ =>
    obtain rfl | hmem := List.mem_cons.1 hi
    · exact le_rfl
    · exact (hlt i hmem).le

/-- Settles O21: the master is looked at first, then the members in ring order. -/
theorem arbitrationMatchSet : Obligations.ArbitrationMatchSet := by
  intro s e hw
  have hrising := arbitrationMatches_pairwise s.cfg.n (s.datLevels e)
  refine ⟨fun i => ?_, hrising, fun i hi => headD_le_of_pairwise hrising hi⟩
  have hmaster := levelOf_datLevels s e (Config.n_bounds_of_wf hw).1
  split
  next hlow =>
    rw [arbitrationMatches_of_low (hmaster.trans hlow), List.mem_singleton]
  next hhigh =>
    rw [arbitrationMatches_of_not_low (hmaster.trans_ne hhigh), List.mem_filter, List.mem_range,
      and_left_comm]
    exact and_congr_right fun hi => arbitrationMatch_datLevels_iff s e hi

/-! ## The priority scan -/

/-- The ring distance after `t`, as rule R141 counts it: the `j`-th node scanned is `j + 1` away. -/
theorem ringDistance_scanned {n t j : Nat} (ht : t < n) (hj : j < n - 1) :
    ((t + (j + 1)) % n + n - t) % n = j + 1 := by
  by_cases hwrap : t + (j + 1) < n
  · rw [Nat.mod_eq_of_lt hwrap, show t + (j + 1) + n - t = j + 1 + n by omega, Nat.add_mod_right,
      Nat.mod_eq_of_lt (by omega)]
  · have hmod : (t + (j + 1)) % n = t + (j + 1) - n := by
      rw [Nat.mod_eq_sub_mod (by omega), Nat.mod_eq_of_lt (by omega)]
    rw [hmod, show t + (j + 1) - n + n - t = j + 1 by omega, Nat.mod_eq_of_lt (by omega)]

/-- The scan visits the ring by rising distance after the transmitter. -/
theorem scanOrder_pairwise {n t : Nat} (ht : t < n) :
    (scanOrder n t).Pairwise (fun a b => (a + n - t) % n < (b + n - t) % n) := by
  refine List.pairwise_map.2 (List.pairwise_lt_range.imp_of_mem fun ha hb hlt => ?_)
  rw [ringDistance_scanned ht (List.mem_range.1 ha), ringDistance_scanned ht (List.mem_range.1 hb)]
  exact Nat.succ_lt_succ hlt

/-- The scan visits every node but the transmitter. -/
theorem mem_scanOrder_iff {n t i : Nat} (ht : t < n) : i ∈ scanOrder n t ↔ i < n ∧ i ≠ t := by
  simp only [scanOrder, List.mem_map, List.mem_range]
  constructor
  · rintro ⟨j, hj, rfl⟩
    refine ⟨Nat.mod_lt _ (by omega), fun hback => ?_⟩
    have hdist := ringDistance_scanned ht hj
    rw [hback, Nat.add_sub_cancel_left, Nat.mod_self] at hdist
    exact nomatch hdist
  · rintro ⟨hi, hne⟩
    by_cases hafter : t < i
    · refine ⟨i - t - 1, by omega, ?_⟩
      rw [show t + (i - t - 1 + 1) = i by omega, Nat.mod_eq_of_lt hi]
    · refine ⟨i + n - t - 1, by omega, ?_⟩
      rw [show t + (i + n - t - 1 + 1) = i + n by omega, Nat.add_mod_right, Nat.mod_eq_of_lt hi]

/-- Rule R141 for a node of the bus and its ring predecessor. -/
theorem priorityMatch_datLevels_iff (s : State) (e : Nat) {i : Nat} (hi : i < s.cfg.n) :
    priorityMatch s.cfg.n (s.datLevels e) i = true ↔
      (s.dat i).levelAt e = LOW ∧ (s.dat ((i + s.cfg.n - 1) % s.cfg.n)).levelAt e = HIGH := by
  have hpred : ringPred s.cfg.n i < s.cfg.n := Nat.mod_lt _ (Nat.zero_lt_of_lt hi)
  rw [priorityMatch, Bool.and_eq_true, beq_iff_eq, beq_iff_eq, levelOf_datLevels s e hi,
    levelOf_datLevels s e hpred, ringPred]

/-- Settles O24: the matches keep the order of the scan. -/
theorem priorityScanFollowsTheRing : Obligations.PriorityScanFollowsTheRing := by
  intro s e t _ ht
  refine ⟨fun i => ?_, (scanOrder_pairwise ht).filter _⟩
  rw [priorityMatches, List.mem_filter, mem_scanOrder_iff ht, and_assoc]
  exact and_congr_right fun hi => and_congr_right fun _ => priorityMatch_datLevels_iff s e hi

/-! ## What a match set decides -/

section
variable (ms : List Nat)

/-- Rule R132. -/
theorem arbitrationFlags_eq :
    arbitrationFlags ms =
      if ms.isEmpty then 0x02#8 else if 1 < ms.length then 0x01#8 else 0x00#8 := by
  cases ms with
  | nil => rfl
  | cons winner rest => exact BitVec.zero_or

/-- Rule R133: without a winner its index reads as 0. -/
theorem arbitrationValue_eq :
    arbitrationValue ms = nodeVector ms ||| BitVec.ofNat 64 (ms.headD 0) := by
  cases ms with
  | nil => rfl
  | cons winner rest => rfl

/-- Rule R134. -/
theorem setWinner_eq_headD (s : State) :
    setWinner ms s = { s with
      txValid := !ms.isEmpty
      tx := if ms.isEmpty then s.tx else BitVec.ofNat 5 (ms.headD 0) } := by
  cases ms with
  | nil => rfl
  | cons winner rest => rfl

/-- Rule R142. -/
theorem replaceWinner_eq_headD (s : State) :
    replaceWinner ms s =
      { s with tx := if ms.isEmpty then s.tx else BitVec.ofNat 5 (ms.headD 0) } := by
  cases ms with
  | nil => rfl
  | cons winner rest => rfl

end

/-! ## The operations in lock-step -/

section
variable {s : State} {p e₁ e₂ : Nat} (hw : s.cfg.wf = true) (hl : LockStep s p)
  (he₁ : refEdge s p = some e₁) (he₂ : refEdge s e₁ = some e₂)
include hw hl he₁ he₂

/-- The arbiter's bit cell, with both its edges in the capture. -/
theorem arbiterCell_refEdges :
    arbiterCell s = some (e₁, s.datLevels e₁, (s.allAt e₂).latch e₁) := by
  have hlatch := clkEdge_lockStep hw hl he₁
  have hlevels : levelsAt (s.allAt e₁) e₁ = some (s.datLevels e₁) :=
    levelsAt_of_le (s := s.allAt e₁) (refEdge_some he₁).2
  have hdrive := clkEdge_lockStep (s := (s.allAt e₁).latch e₁) hw
    (lockStep_latch (lockStep_allAt s e₁)) he₂
  simp only [arbiterCell, hlatch, hlevels, hdrive, Option.bind_eq_bind, Option.bind_some]
  rfl

/-- Rule R130. -/
theorem arbitrationPhase_refEdges :
    arbitrationPhase s = some (complete ((emitFrame .arbitration
      (arbitrationFlags (arbitrationMatches s.cfg.n (s.datLevels e₁))) s.mark e₁
      (arbitrationValue (arbitrationMatches s.cfg.n (s.datLevels e₁))) 0#64 (e₁ + 1)
      (setWinner (arbitrationMatches s.cfg.n (s.datLevels e₁))
        ((s.allAt e₂).latch e₁))).goto PhaseCode.priority)) := by
  rw [arbitrationPhase, arbiterCell_refEdges hw hl he₁ he₂]
  rfl

/-- Rule R140 with a transmitter. -/
theorem priorityPhase_refEdges_txValid (htx : s.txValid = true) {ms : List Nat} {u : State}
    (hms : ms = priorityMatches s.cfg.n (s.datLevels e₁) s.tx.toNat)
    (hu : u = replaceWinner ms ((s.allAt e₂).latch e₁)) :
    priorityPhase s = some (complete ((emitFrame .priorityArbitration (priorityFlags ms) s.mark e₁
      (nodeVector ms ||| u.tx.setWidth 64) 0#64 (e₁ + 1) u).goto PhaseCode.reserved)) := by
  subst hms hu
  simp only [priorityPhase, arbiterCell_refEdges hw hl he₁ he₂, htx, Option.bind_eq_bind,
    Option.bind_some, if_true]

/-- Rule R140 without a transmitter. -/
theorem priorityPhase_refEdges_not_txValid (htx : s.txValid = false) :
    priorityPhase s = some (complete ((emitFrame .priorityArbitration Flag.noWinner s.mark e₁ 0#64
      0#64 (e₁ + 1) ((s.allAt e₂).latch e₁)).goto PhaseCode.reserved)) := by
  simp only [priorityPhase, arbiterCell_refEdges hw hl he₁ he₂, htx, Option.bind_eq_bind,
    Option.bind_some, Bool.false_eq_true, if_false]

end

/-- Settles O20: ARBITRATION ends in the state that its phase operation answers, with the match set
deciding flags, value and transmitter. -/
theorem arbitrationCompletes : Obligations.ArbitrationCompletes := by
  intro s p e₁ e₂ hw hl he₁ he₂
  have hphase := arbitrationPhase_refEdges hw hl he₁ he₂
  rw [arbitrationFlags_eq, arbitrationValue_eq, setWinner_eq_headD] at hphase
  exact congrArg (finishStep s) hphase

/-- Settles O22: with a transmitter the frame shows the one that is left after the scan. -/
theorem priorityCompletesWithTransmitter : Obligations.PriorityCompletesWithTransmitter := by
  intro s p e₁ e₂ hw hl he₁ he₂ htx
  exact congrArg (finishStep s)
    (priorityPhase_refEdges_txValid hw hl he₁ he₂ htx rfl (replaceWinner_eq_headD _ _).symm)

/-- Settles O23: without a transmitter both edges are consumed and `tx` is not read. -/
theorem priorityCompletesWithoutTransmitter : Obligations.PriorityCompletesWithoutTransmitter :=
  fun s _ _ _ hw hl he₁ he₂ htx =>
    congrArg (finishStep s) (priorityPhase_refEdges_not_txValid hw hl he₁ he₂ htx)

end Sys2Proof.Machine
end

section
/-! The flag `NoArbitrationWinner` (spec/41_arbitration.md rule R135): which frames of a transaction
carry it. -/

namespace Sys2Proof.Machine

open Sys2Proof

/-! ## The flag of one frame -/

/-- Rule R135 for a frame `f` that a step from `s` emits. -/
def PropagatesNoWinner (s : State) (f : Frame) : Prop :=
  (s.txValid = false → PhaseCode.priority ≤ s.phase → s.phase ≤ PhaseCode.control1 →
    f.flags = Flag.noWinner) ∧
  (s.phase = PhaseCode.request → f.flags &&& Flag.noWinner = Flag.none)

section
variable {s u : State} {f g : Frame}

/-- What emits no frame has none to answer for. -/
theorem PropagatesNoWinner.of_quiet (hu : u.sink = s.sink) (hsink : u.sink = s.sink ++ [f]) :
    PropagatesNoWinner s f :=
  absurd (hu.symm.trans hsink) (by simp)

/-- REQUEST has a flag of its own alone (rule R114). -/
theorem PropagatesNoWinner.of_request (hp : s.phase = PhaseCode.request)
    (hf : f.flags = requestFlags s) : PropagatesNoWinner s f := by
  refine ⟨fun _ hle => absurd (hp ▸ hle) (by decide), fun _ => ?_⟩
  rw [hf, requestFlags]
  split <;> rfl

/-- ARBITRATION is neither of the phases the rule speaks of. -/
theorem PropagatesNoWinner.of_arbitration (hp : s.phase = PhaseCode.arbitration) :
    PropagatesNoWinner s f :=
  ⟨fun _ hle => absurd (hp ▸ hle) (by decide), fun h => absurd (hp.symm.trans h) (by decide)⟩

/-- Any other operation emits one frame, which need only be right without a transmitter. -/
theorem PropagatesNoWinner.of_emit {src : BitVec 4} (hp : s.phase = src)
    (hsrc : src ≠ PhaseCode.request) (hu : u.sink = s.sink ++ [g])
    (hg : s.txValid = false → g.flags = Flag.noWinner) (hsink : u.sink = s.sink ++ [f]) :
    PropagatesNoWinner s f := by
  obtain rfl := List.singleton_inj.1 (List.append_cancel_left (hu.symm.trans hsink))
  exact ⟨fun htx _ _ => hg htx, fun h => absurd (hp.symm.trans h) hsrc⟩

theorem noWinnerFlag_of_not_txValid (htx : s.txValid = false) : noWinnerFlag s = Flag.noWinner := by
  simp [noWinnerFlag, htx]

end

/-! ## The flag of every step's frame -/

/-- Rule R135 over a step: RESERVED to CONTROL1 mark their frames by `nw`, PRIORITY by its own flag
when it resolves nothing. -/
theorem step_propagatesNoWinner {s t : State} {f : Frame} (h : step s = .next t) :
    t.sink = s.sink ++ [f] → PropagatesNoWinner s f := by
  refine step_elim h (P := fun u => u.sink = s.sink ++ [f] → PropagatesNoWinner s f) ?noStep ?halt
    ?badCode ?hold ?request ?arbitration ?priority ?reserved ?address ?data ?control0 ?control1
  case noStep => exact fun _ => .of_quiet rfl
  case halt => exact fun _ _ _ => .of_quiet rfl
  case badCode => exact fun _ _ => .of_quiet rfl
  case hold => exact fun _ => .of_quiet rfl
  case request =>
    intro _ hp hr hsink
    obtain ⟨e, probes, ns, -, -, rfl⟩ := requestPhase_effect hr
    obtain rfl := List.singleton_inj.1 (List.append_cancel_left hsink)
    exact .of_request hp rfl
  case arbitration => exact fun _ hp _ _ => .of_arbitration hp
  case priority =>
    intro _ hp hr
    obtain ⟨e, ns, -, -, rfl⟩ := priorityPhase_effect hr
    split
    next htx =>
      obtain ⟨x, hx⟩ := replaceWinner_eq (priorityMatches s.cfg.n (s.datLevels e) s.tx.toNat)
        ((s.setNodes ns).latch e)
      rw [hx]
      exact .of_emit hp (by decide) rfl fun hno => absurd (htx.symm.trans hno) (by decide)
    next => exact .of_emit hp (by decide) rfl fun _ => rfl
  case reserved =>
    intro _ hp hr
    obtain ⟨e, stop, ns, -, -, rfl⟩ := reservedPhase_effect hr
    exact .of_emit hp (by decide) rfl noWinnerFlag_of_not_txValid
  case address =>
    intro _ hp hr
    obtain ⟨v, ns, latch, pending, stop, -, rfl⟩ | ⟨e, ns, latch, -, rfl⟩ := addressLoop_effect hr
    · exact .of_emit hp (by decide) rfl noWinnerFlag_of_not_txValid
    · exact .of_quiet rfl
  case data =>
    intro _ hp hr
    obtain ⟨-, rfl⟩ | ⟨v, ns, latch, pending, stop, -, -, rfl⟩ | ⟨e, ns, latch, -, -, rfl⟩ :=
      dataPhase_effect hr
    · exact .of_emit hp (by decide) rfl noWinnerFlag_of_not_txValid
    · exact .of_emit hp (by decide) rfl noWinnerFlag_of_not_txValid
    · exact .of_emit hp (by decide) rfl noWinnerFlag_of_not_txValid
  case control0 =>
    intro _ hp hr
    obtain ⟨e, ns, -, -, rfl⟩ := control0Phase_effect hr
    exact .of_emit hp (by decide) rfl noWinnerFlag_of_not_txValid
  case control1 =>
    intro _ hp hr
    obtain ⟨e, e₃, ns, -, -, rfl⟩ := control1Phase_effect hr
    exact .of_emit hp (by decide) rfl noWinnerFlag_of_not_txValid

/-- Settles O46: the clauses of rule R135 hold of the frame of every step. -/
theorem noWinnerFlagPropagates : Obligations.NoWinnerFlagPropagates :=
  fun _ _ _ => step_propagatesNoWinner

end Sys2Proof.Machine
end

section
/-! RESERVED, ADDRESS and DATA (spec/42_framing.md rules R150 to R169): the cell that is whole or cut,
the run of bits that completes, and the interruption that ends it early. -/

namespace Sys2Proof.Machine

open Sys2Proof

/-! ## RESERVED in lock-step -/

section
variable {s : State} {p e₁ e₂ : Nat} (hw : s.cfg.wf = true)

/-- Rule R150: the transitions before the drive edge are all within the capture. -/
theorem count_before_drive (ch : Channel) (he₂ : refEdge s e₁ = some e₂) :
    count s.horizon ch e₁ (e₂ - 1) = some (ch.countIn e₁ (e₂ - 1)) :=
  count_of_le ch e₁ ((Nat.sub_le e₂ 1).trans (refEdge_some he₂).2)

include hw

/-- After the latch edge the cursor of the bus tap stands at that edge. -/
theorem datPos_latched : ((s.allAt e₁).latch e₁).datPos s.lastNode = e₁ :=
  (lockStep_latch (lockStep_allAt s e₁)).datPos (lastNode_lt (s := s) hw)

/-- After the latch edge the drive edge is the one RESERVED peeks at. -/
theorem peekClkEdge_latched (he₂ : refEdge s e₁ = some e₂) :
    peekClkEdge ((s.allAt e₁).latch e₁) = some e₂ :=
  (peekClkEdge_lockStep (s := (s.allAt e₁).latch e₁) hw (lockStep_allAt s e₁)).trans he₂

variable (hl : LockStep s p) (he₁ : refEdge s p = some e₁) (he₂ : refEdge s e₁ = some e₂)
include hl he₁ he₂

/-- Rule R150 with no `DAT_K` edge inside the cell. -/
theorem reservedPhase_whole (hwhole : ∀ t ∈ (s.dat s.lastNode).trans, e₁ < t → e₂ ≤ t) :
    reservedPhase s = some (complete ((emitFrame .reservedBit (noWinnerFlag s) s.mark e₁ 0#64 0#64
      (e₁ + 1) ((s.allAt e₂).latch e₁)).goto PhaseCode.address)) := by
  have hnone : ¬ 0 < (s.dat s.lastNode).countIn e₁ (e₂ - 1) := by
    rw [countIn_pos_iff]
    rintro ⟨t, ht, hlt, hle⟩
    have := hwhole t ht hlt
    omega
  have hdrive := clkEdge_lockStep (s := (s.allAt e₁).latch e₁) hw (lockStep_allAt s e₁) he₂
  simp only [reservedPhase, clkEdge_lockStep hw hl he₁, peekClkEdge_latched hw he₂,
    datPos_latched hw, count_before_drive _ he₂, hdrive, Option.bind_eq_bind, Option.bind_some,
    latch_dat, latch_horizon, latch_lastNode, allAt_dat, allAt_horizon, allAt_lastNode,
    if_neg hnone]
  rfl

/-- Rule R151: the first `DAT_K` edge inside the cell cuts it. -/
theorem reservedPhase_cut {d : Nat} (hd : nextEdge s.horizon (s.dat s.lastNode) e₁ = some d)
    (hde : d < e₂) :
    reservedPhase s = some (complete ((emitFrame .reservedBit (noWinnerFlag s) s.mark (d - 1) 0#64
      0#64 d ((s.allAt (d - 1)).latch e₁)).goto PhaseCode.address)) := by
  obtain ⟨hmem, hlt, hle⟩ := nextEdge_some hd
  have hsome : 0 < (s.dat s.lastNode).countIn e₁ (e₂ - 1) :=
    (countIn_pos_iff _ _ _).2 ⟨d, hmem, hlt, Nat.le_sub_one_of_lt hde⟩
  have hstop := advanceAllTo_lockStep (s := (s.allAt e₁).latch e₁) (lockStep_allAt s e₁)
    (Nat.le_sub_one_of_lt hlt) ((Nat.sub_le d 1).trans hle)
  simp only [reservedPhase, clkEdge_lockStep hw hl he₁, peekClkEdge_latched hw he₂,
    datPos_latched hw, count_before_drive _ he₂, hd, hstop, Option.bind_eq_bind, Option.bind_some,
    latch_dat, latch_horizon, latch_lastNode, allAt_dat, allAt_horizon, allAt_lastNode,
    if_pos hsome]
  rfl

end

/-- Settles O26: both edges of the cell are consumed. -/
theorem reservedWholeCell : Obligations.ReservedWholeCell :=
  fun s _ _ _ hw hl he₁ he₂ hwhole =>
    congrArg (finishStep s) (reservedPhase_whole hw hl he₁ he₂ hwhole)

/-- Settles O27: the drive edge is peeked at and left. -/
theorem reservedCutBeforeDatEdge : Obligations.ReservedCutBeforeDatEdge :=
  fun s _ _ _ _ hw _ hl he₁ he₂ hd hde =>
    congrArg (finishStep s) (reservedPhase_cut hw hl he₁ he₂ hd hde)

/-! ## A whole run of bits -/

/-- The state after the cells of a whole address or byte: an interruption at the last drive edge is
left pending (rules R161 and R166). -/
def State.afterRun (s : State) (p : Nat) (cells : List BitCell) : State :=
  let interrupted := interruptedIn s (lastLatchOf s.lastLatch cells) (lastDrive p cells)
  { s.afterCells p cells with
    intPending := s.intPending || interrupted
    intEnd := if interrupted then lastDrive p cells else s.intEnd }

section
variable {s : State} {p : Nat} {cells : List BitCell} {c : BitCell}

theorem afterCells_append_one :
    s.afterCells p (cells ++ [c]) = ((s.afterCells p cells).allAt c.drive).latch c.latch := by
  rw [State.afterCells, lastDrive_append_one, lastLatchOf_append_one]
  rfl

theorem afterRun_of_quiet (hquiet : interruptedIn s c.latch c.drive = false) :
    s.afterRun p (cells ++ [c]) = s.afterCells p (cells ++ [c]) := by
  simp only [State.afterRun, lastDrive_append_one, lastLatchOf_append_one, hquiet, Bool.or_false,
    Bool.false_eq_true, if_false]
  rfl

theorem afterRun_of_interrupted (hint : interruptedIn s c.latch c.drive = true) :
    s.afterRun p (cells ++ [c]) = (s.afterCells p (cells ++ [c])).setPending c.drive := by
  simp only [State.afterRun, lastDrive_append_one, lastLatchOf_append_one, hint, Bool.or_true,
    if_true]
  rfl

/-- The cells of a run and the edges of the one after them. -/
theorem cellsFrom_append_one :
    cellsFrom s p (cells.length + 1) = some (cells ++ [c]) ↔
      cellsFrom s p cells.length = some cells ∧ refEdge s (lastDrive p cells) = some c.latch ∧
        refEdge s c.latch = some c.drive := by
  rw [show cells.length + 1 = cells.length + [c].length from rfl, cellsFrom_append,
    show [c].length = 0 + 1 from rfl, cellsFrom_cons]
  simp [cellsFrom]

/-- Rules R92 and R93: the bits latched fit the register, so the frame's field holds their value. -/
theorem setWidth_msbValue {w : Nat} {bits : List Level} (hbits : bits.length ≤ w) (hw : w ≤ 64) :
    (BitVec.ofNat w (msbValue bits)).setWidth 64 = BitVec.ofNat 64 (msbValue bits) :=
  BitVec.setWidth_ofNat_of_le_of_lt hw
    ((msbValue_lt bits).trans_le (Nat.pow_le_pow_right Nat.two_pos hbits))

end

/-! ## ADDRESS in lock-step -/

/-- Rule R91: no address is wider than 32 bits. -/
theorem addressWidth_le (bits : List Level) : addressWidth bits ≤ 32 := by
  obtain h | h := addressWidth_eq bits <;> omega

/-- Rule R162: the bits before one that belongs to the address are not yet the whole address. -/
theorem latchedBits_lt_addressWidth {s : State} {cells : List BitCell} {c : BitCell}
    (h : (latchedBits s (cells ++ [c])).length ≤ addressWidth (latchedBits s (cells ++ [c]))) :
    (latchedBits s cells).length < addressWidth (latchedBits s cells) := by
  by_cases h8 : (latchedBits s cells).length < 8
  · rwa [addressWidth_of_lt h8]
  · rw [latchedBits_append, List.length_append, addressWidth_append (not_lt.1 h8)] at h
    exact Nat.lt_of_succ_le h

section
variable {s : State} {p : Nat} {cells : List BitCell} (hw : s.cfg.wf = true) (hl : LockStep s p)
  (hq : quietCells s p cells = true)
include hw hl hq

/-- ADDRESS after quiet cells: the loop goes on from the state they leave, with fuel for one cell
more. -/
theorem addressPhase_quietCells (hc : cellsFrom s p cells.length = some cells)
    (hlt : (latchedBits s cells).length < addressWidth (latchedBits s cells)) :
    ∃ fuel, addressPhase s =
      addressLoop (fuel + 1) (latchedBits s cells).length (addressWidth (latchedBits s cells))
        (BitVec.ofNat 32 (msbValue (latchedBits s cells))) (s.afterCells p cells) := by
  have hfuel : 31 - cells.length + 1 + cells.length = 32 := by
    have hmax := addressWidth_le (latchedBits s cells)
    rw [latchedBits_length] at hlt
    omega
  have hrun := addressLoop_quietCells (fuel := 31 - cells.length + 1) (bits := []) hw hl hc hq
    (by simpa using hlt.le)
  rw [hfuel] at hrun
  exact ⟨_, hrun⟩

/-- Rule R161 at a latch edge. -/
theorem addressPhase_interruptedLatch {e : Nat} (hc : cellsFrom s p cells.length = some cells)
    (hlt : (latchedBits s cells).length < addressWidth (latchedBits s cells))
    (he : refEdge s (lastDrive p cells) = some e)
    (hint : interruptedIn s (lastDrive p cells) e = true) :
    addressPhase s = some (raiseFault .addrInterrupt e ((s.afterCells p cells).allAt e)) := by
  obtain ⟨fuel, hrun⟩ := addressPhase_quietCells hw hl hq hc hlt
  rw [hrun]
  exact addressLoop_interruptedLatch (s := s.afterCells p cells) hw (lockStep_afterCells s p cells)
    he hint hlt

variable {c : BitCell} (hc : cellsFrom s p (cells.length + 1) = some (cells ++ [c]))
  (hlatch : interruptedIn s (lastDrive p cells) c.latch = false)
include hc hlatch

/-- Rule R161 at a drive edge that is not the address's last. -/
theorem addressPhase_interruptedDrive (hint : interruptedIn s c.latch c.drive = true)
    (hlt : (latchedBits s (cells ++ [c])).length < addressWidth (latchedBits s (cells ++ [c]))) :
    addressPhase s = some (raiseFault .addrInterrupt c.drive (s.afterCells p (cells ++ [c]))) := by
  obtain ⟨hcells, he₁, he₂⟩ := cellsFrom_append_one.1 hc
  have hbefore := latchedBits_lt_addressWidth hlt.le
  obtain ⟨fuel, hrun⟩ := addressPhase_quietCells hw hl hq hcells hbefore
  rw [latchedBits_append] at hlt
  rw [hrun, addressLoop_interruptedDrive (s := s.afterCells p cells) hw
    (lockStep_afterCells s p cells) he₁ he₂ hlatch hint hbefore, afterCells_append_one]
  exact if_neg hlt.ne

/-- Rules R160 and R163, whether the last drive edge is quiet or not (rule R161). -/
theorem addressPhase_lastCell
    (hwidth : (latchedBits s (cells ++ [c])).length = addressWidth (latchedBits s (cells ++ [c]))) :
    addressPhase s = some (commitAddress
      (BitVec.ofNat 32 (msbValue (latchedBits s (cells ++ [c]))))
      (s.afterRun p (cells ++ [c]))) := by
  obtain ⟨hcells, he₁, he₂⟩ := cellsFrom_append_one.1 hc
  have hbefore := latchedBits_lt_addressWidth hwidth.le
  obtain ⟨fuel, hrun⟩ := addressPhase_quietCells hw hl hq hcells hbefore
  have hlock := lockStep_afterCells s p cells
  rw [latchedBits_append] at hwidth ⊢
  rw [hrun]
  cases hint : interruptedIn s c.latch c.drive with
  | false =>
    rw [afterRun_of_quiet hint, afterCells_append_one,
      addressLoop_quietCell (s := s.afterCells p cells) hw hlock he₁ he₂ hlatch hint hbefore]
    exact addressLoop_done hwidth.not_lt
  | true =>
    rw [afterRun_of_interrupted hint, afterCells_append_one,
      addressLoop_interruptedDrive (s := s.afterCells p cells) hw hlock he₁ he₂ hlatch hint hbefore]
    exact (if_pos hwidth).trans (addressLoop_done hwidth.not_lt)

end

/-- Settles O28: the address's last cell is split off, because its drive edge alone may be
interrupted. -/
theorem addressCompletes : Obligations.AddressCompletes := by
  intro s p cells hw hl hc hwidth hq
  obtain rfl | ⟨init, c, rfl⟩ := List.eq_nil_or_concat' cells
  · exact absurd (hwidth.trans (addressWidth_of_lt (by simp))) (by decide)
  · rw [quietButLastDrive_append_one, Bool.and_eq_true, Bool.not_eq_true'] at hq
    obtain ⟨hquiet, hlatch⟩ := hq
    rw [List.length_append] at hc
    rw [← latchedBits_length s] at hwidth
    have hfits := hwidth.trans_le (addressWidth_le _)
    have hphase := addressPhase_lastCell hw hl hquiet hc hlatch hwidth
    rw [commitAddress, setWidth_msbValue hfits (by decide)] at hphase
    exact congrArg (finishStep s) hphase

/-- Settles O29: the quiet cells lead to the state in which the loop meets the edge. -/
theorem addressInterruptedAtLatchFaults : Obligations.AddressInterruptedAtLatchFaults := by
  intro s p e cells hw hl hc hlt hq he hint
  rw [← latchedBits_length s] at hlt
  exact congrArg (finishStep s) (addressPhase_interruptedLatch hw hl hq hc hlt he hint)

/-- Settles O30: the interrupted cell has latched its bit, and the address wants more. -/
theorem addressInterruptedAtDriveFaults : Obligations.AddressInterruptedAtDriveFaults := by
  intro s p cells c hw hl hc hlt hq hlatch hint
  have hphase := addressPhase_interruptedDrive hw hl hq hc hlatch hint (by simpa using hlt)
  rw [afterCells_append_one] at hphase
  exact congrArg (finishStep s) hphase

/-! ## DATA in lock-step -/

/-- Rules R166 and R169: all that the end of a data run writes. -/
theorem commitInterrupt_eq (stop : Nat) (s : State) :
    commitInterrupt stop s = { s with
      sink := s.sink ++ [⟨.interrupt, noWinnerFlag s, s.lastLatch + 1, stop, 0#64, 0#64⟩]
      mark := stop + 1
      phase := PhaseCode.control0
      outcome := .next } :=
  rfl

/-- Rule R167: DATA looks at a pending interruption before the clock. -/
theorem dataPhase_pending {s : State} (hpend : s.intPending = true) :
    dataPhase s = some { commitInterrupt s.intEnd s with intPending := false } := by
  rw [dataPhase, hpend]
  rfl

section
variable {s : State} {p : Nat} {cells : List BitCell} (hw : s.cfg.wf = true) (hl : LockStep s p)
  (hpend : s.intPending = false) (hq : quietCells s p cells = true)
include hw hl hpend hq

/-- DATA after quiet cells: the loop goes on from the state they leave. -/
theorem dataPhase_quietCells {left : Nat} (hc : cellsFrom s p cells.length = some cells)
    (hleft : left + cells.length = 8) :
    dataPhase s = dataLoop left (BitVec.ofNat 8 (msbValue (latchedBits s cells)))
      (s.afterCells p cells) := by
  have hrun := dataLoop_quietCells (left := left) (bits := []) hw hl hc hq
  rw [hleft] at hrun
  rw [dataPhase, hpend]
  exact hrun

/-- Rule R166 at a latch edge. -/
theorem dataPhase_interruptedLatch {e : Nat} (hc : cellsFrom s p cells.length = some cells)
    (hlt : cells.length < 8) (he : refEdge s (lastDrive p cells) = some e)
    (hint : interruptedIn s (lastDrive p cells) e = true) :
    dataPhase s = some (commitInterrupt e ((s.afterCells p cells).allAt e)) := by
  rw [dataPhase_quietCells (left := 7 - cells.length + 1) hw hl hpend hq hc (by omega)]
  exact dataLoop_interruptedLatch (s := s.afterCells p cells) hw (lockStep_afterCells s p cells)
    he hint

variable {c : BitCell} (hc : cellsFrom s p (cells.length + 1) = some (cells ++ [c]))
  (hlatch : interruptedIn s (lastDrive p cells) c.latch = false)
include hc hlatch

/-- Rule R166 at a drive edge before the eighth. -/
theorem dataPhase_interruptedDrive (hint : interruptedIn s c.latch c.drive = true)
    (hlt : cells.length + 1 < 8) :
    dataPhase s = some (commitInterrupt c.drive (s.afterCells p (cells ++ [c]))) := by
  obtain ⟨hcells, he₁, he₂⟩ := cellsFrom_append_one.1 hc
  rw [dataPhase_quietCells (left := 7 - cells.length + 1) hw hl hpend hq hcells (by omega),
    dataLoop_interruptedDrive (s := s.afterCells p cells) hw (lockStep_afterCells s p cells) he₁ he₂
      hlatch hint, afterCells_append_one]
  exact if_neg (by omega)

/-- Rules R165 and R168, whether the eighth drive edge is quiet or not (rule R166). -/
theorem dataPhase_lastCell (hlen : cells.length = 7) :
    dataPhase s = some (commitData
      (BitVec.ofNat 8 (msbValue (latchedBits s (cells ++ [c]))))
      (s.afterRun p (cells ++ [c]))) := by
  obtain ⟨hcells, he₁, he₂⟩ := cellsFrom_append_one.1 hc
  have hlock := lockStep_afterCells s p cells
  rw [dataPhase_quietCells (left := 0 + 1) hw hl hpend hq hcells (by omega), latchedBits_append]
  cases hint : interruptedIn s c.latch c.drive with
  | false =>
    rw [afterRun_of_quiet hint, afterCells_append_one,
      dataLoop_quietCell (s := s.afterCells p cells) hw hlock he₁ he₂ hlatch hint]
    rfl
  | true =>
    rw [afterRun_of_interrupted hint, afterCells_append_one,
      dataLoop_interruptedDrive (s := s.afterCells p cells) hw hlock he₁ he₂ hlatch hint]
    exact if_pos rfl

end

/-- Settles O32: the eighth cell is split off, because its drive edge alone may be interrupted. -/
theorem dataByteCompletes : Obligations.DataByteCompletes := by
  intro s p cells hw hl hpend hc hq
  have hlen := cellsFrom_length hc
  obtain rfl | ⟨init, c, rfl⟩ := List.eq_nil_or_concat' cells
  · exact absurd hlen (by decide)
  · rw [quietButLastDrive_append_one, Bool.and_eq_true, Bool.not_eq_true'] at hq
    obtain ⟨hquiet, hlatch⟩ := hq
    rw [← hlen, List.length_append] at hc
    have hphase := dataPhase_lastCell hw hl hpend hquiet hc hlatch (by simpa using hlen)
    rw [commitData, setWidth_msbValue (by simpa using hlen.le) (by decide)] at hphase
    refine (congrArg (finishStep s) hphase).trans ?_
    simp only [State.afterRun, hpend, Bool.false_or]
    rfl

/-- Settles O33: the quiet cells lead to the state in which the loop meets the edge. -/
theorem dataInterruptedAtLatch : Obligations.DataInterruptedAtLatch := by
  intro s p e cells hw hl hpend hc hlt hq he hint
  have hphase := dataPhase_interruptedLatch hw hl hpend hq hc hlt he hint
  rw [commitInterrupt_eq] at hphase
  exact congrArg (finishStep s) hphase

/-- Settles O34: the interrupted cell has latched its bit, and the byte is partial. -/
theorem dataInterruptedAtDrive : Obligations.DataInterruptedAtDrive := by
  intro s p cells c hw hl hpend hc hlt hq hlatch hint
  have hphase := dataPhase_interruptedDrive hw hl hpend hq hc hlatch hint hlt
  rw [commitInterrupt_eq, afterCells_append_one] at hphase
  exact congrArg (finishStep s) hphase

/-- Settles O35: the clock is not read. -/
theorem pendingInterruptIsEmitted : Obligations.PendingInterruptIsEmitted := by
  intro s hpend
  have hphase := dataPhase_pending hpend
  rw [commitInterrupt_eq] at hphase
  exact congrArg (finishStep s) hphase

end Sys2Proof.Machine
end

section
/-! CONTROL0, CONTROL1 and the transaction outcome (spec/43_control.md rules R180 to R188): the cell
of a control bit, the silent edge that CONTROL1 waits for, and the outcome the two bits decide. -/

namespace Sys2Proof.Machine

open Sys2Proof

/-! ## The bit of a control frame -/

/-- Rules R180 and R185: the frame's value is the latched bit. -/
theorem bitField_eq_ite (b : Level) : bitField 64 b = if b then 1#64 else 0#64 := by
  cases b <;> rfl

/-- Rule R188: a consumer reads the latched bit back as bit 0 of the frame's value. -/
theorem getLsbD_bitField (b : Level) : (bitField 64 b).getLsbD 0 = b := by
  cases b <;> rfl

/-! ## The operations in lock-step -/

section
variable {s : State} {p e₁ e₂ e₃ : Nat} (hw : s.cfg.wf = true)
include hw

/-- The edge after a control cell is the silent one (rule R185). -/
theorem clkEdge_silent (he₃ : refEdge s e₂ = some e₃) :
    clkEdge ((s.allAt e₂).latch e₁) =
      some (e₃, interruptedIn s e₂ e₃, (s.allAt e₃).latch e₁) :=
  clkEdge_lockStep (s := (s.allAt e₂).latch e₁) hw (lockStep_allAt s e₂) he₃

variable (hl : LockStep s p) (he₁ : refEdge s p = some e₁) (he₂ : refEdge s e₁ = some e₂)
include hl he₁ he₂

/-- A control cell with both its edges: the tap is latched at the first, and every cursor stands at
the second. -/
theorem controlCell_of_edges :
    controlCell s = some (e₁, tapLevel s e₁, (s.allAt e₂).latch e₁) := by
  simp only [controlCell, clkEdge_lockStep hw hl he₁, bitAt_latch (c := ⟨e₁, e₂⟩) he₁,
    clkEdge_drive (c := ⟨e₁, e₂⟩) hw he₂, Option.bind_eq_bind, Option.bind_some]

/-- Rule R180. -/
theorem control0Phase_of_edges :
    control0Phase s = some (complete ((emitFrame .controlBit0 (noWinnerFlag s) s.mark e₁
      (bitField 64 (tapLevel s e₁)) 0#64 (e₁ + 1)
      { (s.allAt e₂).latch e₁ with cb0 := tapLevel s e₁ }).goto PhaseCode.control1)) := by
  simp only [control0Phase, controlCell_of_edges hw hl he₁ he₂, Option.bind_eq_bind,
    Option.bind_some]

/-- Rule R185. -/
theorem control1Phase_of_edges (he₃ : refEdge s e₂ = some e₃) :
    control1Phase s = some (complete ((emitFrame .controlBit1 (noWinnerFlag s) s.mark e₁
      (bitField 64 (tapLevel s e₁)) 0#64 (e₃ + 1) ((s.allAt e₃).latch e₁)).goto
        PhaseCode.request)) := by
  simp only [control1Phase, controlCell_of_edges hw hl he₁ he₂, clkEdge_silent hw he₃,
    Option.bind_eq_bind, Option.bind_some]

/-- Rule R234: CONTROL1 needs the silent edge, although its bit is already latched. -/
theorem control1Phase_silent_none (he₃ : refEdge s e₂ = none) : control1Phase s = none := by
  have hsilent : clkEdge ((s.allAt e₂).latch e₁) = none :=
    clkEdge_lockStep_none (s := (s.allAt e₂).latch e₁) hw (lockStep_allAt s e₂) he₃
  simp only [control1Phase, controlCell_of_edges hw hl he₁ he₂, hsilent, Option.bind_eq_bind,
    Option.bind_some, Option.bind_none]

end

/-- Settles O36: both edges of the cell are consumed. -/
theorem control0Completes : Obligations.Control0Completes := by
  intro s p e₁ e₂ hw hl he₁ he₂
  have hphase := control0Phase_of_edges hw hl he₁ he₂
  rw [bitField_eq_ite] at hphase
  exact congrArg (finishStep s) hphase

/-- Settles O37: the silent edge is consumed after the two of the cell. -/
theorem control1Completes : Obligations.Control1Completes := by
  intro s p e₁ e₂ e₃ hw hl he₁ he₂ he₃
  have hphase := control1Phase_of_edges hw hl he₁ he₂ he₃
  rw [bitField_eq_ite] at hphase
  exact congrArg (finishStep s) hphase

/-- Settles O38: the operation answers `none`, and its step ends in `finishStep s none`. -/
theorem control1WaitsForSilentEdge : Obligations.Control1WaitsForSilentEdge :=
  fun s _ _ _ hw hl he₁ he₂ he₃ =>
    congrArg (finishStep s) (control1Phase_silent_none hw hl he₁ he₂ he₃)

/-! ## The transaction outcome -/

/-- Rule R188: the four outcomes as a decision on the first bit, then on the second. -/
theorem transactionOutcome_eq_ite (cb0 cb1 : Level) :
    transactionOutcome cb0 cb1 =
      if cb0 then (if cb1 then .endOfMessageNak else .endOfMessageAck)
      else (if cb1 then .errorNode else .errorInterrupted) := by
  cases cb0 <;> cases cb1 <;> rfl

/-- Rule R188: the frame CONTROL0 emits and the register it writes hold the same bit. -/
theorem control0Phase_cb0 {s t : State} {f : Frame} (h : control0Phase s = some t)
    (hsink : t.sink = s.sink ++ [f]) : t.cb0 = f.valuePrimary.getLsbD 0 := by
  obtain ⟨e, ns, -, -, rfl⟩ := control0Phase_effect h
  have hframe : (⟨.controlBit0, noWinnerFlag s, s.mark, e, bitField 64 (tapLevel s e), 0#64⟩ :
      Frame) = f := List.singleton_inj.1 (List.append_cancel_left hsink)
  rw [← hframe]
  exact (getLsbD_bitField _).symm

/-- Settles O39: a held CONTROL0 emits no frame, so the second clause is about one that completed. -/
theorem transactionOutcomeTable : Obligations.TransactionOutcomeTable := by
  refine ⟨fun _ _ => transactionOutcome_eq_ite _ _, fun s t f0 h hsink => ?_⟩
  obtain hsome | ⟨-, rfl⟩ := finishStep_eq_next h
  · exact control0Phase_cb0 hsome hsink
  · exact absurd (List.self_eq_append_right.1 hsink) (List.cons_ne_nil _ _)

end Sys2Proof.Machine
end

section
/-! How a run ends (spec/60_exceptions.md rules R202 to R216): `stop`, fault entry, the terminal phases,
and a hold on a final capture. -/

namespace Sys2Proof.Machine

open Sys2Proof

/-! ## The terminal phases and `stop` -/

/-- Rules R204 and R210: in HALTED and FAULT there is no step. -/
theorem step_of_terminal {s : State} (h : s.phase = 8#4 ∨ s.phase = 9#4) :
    step s = .next (s.withOutcome .noStep) := by
  rw [step_of_not_stop (.inr h)]
  obtain h | h := h <;> rw [h] <;> rfl

/-- Settles O6: both answer what a no-step is. -/
theorem haltedAndFaultExecuteNothing : Obligations.HaltedAndFaultExecuteNothing :=
  fun _ => ⟨rfl, rfl⟩

/-- Settles O5: the terminal phases come first, then `stop`, then the dispatch. -/
theorem stopIsSampledFirst : Obligations.StopIsSampledFirst :=
  fun _ => ⟨step_of_terminal, fun h8 h9 hs => step_of_stop hs h8 h9,
    fun _ _ hs => step_of_not_stop (.inl hs)⟩

/-- Any number of steps from a terminal phase records at most the attempt. -/
theorem runSteps_of_terminal {s : State} (h : s.phase = 8#4 ∨ s.phase = 9#4) (k : Nat) :
    ∃ o, runSteps k s = s.withOutcome o := by
  induction k generalizing s with
  | zero => exact ⟨s.outcome, rfl⟩
  | succ k ih =>
    obtain ⟨o, ho⟩ := ih (s := s.withOutcome .noStep) h
    exact ⟨o, by rw [runSteps, step_of_terminal h]; exact ho⟩

/-- Settles O16: neither the capture nor `stop` is asked for in a terminal phase. -/
theorem faultAndHaltedAreTerminal : Obligations.FaultAndHaltedAreTerminal :=
  fun k s cap stop h =>
    runSteps_of_terminal (s := { s with capture := cap, stop := stop }) h.symm k

/-! ## Fault entry -/

/-- Rules R202 and R203: the two faults a step can raise. ADDRESS keeps the cursors and the last latch
it had reached, and a reserved code has moved nothing. -/
inductive FaultEntry (s : State) : State → Prop
  | addrInterrupt (phase : s.phase = 4#4) (e : Nat) (ns : List NodeCursors)
      (latch : Nat) :
      FaultEntry s (raiseFault .addrInterrupt e { s with nodes := ns, lastLatch := latch })
  | badState (phase : 10#4 ≤ s.phase) :
      FaultEntry s (raiseFault .badState (s.clkPos s.lastNode) s)

/-- Only ADDRESS and the reserved codes fault: every other way a step can go records another
outcome. -/
theorem step_faulted {s t : State} (h : step s = .next t) (hfault : t.outcome = .fault) :
    FaultEntry s t := by
  revert hfault
  refine step_elim (P := fun t => t.outcome = .fault → FaultEntry s t) h ?noStep ?halt ?badCode
    ?hold ?request ?arbitration ?priority ?reserved ?address ?data ?control0 ?control1
  case noStep | halt | hold => exact nofun
  case badCode => exact fun _ hp _ => .badState hp
  case request =>
    intro _ _ hr
    obtain ⟨e, probes, ns, -, -, rfl⟩ := requestPhase_effect hr
    exact nofun
  case arbitration =>
    intro _ _ hr
    obtain ⟨e, ns, -, -, rfl⟩ := arbitrationPhase_effect hr
    exact nofun
  case priority =>
    intro _ _ hr
    obtain ⟨e, ns, -, -, rfl⟩ := priorityPhase_effect hr
    exact nofun
  case reserved =>
    intro _ _ hr
    obtain ⟨e, stop, ns, -, -, rfl⟩ := reservedPhase_effect hr
    exact nofun
  case address =>
    intro _ hp hr
    obtain ⟨v, ns, latch, pending, stop, -, rfl⟩ | ⟨e, ns, latch, -, rfl⟩ :=
      addressLoop_effect hr
    · exact nofun
    · exact fun _ => .addrInterrupt hp e ns latch
  case data =>
    intro _ _ hr
    obtain ⟨-, rfl⟩ | ⟨v, ns, latch, pending, stop, -, -, rfl⟩ | ⟨e, ns, latch, -, -, rfl⟩ :=
      dataPhase_effect hr
    · exact nofun
    · exact nofun
    · exact nofun
  case control0 =>
    intro _ _ hr
    obtain ⟨e, ns, -, -, rfl⟩ := control0Phase_effect hr
    exact nofun
  case control1 =>
    intro _ _ hr
    obtain ⟨e, e₃, ns, -, -, rfl⟩ := control1Phase_effect hr
    exact nofun

/-- Settles O15: fault entry writes its own registers over what the operation had kept. -/
theorem faultEntryFrame : Obligations.FaultEntryFrame := by
  intro s t h hfault
  cases step_faulted h hfault with
  | addrInterrupt phase e ns latch =>
    rw [if_pos phase]
    rfl
  | badState phase =>
    have hne : s.phase ≠ 4#4 := fun h4 => absurd (h4 ▸ phase) (by decide)
    rw [if_neg hne]
    rfl

/-! ## What a step does not read -/

/-- The state with another record of the steps before it: the outcome of the last one, and whether the
run reached its end (logs 4 and 24). -/
def State.withRecord (s : State) (o : StepOutcome) (a : Bool) : State :=
  { s with outcome := o, atEnd := a }

/-- What is left of a change of the record after a step that did not hold, which has recorded its own
outcome. -/
def State.withAtEnd (s : State) (a : Bool) : State := { s with atEnd := a }

section
variable (s : State) (o : StepOutcome) (a : Bool)

@[simp] theorem withRecord_nodes : (s.withRecord o a).nodes = s.nodes := rfl
@[simp] theorem withRecord_peekClkEdge : peekClkEdge (s.withRecord o a) = peekClkEdge s := rfl
@[simp] theorem withRecord_bitAt (e : Nat) : bitAt (s.withRecord o a) e = bitAt s e := rfl
@[simp] theorem withRecord_levelsAt (e : Nat) :
    levelsAt (s.withRecord o a) e = levelsAt s e := rfl

/-- The record is not among the fields these updates write. -/
@[simp] theorem withRecord_setNodes (ns : List NodeCursors) :
    (s.withRecord o a).setNodes ns = (s.setNodes ns).withRecord o a := rfl
@[simp] theorem withRecord_setReferenceClk (e : Nat) :
    setReferenceClk e (s.withRecord o a) = (setReferenceClk e s).withRecord o a := rfl
@[simp] theorem withRecord_latch (e : Nat) :
    (s.withRecord o a).latch e = (s.latch e).withRecord o a := rfl
@[simp] theorem withRecord_setPending (e : Nat) :
    (s.withRecord o a).setPending e = (s.setPending e).withRecord o a := rfl
@[simp] theorem withRecord_setWinner (ms : List Nat) :
    setWinner ms (s.withRecord o a) = (setWinner ms s).withRecord o a := by
  cases ms <;> rfl
@[simp] theorem withRecord_replaceWinner (ms : List Nat) :
    replaceWinner ms (s.withRecord o a) = (replaceWinner ms s).withRecord o a := by
  cases ms <;> rfl

/-! The cursors move by the configuration and the capture alone. -/

@[simp] theorem advanceNodes_withRecord (target i : Nat) (nds : List NodeCursors) :
    advanceNodes (s.withRecord o a) target i nds = advanceNodes s target i nds := by
  induction nds generalizing i with
  | nil => rfl
  | cons nd rest ih =>
    simp only [advanceNodes, ih]
    rfl

@[simp] theorem probeNodes_withRecord (e i : Nat) (nds : List NodeCursors) :
    probeNodes (s.withRecord o a) e i nds = probeNodes s e i nds := by
  induction nds generalizing i with
  | nil => rfl
  | cons nd rest ih =>
    simp only [probeNodes, ih]
    rfl

@[simp] theorem advanceAllTo_withRecord (target : Nat) :
    advanceAllTo target (s.withRecord o a) =
      (advanceAllTo target s).map fun (t, b) => (t.withRecord o a, b) := by
  simp only [advanceAllTo, advanceNodes_withRecord, withRecord_nodes, Option.bind_eq_bind,
    Option.map_bind]
  rfl

@[simp] theorem clkEdge_withRecord :
    clkEdge (s.withRecord o a) = (clkEdge s).map fun (e, b, t) => (e, b, t.withRecord o a) := by
  simp only [clkEdge, withRecord_peekClkEdge, advanceAllTo_withRecord, Option.bind_eq_bind,
    Option.bind_map, Option.map_bind, Function.comp_def]
  rfl

@[simp] theorem arbiterCell_withRecord :
    arbiterCell (s.withRecord o a) =
      (arbiterCell s).map fun (e, levels, t) => (e, levels, t.withRecord o a) := by
  simp only [arbiterCell, clkEdge_withRecord, withRecord_levelsAt, withRecord_latch,
    Option.bind_eq_bind, Option.bind_map, Option.map_bind, Function.comp_def]
  rfl

@[simp] theorem controlCell_withRecord :
    controlCell (s.withRecord o a) =
      (controlCell s).map fun (e, b, t) => (e, b, t.withRecord o a) := by
  simp only [controlCell, clkEdge_withRecord, withRecord_bitAt, withRecord_latch,
    Option.bind_eq_bind, Option.bind_map, Option.map_bind, Function.comp_def]
  rfl

theorem requestPhase_withRecord :
    requestPhase (s.withRecord o a) = (requestPhase s).map (·.withAtEnd a) := by
  simp only [requestPhase, withRecord_peekClkEdge, withRecord_setReferenceClk, withRecord_nodes,
    probeNodes_withRecord, withRecord_setNodes, advanceAllTo_withRecord, Option.bind_eq_bind,
    Option.bind_map, Option.map_bind, Function.comp_def]
  rfl

theorem arbitrationPhase_withRecord :
    arbitrationPhase (s.withRecord o a) = (arbitrationPhase s).map (·.withAtEnd a) := by
  simp only [arbitrationPhase, arbiterCell_withRecord, withRecord_setWinner, Option.bind_eq_bind,
    Option.bind_map, Option.map_bind, Function.comp_def]
  rfl

theorem priorityPhase_withRecord :
    priorityPhase (s.withRecord o a) = (priorityPhase s).map (·.withAtEnd a) := by
  have hsame : (s.withRecord o a).txValid = s.txValid := rfl
  cases htx : s.txValid with
  | false =>
    simp only [priorityPhase, hsame, htx, arbiterCell_withRecord, Option.bind_eq_bind,
      Option.bind_map, Option.map_bind, Function.comp_def]
    rfl
  | true =>
    simp only [priorityPhase, hsame, htx, arbiterCell_withRecord, withRecord_replaceWinner,
      Option.bind_eq_bind, Option.bind_map, Option.map_bind, Function.comp_def]
    rfl

theorem reservedPhase_withRecord :
    reservedPhase (s.withRecord o a) = (reservedPhase s).map (·.withAtEnd a) := by
  simp only [reservedPhase, clkEdge_withRecord, withRecord_latch, withRecord_peekClkEdge,
    advanceAllTo_withRecord, Option.bind_eq_bind,
    Option.bind_map, Option.map_bind, apply_ite (Option.map _), Function.comp_def]
  rfl

theorem addressLoop_withRecord (fuel k bits : Nat) (v : BitVec 32) :
    addressLoop fuel k bits v (s.withRecord o a) =
      (addressLoop fuel k bits v s).map (·.withAtEnd a) := by
  induction fuel generalizing k bits v s with
  | zero => rfl
  | succ fuel ih =>
    simp only [addressLoop, clkEdge_withRecord, withRecord_bitAt, withRecord_latch,
      withRecord_setPending, ih, Option.bind_eq_bind, Option.bind_map, Option.map_bind,
      apply_ite (Option.map _), Function.comp_def]
    rfl

theorem dataLoop_withRecord (left : Nat) (v : BitVec 8) :
    dataLoop left v (s.withRecord o a) = (dataLoop left v s).map (·.withAtEnd a) := by
  induction left generalizing v s with
  | zero => rfl
  | succ left ih =>
    simp only [dataLoop, clkEdge_withRecord, withRecord_bitAt, withRecord_latch,
      withRecord_setPending, ih, Option.bind_eq_bind, Option.bind_map, Option.map_bind,
      apply_ite (Option.map _), Function.comp_def]
    rfl

theorem dataPhase_withRecord :
    dataPhase (s.withRecord o a) = (dataPhase s).map (·.withAtEnd a) := by
  have hsame : (s.withRecord o a).intPending = s.intPending := rfl
  rw [dataPhase, dataPhase, hsame, dataLoop_withRecord]
  split <;> rfl

theorem control0Phase_withRecord :
    control0Phase (s.withRecord o a) = (control0Phase s).map (·.withAtEnd a) := by
  simp only [control0Phase, controlCell_withRecord, Option.bind_eq_bind, Option.bind_map,
    Option.map_bind, Function.comp_def]
  rfl

theorem control1Phase_withRecord :
    control1Phase (s.withRecord o a) = (control1Phase s).map (·.withAtEnd a) := by
  simp only [control1Phase, controlCell_withRecord, clkEdge_withRecord, Option.bind_eq_bind,
    Option.bind_map, Option.map_bind, Function.comp_def]
  rfl

end

section
variable {s t : State} (o : StepOutcome) (a : Bool)

/-- With another record, an operation that held holds to the same state, and any other answers the same
but for `atEnd`. -/
theorem finishStep_withRecord {op : State → Option State}
    (hop : op (s.withRecord o a) = (op s).map (·.withAtEnd a))
    (h : finishStep s (op s) = .next t) :
    finishStep (s.withRecord o a) (op (s.withRecord o a)) = .next (t.withAtEnd a) ∨
      (t = s.withHold ∧ finishStep (s.withRecord o a) (op (s.withRecord o a)) = .next t) := by
  rw [hop]
  obtain hsome | ⟨hnone, rfl⟩ := finishStep_eq_next h
  · rw [hsome]
    exact .inl rfl
  · rw [hnone]
    exact .inr ⟨rfl, rfl⟩

theorem exec_withRecord {i : Instr} (h : exec i s = .next t) :
    exec i (s.withRecord o a) = .next (t.withAtEnd a) ∨
      (t = s.withHold ∧ exec i (s.withRecord o a) = .next t) := by
  cases i with
  | request => exact finishStep_withRecord o a (requestPhase_withRecord s o a) h
  | arbitration => exact finishStep_withRecord o a (arbitrationPhase_withRecord s o a) h
  | priority => exact finishStep_withRecord o a (priorityPhase_withRecord s o a) h
  | reserved => exact finishStep_withRecord o a (reservedPhase_withRecord s o a) h
  | address => exact finishStep_withRecord o a (addressLoop_withRecord s o a 32 0 8 0#32) h
  | data => exact finishStep_withRecord o a (dataPhase_withRecord s o a) h
  | control0 => exact finishStep_withRecord o a (control0Phase_withRecord s o a) h
  | control1 => exact finishStep_withRecord o a (control1Phase_withRecord s o a) h
  | halted | fault | reservedPhase101x | reservedPhase11xx =>
    cases Host.Outcome.next.inj h
    exact .inl rfl

/-- No step reads the record of the steps before it. -/
theorem step_withRecord (h : step s = .next t) :
    step (s.withRecord o a) = .next (t.withAtEnd a) ∨
      (t = s.withHold ∧ step (s.withRecord o a) = .next t) := by
  have hstop : stopTakes (s.withRecord o a) (fetch (s.withRecord o a)) = stopTakes s (fetch s) := by
    rw [Bool.eq_iff_iff, stopTakes_fetch, stopTakes_fetch]
    rfl
  unfold step at h ⊢
  rw [hstop]
  by_cases hs : stopTakes s (fetch s) = true
  · rw [if_pos hs] at h ⊢
    cases Host.Outcome.next.inj h
    exact .inl rfl
  · rw [if_neg hs] at h ⊢
    exact exec_withRecord o a h

end

/-! ## The end of a run -/

section
variable {s t : State}

/-- A step that records a hold held. -/
theorem step_held (h : step s = .next t) (hhold : t.outcome = .hold) : t = s.withHold := by
  obtain ⟨-, rfl⟩ | ⟨-, rfl | rfl | hf⟩ := step_outcomes h
  · cases hhold
  · cases hhold
  · rfl
  · cases hf with
    | completed f ho => rw [ho] at hhold; cases hhold
    | faulted ho => rw [ho] at hhold; cases hhold

/-- Only a hold writes `atEnd` (log 24): any other step hands on the value it was given. -/
theorem step_atEnd (h : step s = .next t) (hhold : t.outcome ≠ .hold) : t.atEnd = s.atEnd := by
  obtain hsame | ⟨rfl, -⟩ := step_withRecord s.outcome s.atEnd h
  · have heq : t = t.withAtEnd s.atEnd := Host.Outcome.next.inj (h.symm.trans hsame)
    exact (congrArg State.atEnd heq).trans rfl
  · exact absurd rfl hhold

/-- Rule R55: a step that held holds again, to the same state. -/
theorem step_withHold (h : step s = .next s.withHold) : step s.withHold = .next s.withHold :=
  (step_withRecord .hold s.capture.final h).elim id And.right

/-- Steps that change nothing. -/
theorem runSteps_of_fixed (h : step s = .next s) (k : Nat) : runSteps k s = s := by
  induction k with
  | zero => rfl
  | succ k ih =>
    rw [runSteps, h]
    exact ih

/-- Rule R216: the ways in which a step ends a run. -/
theorem step_ended_iff (hrun : s.ended = false) (h : step s = .next t) :
    t.ended = true ↔ t.phase = PhaseCode.fault ∨ t.phase = PhaseCode.halted ∨
      (t.outcome = .hold ∧ s.capture.final = true) := by
  have hend : s.atEnd = false := by
    rw [← Bool.not_eq_true]
    exact fun ha => Bool.false_ne_true (hrun.symm.trans ((ended_iff s).2 (.inr (.inr ha))))
  have hatEnd : t.atEnd = true ↔ t.outcome = .hold ∧ s.capture.final = true := by
    by_cases hhold : t.outcome = .hold
    · rw [step_held h hhold]
      exact (and_iff_right rfl).symm
    · rw [step_atEnd h hhold, hend]
      exact iff_of_false Bool.false_ne_true fun hf => hhold hf.1
  rw [ended_iff, hatEnd]

/-- Rules R230 and R231: a run that reset begins has ended only if the idle check failed. -/
theorem resetWith_ended_iff (cfg : Config) (cap : Capture) (stop : Bool) :
    (resetWith cfg cap stop).ended = true ↔ (resetWith cfg cap stop).errCode = .notIdle := by
  unfold resetWith
  by_cases hidle : (cfg.idleCheck && idleCheckFails cfg cap) = true
  · rw [if_pos hidle]
    exact iff_of_true rfl rfl
  · rw [if_neg hidle]
    exact iff_of_false Bool.false_ne_true nofun

end

/-- Settles O53: a hold is repeated because no step reads what it recorded, and the host's actions
write neither `phase` nor `atEnd`. -/
theorem runEndsAtFaultHaltOrFinalHold : Obligations.RunEndsAtFaultHaltOrFinalHold := by
  intro s t
  refine ⟨step_ended_iff, ?again, ?extend, ?setFinal, fun b => hostSetStop_ended b s, ?reset⟩
  case again =>
    intro h hhold _
    obtain rfl := step_held h hhold
    exact runSteps_of_fixed (step_withHold h)
  case extend =>
    intro hor more h
    obtain ⟨-, rfl⟩ := hostExtend_eq_next.1 h
    exact withCapture_ended s _
  case setFinal =>
    intro h
    obtain ⟨-, rfl⟩ := hostSetFinal_eq_next.1 h
    exact withCapture_ended s _
  case reset =>
    intro cfg cap h
    obtain ⟨-, -, rfl⟩ := hostReset_eq_next.1 h
    exact resetWith_ended_iff cfg cap s.stop

end Sys2Proof.Machine
end

section
/-! Extension and reset (spec/70_reset_and_hazards.md rules R230 to R240): an operation that does not
hold does the same on every extension of the capture, so where a run is cut makes no difference; and
what a reset loads. -/

namespace Sys2Proof.Machine

open Sys2Proof

/-! ## The shared operations on an extended capture -/

section
variable {s t : State} {cap : Capture}

/-- The state a clock edge leaves has the capture it was read from, so an extension of the one extends
the other: reads that follow the edge extend in turn. -/
theorem Extends.clkEdge (hx : Extends s.capture cap) {e : Nat} {b : Bool}
    (hc : clkEdge s = some (e, b, t)) :
    Machine.clkEdge (s.withCapture cap) = some (e, b, t.withCapture cap) ∧
      Extends t.capture cap := by
  refine ⟨clkEdge_extends hx hc, ?_⟩
  obtain ⟨-, -, ns, -, rfl⟩ := clkEdge_effect hc
  exact hx

theorem count_tap_extends (hx : Extends s.capture cap) {p q m : Nat}
    (hm : count s.horizon (s.dat s.lastNode) p q = some m) :
    count (s.withCapture cap).horizon ((s.withCapture cap).dat s.lastNode) p q = some m :=
  (Extends.dat hx s.lastNode).count (Extends.horizon hx) hm

theorem nextEdge_tap_extends (hx : Extends s.capture cap) {p d : Nat}
    (hd : nextEdge s.horizon (s.dat s.lastNode) p = some d) :
    nextEdge (s.withCapture cap).horizon ((s.withCapture cap).dat s.lastNode) p = some d :=
  (Extends.dat hx s.lastNode).nextEdge (Extends.horizon hx) hd

theorem probeNode_extends (hx : Extends s.capture cap) {e i : Nat} {nd : NodeCursors}
    {r : Probe × NodeCursors} (hp : probeNode s e i nd = some r) :
    probeNode (s.withCapture cap) e i nd = some r := by
  simp only [probeNode, Option.bind_eq_bind, Option.bind_eq_some_iff] at hp ⊢
  obtain ⟨part, hpart, hr⟩ := hp
  refine ⟨part, (Extends.dat hx i).wouldTransitionWithin (Extends.horizon hx) hpart, ?_⟩
  cases part with
  | false => exact hr
  | true =>
    simp only [if_true, Option.bind_eq_some_iff] at hr ⊢
    obtain ⟨fall, hfall, hr⟩ := hr
    exact ⟨fall, (Extends.dat hx i).nextEdge (Extends.horizon hx) hfall, hr⟩

theorem probeNodes_extends (hx : Extends s.capture cap) {e i : Nat} {nds : List NodeCursors}
    {r : List Probe × List NodeCursors} (hp : probeNodes s e i nds = some r) :
    probeNodes (s.withCapture cap) e i nds = some r := by
  induction nds generalizing i r with
  | nil => exact hp
  | cons nd rest ih =>
    simp only [probeNodes, Option.bind_eq_bind, Option.bind_eq_some_iff, Prod.exists] at hp ⊢
    obtain ⟨p, nd', hnode, ps, rest', hrest, hr⟩ := hp
    exact ⟨p, nd', probeNode_extends hx hnode, ps, rest', ih hrest, hr⟩

theorem arbiterCell_extends (hx : Extends s.capture cap) {e : Nat} {levels : List Level}
    (hc : arbiterCell s = some (e, levels, t)) :
    arbiterCell (s.withCapture cap) = some (e, levels, t.withCapture cap) := by
  simp only [arbiterCell, Option.bind_eq_bind, Option.bind_eq_some_iff, Prod.exists,
    Option.some.injEq, Prod.mk.injEq] at hc ⊢
  obtain ⟨e₁, b₁, s₁, hlatch, lv, hlv, e₂, b₂, s₂, hdrive, rfl, rfl, rfl⟩ := hc
  obtain ⟨hlatch', hx₁⟩ := hx.clkEdge hlatch
  obtain ⟨hdrive', -⟩ := Extends.clkEdge (s := s₁.latch e₁) hx₁ hdrive
  exact ⟨e₁, b₁, _, hlatch', lv, levelsAt_extends hx₁ hlv, e₂, b₂, _, hdrive', rfl, rfl, rfl⟩

theorem controlCell_extends (hx : Extends s.capture cap) {e : Nat} {b : Level}
    (hc : controlCell s = some (e, b, t)) :
    controlCell (s.withCapture cap) = some (e, b, t.withCapture cap) ∧
      Extends t.capture cap := by
  constructor
  · simp only [controlCell, Option.bind_eq_bind, Option.bind_eq_some_iff, Prod.exists,
      Option.some.injEq, Prod.mk.injEq] at hc ⊢
    obtain ⟨e₁, b₁, s₁, hlatch, lv, hlv, e₂, b₂, s₂, hdrive, rfl, rfl, rfl⟩ := hc
    obtain ⟨hlatch', hx₁⟩ := hx.clkEdge hlatch
    obtain ⟨hdrive', -⟩ := Extends.clkEdge (s := s₁.latch e₁) hx₁ hdrive
    exact ⟨e₁, b₁, _, hlatch', lv, bitAt_extends hx₁ hlv, e₂, b₂, _, hdrive', rfl, rfl, rfl⟩
  · obtain ⟨-, -, ns, -, rfl⟩ := controlCell_effect hc
    exact hx

@[simp] theorem withCapture_setWinner (ms : List Nat) :
    setWinner ms (s.withCapture cap) = (setWinner ms s).withCapture cap := by
  cases ms <;> rfl

@[simp] theorem withCapture_replaceWinner (ms : List Nat) :
    replaceWinner ms (s.withCapture cap) = (replaceWinner ms s).withCapture cap := by
  cases ms <;> rfl

/-! ## The phase operations on an extended capture -/

theorem requestPhase_extends (hx : Extends s.capture cap) (h : requestPhase s = some t) :
    requestPhase (s.withCapture cap) = some (t.withCapture cap) := by
  simp only [requestPhase, Option.bind_eq_bind, Option.bind_eq_some_iff, Prod.exists,
    Option.some.injEq] at h ⊢
  obtain ⟨e, he, probes, nds, hp, s₂, b, ha, rfl⟩ := h
  have hp' := probeNodes_extends (s := setReferenceClk e s) hx hp
  have ha' := advanceAllTo_extends (s := (setReferenceClk e s).setNodes nds) hx ha
  exact ⟨e, peekClkEdge_extends hx he, probes, nds, hp', _, b, ha', rfl⟩

theorem arbitrationPhase_extends (hx : Extends s.capture cap) (h : arbitrationPhase s = some t) :
    arbitrationPhase (s.withCapture cap) = some (t.withCapture cap) := by
  simp only [arbitrationPhase, Option.bind_eq_bind, Option.bind_eq_some_iff, Prod.exists,
    Option.some.injEq] at h ⊢
  obtain ⟨e, levels, s₂, hc, rfl⟩ := h
  refine ⟨e, levels, _, arbiterCell_extends hx hc, ?_⟩
  rw [withCapture_setWinner]
  rfl

theorem priorityPhase_extends (hx : Extends s.capture cap) (h : priorityPhase s = some t) :
    priorityPhase (s.withCapture cap) = some (t.withCapture cap) := by
  simp only [priorityPhase, Option.bind_eq_bind, Option.bind_eq_some_iff, Prod.exists,
    Option.some.injEq] at h ⊢
  obtain ⟨e, levels, s₂, hc, rfl⟩ := h
  refine ⟨e, levels, _, arbiterCell_extends hx hc, ?_⟩
  rw [withCapture_txValid, withCapture_replaceWinner]
  split <;> rfl

/-- What the decoder looks ahead to, the drive edge and the edge that cuts the cell, is in the capture
when it does not hold, and so in every extension. -/
theorem reservedPhase_extends (hx : Extends s.capture cap) (h : reservedPhase s = some t) :
    reservedPhase (s.withCapture cap) = some (t.withCapture cap) := by
  simp only [reservedPhase, Option.bind_eq_bind, Option.bind_eq_some_iff, Prod.exists] at h ⊢
  obtain ⟨e₁, b₁, s₁, hlatch, e₂, hpeek, early, hearly, h⟩ := h
  obtain ⟨hlatch', hx₁⟩ := hx.clkEdge hlatch
  refine ⟨e₁, b₁, _, hlatch', e₂, peekClkEdge_extends (s := s₁.latch e₁) hx₁ hpeek, early,
    count_tap_extends (s := s₁.latch e₁) hx₁ hearly, ?_⟩
  by_cases hcut : 0 < early
  · rw [if_pos hcut] at h ⊢
    simp only [Option.bind_eq_some_iff, Prod.exists, Option.some.injEq] at h ⊢
    obtain ⟨d, hd, s₃, b₃, ha, rfl⟩ := h
    exact ⟨d, nextEdge_tap_extends (s := s₁.latch e₁) hx₁ hd, _, b₃,
      advanceAllTo_extends (s := s₁.latch e₁) hx₁ ha, rfl⟩
  · rw [if_neg hcut] at h ⊢
    simp only [Option.bind_eq_some_iff, Prod.exists, Option.some.injEq] at h ⊢
    obtain ⟨e₃, b₃, s₃, hdrive, rfl⟩ := h
    obtain ⟨hdrive', -⟩ := Extends.clkEdge (s := s₁.latch e₁) hx₁ hdrive
    exact ⟨e₃, b₃, _, hdrive', rfl⟩

theorem addressLoop_extends {fuel k bits : Nat} {v : BitVec 32} (hx : Extends s.capture cap)
    (h : addressLoop fuel k bits v s = some t) :
    addressLoop fuel k bits v (s.withCapture cap) = some (t.withCapture cap) := by
  induction fuel generalizing k bits v s with
  | zero =>
    cases Option.some.inj h
    rfl
  | succ fuel ih =>
    unfold addressLoop at h ⊢
    by_cases hk : k < bits
    · rw [if_pos hk] at h ⊢
      simp only [Option.bind_eq_bind, Option.bind_eq_some_iff, Prod.exists] at h ⊢
      obtain ⟨e₁, i₁, s₁, hlatch, h⟩ := h
      obtain ⟨hlatch', hx₁⟩ := hx.clkEdge hlatch
      refine ⟨e₁, i₁, _, hlatch', ?_⟩
      cases i₁ with
      | true =>
        cases Option.some.inj h
        rfl
      | false =>
        simp only [Bool.false_eq_true, if_false, Option.bind_eq_some_iff, Prod.exists] at h ⊢
        obtain ⟨b, hb, e₂, i₂, s₃, hdrive, h⟩ := h
        obtain ⟨hdrive', hx₃⟩ := Extends.clkEdge (s := s₁.latch e₁) hx₁ hdrive
        refine ⟨b, bitAt_extends hx₁ hb, e₂, i₂, _, hdrive', ?_⟩
        generalize (if k + 1 = 8 ∧ longMarker (shiftIn v b) = true then 32 else bits) = bits' at h ⊢
        cases i₂ with
        | false => exact ih hx₃ h
        | true =>
          simp only [if_true] at h ⊢
          by_cases hlast : k + 1 = bits'
          · rw [if_pos hlast] at h ⊢
            exact ih (s := s₃.setPending e₂) hx₃ h
          · rw [if_neg hlast] at h ⊢
            cases Option.some.inj h
            rfl
    · rw [if_neg hk] at h ⊢
      cases Option.some.inj h
      rfl

theorem dataLoop_extends {left : Nat} {v : BitVec 8} (hx : Extends s.capture cap)
    (h : dataLoop left v s = some t) :
    dataLoop left v (s.withCapture cap) = some (t.withCapture cap) := by
  induction left generalizing v s with
  | zero =>
    cases Option.some.inj h
    rfl
  | succ left ih =>
    simp only [dataLoop, Option.bind_eq_bind, Option.bind_eq_some_iff, Prod.exists] at h ⊢
    obtain ⟨e₁, i₁, s₁, hlatch, h⟩ := h
    obtain ⟨hlatch', hx₁⟩ := hx.clkEdge hlatch
    refine ⟨e₁, i₁, _, hlatch', ?_⟩
    cases i₁ with
    | true =>
      cases Option.some.inj h
      rfl
    | false =>
      simp only [Bool.false_eq_true, if_false, Option.bind_eq_some_iff, Prod.exists] at h ⊢
      obtain ⟨b, hb, e₂, i₂, s₃, hdrive, h⟩ := h
      obtain ⟨hdrive', hx₃⟩ := Extends.clkEdge (s := s₁.latch e₁) hx₁ hdrive
      refine ⟨b, bitAt_extends hx₁ hb, e₂, i₂, _, hdrive', ?_⟩
      cases i₂ with
      | false => exact ih hx₃ h
      | true =>
        simp only [if_true] at h ⊢
        by_cases hlast : left = 0
        · rw [if_pos hlast] at h ⊢
          cases Option.some.inj h
          rfl
        · rw [if_neg hlast] at h ⊢
          cases Option.some.inj h
          rfl

theorem dataPhase_extends (hx : Extends s.capture cap) (h : dataPhase s = some t) :
    dataPhase (s.withCapture cap) = some (t.withCapture cap) := by
  unfold dataPhase at h ⊢
  rw [withCapture_intPending]
  by_cases hp : s.intPending = true
  · rw [if_pos hp] at h ⊢
    cases Option.some.inj h
    rfl
  · rw [if_neg hp] at h ⊢
    exact dataLoop_extends hx h

theorem control0Phase_extends (hx : Extends s.capture cap) (h : control0Phase s = some t) :
    control0Phase (s.withCapture cap) = some (t.withCapture cap) := by
  simp only [control0Phase, Option.bind_eq_bind, Option.bind_eq_some_iff, Prod.exists,
    Option.some.injEq] at h ⊢
  obtain ⟨e, b, s₂, hc, rfl⟩ := h
  exact ⟨e, b, _, (controlCell_extends hx hc).1, rfl⟩

theorem control1Phase_extends (hx : Extends s.capture cap) (h : control1Phase s = some t) :
    control1Phase (s.withCapture cap) = some (t.withCapture cap) := by
  simp only [control1Phase, Option.bind_eq_bind, Option.bind_eq_some_iff, Prod.exists,
    Option.some.injEq] at h ⊢
  obtain ⟨e, b, s₂, hc, e₃, b₃, s₃, hsilent, rfl⟩ := h
  obtain ⟨hc', hx₂⟩ := controlCell_extends hx hc
  exact ⟨e, b, _, hc', e₃, b₃, _, (hx₂.clkEdge hsilent).1, rfl⟩

/-! ## Operations and steps on an extended capture -/

/-- An operation that answers on the capture, rather than hold, is one that answers on the extension. -/
theorem finishStep_extends {op : State → Option State}
    (hop : op s = some t → op (s.withCapture cap) = some (t.withCapture cap))
    (h : finishStep s (op s) = .next t) (hhold : t.outcome ≠ .hold) :
    finishStep (s.withCapture cap) (op (s.withCapture cap)) = .next (t.withCapture cap) := by
  obtain hsome | ⟨-, rfl⟩ := finishStep_eq_next h
  · rw [hop hsome, finishStep_some]
  · exact absurd rfl hhold

theorem exec_extends {i : Instr} (hx : Extends s.capture cap) (h : exec i s = .next t)
    (hhold : t.outcome ≠ .hold) : exec i (s.withCapture cap) = .next (t.withCapture cap) := by
  cases i with
  | request => exact finishStep_extends (requestPhase_extends hx) h hhold
  | arbitration => exact finishStep_extends (arbitrationPhase_extends hx) h hhold
  | priority => exact finishStep_extends (priorityPhase_extends hx) h hhold
  | reserved => exact finishStep_extends (reservedPhase_extends hx) h hhold
  | address => exact finishStep_extends (addressLoop_extends hx) h hhold
  | data => exact finishStep_extends (dataPhase_extends hx) h hhold
  | control0 => exact finishStep_extends (control0Phase_extends hx) h hhold
  | control1 => exact finishStep_extends (control1Phase_extends hx) h hhold
  | halted | fault | reservedPhase101x | reservedPhase11xx =>
    cases Host.Outcome.next.inj h
    rfl

/-- Neither `stop` nor the fetch reads the capture, so a step extends as its operation does. -/
theorem step_extends (hx : Extends s.capture cap) (h : step s = .next t)
    (hhold : t.outcome ≠ .hold) : step (s.withCapture cap) = .next (t.withCapture cap) := by
  have hfetch : fetch (s.withCapture cap) = fetch s := rfl
  have hstop : stopTakes (s.withCapture cap) (fetch s) = stopTakes s (fetch s) := rfl
  unfold step at h ⊢
  rw [hfetch, hstop]
  by_cases hs : stopTakes s (fetch s) = true
  · rw [if_pos hs] at h ⊢
    cases Host.Outcome.next.inj h
    rfl
  · rw [if_neg hs] at h ⊢
    exact exec_extends hx h hhold

end

/-- Settles O48: each read of the capture that answered answers the same on the extension. -/
theorem extensionDoesNotChangeAnOperation : Obligations.ExtensionDoesNotChangeAnOperation :=
  fun _ _ _ _ hx h hhold => exec_extends hx h hhold

/-- Settles O49, by induction on the steps attempted: a step that did not hold is taken on the extension
as well, and from the first hold on the run stands still, so no further step is needed there. -/
theorem holdEquivalence : Obligations.HoldEquivalence := by
  intro k
  induction k with
  | zero => exact fun s cap _ => ⟨0, le_rfl, s.outcome, rfl⟩
  | succ k ih =>
    intro s cap hx
    obtain ⟨t, ht⟩ := step_next s
    have hrun : runSteps (k + 1) s = runSteps k t := by rw [runSteps, ht]
    rw [hrun]
    by_cases hhold : t.outcome = .hold
    · obtain rfl := step_held ht hhold
      rw [runSteps_of_fixed (step_withHold ht)]
      exact ⟨0, Nat.zero_le _, s.outcome, rfl⟩
    · have hxt : Extends t.capture cap := (step_movesOn ht).capture.symm ▸ hx
      obtain ⟨j, hj, o, ho⟩ := ih t cap hxt
      refine ⟨j + 1, Nat.succ_le_succ hj, o, ?_⟩
      rw [runSteps, step_extends hx ht hhold, ← step_atEnd ht hhold]
      exact ho

/-! ## Reset -/

/-- Rule R231 in words. -/
theorem idleCheckFails_iff (cfg : Config) (cap : Capture) :
    idleCheckFails cfg cap = true ↔
      ∃ i < cfg.n, (cap.clk cfg i).levelAt 0 = LOW ∨ (cap.dat cfg i).levelAt 0 = LOW := by
  simp only [idleCheckFails, List.any_eq_true, List.mem_range, Bool.or_eq_true, beq_iff_eq]

/-- Settles O50: reset loads the registers, and a failed idle check writes the fault registers over
them. -/
theorem resetLoadsEveryRegister : Obligations.ResetLoadsEveryRegister := by
  intro cfg cap s hw ha failed
  refine ⟨resetWith cfg cap s.stop, hostReset_eq_next.2 ⟨hw, ha, rfl⟩, ?_⟩
  have hfailed : (cfg.idleCheck && idleCheckFails cfg cap) = true ↔ failed := by
    rw [Bool.and_eq_true, idleCheckFails_iff]
  unfold resetWith
  by_cases hf : failed
  · rw [if_pos (hfailed.2 hf)]
    exact ⟨fun _ => ⟨rfl, rfl⟩, fun hn => absurd hf hn, rfl⟩
  · rw [if_neg (mt hfailed.1 hf)]
    exact ⟨fun h => absurd h hf, fun _ => ⟨rfl, rfl⟩, rfl⟩

/-- Settles O55: a reset the host can apply is one on admitted inputs. -/
theorem hostResetMeetsInvariants : Obligations.HostResetMeetsInvariants := by
  intro cfg cap s t h
  obtain ⟨hw, ha, rfl⟩ := hostReset_eq_next.1 h
  exact ⟨sessionInv_resetWith hw ha s.stop, sinkInv_resetWith cfg cap s.stop⟩

/-- The model's reset state is what the host's reset gives on its configuration and capture, an idle bus
of two nodes (logs 1 and 2). -/
theorem hostReset_reset (s : State) (hs : s.stop = false) :
    hostReset State.reset.cfg State.reset.capture s = .next State.reset := by
  rw [hostReset_eq_next, hs]
  decide

/-- Settles O54: the reset state is one that the host's reset answers. -/
theorem resetStateMeetsInvariants : Obligations.ResetStateMeetsInvariants :=
  hostResetMeetsInvariants _ _ _ _ (hostReset_reset State.reset rfl)

end Sys2Proof.Machine
end
